-- ==== Sys2Proof/Word.lean ====
section
/-! DEFINITION. The fixed-width words of the block: bytes, character codes, the command word and its fields,
and the binary64 operand (00_scope.md rules R7, R8; 10_state.md rules R20, R24; 30_encoding.md rule R50). -/

namespace Sys2Proof

/-- One element of a byte sequence, in `[0, 255]` (00_scope.md rule R8). -/
abbrev Byte := BitVec 8

/-- A text: a finite sequence of character codes in `[0, 255]`, index 0 first (00_scope.md rule R8). -/
abbrev Text := List Byte

/-- The 16-bit command word `cmd` (30_encoding.md rule R50). -/
abbrev CmdWord := BitVec 16

/-- The 6-bit field `cmd[5:0]` and the latch field `RSP.OP` (10_state.md rule R20). -/
abbrev Opcode := BitVec 6

/-- The 64-bit operand `V`, an IEEE-754 binary64 pattern (10_state.md rule R24). -/
abbrev Word64 := BitVec 64

end Sys2Proof
end

