-- ==== Sys2Proof/Config.lean ====
section
/-! DEFINITION. The implementation parameters of the block (00_scope.md rule R5): what is fixed when the block is
built. The open ones are the fields of `Params`; the two that the spec fixes are constants. The spec leaves no value
to chance (93_implementation_defined.md names a treatment for every open point), so there is no free value here. -/

namespace Sys2Proof

/-- `F6_EXP_CODING`: how the 15-bit exponent field of the 6-byte float is coded (rules R5, R192). -/
inductive F6ExpCoding where
  | signMagnitude
  | twosComplement
  deriving DecidableEq, Repr

/-- `F6_FRAC_BIT31`: what 6-byte float decode does with bit 31 of the fraction word (rules R5, R195). -/
inductive F6FracBit31 where
  | ignored
  | included
  deriving DecidableEq, Repr

/-- The parameters that 00_scope.md rule R5 leaves open, each an argument of the model. -/
structure Params where
  /-- `INT_MAX_BYTES`: largest unsigned or synchsafe integer width, in bytes. -/
  intMaxBytes : Nat
  /-- `ADD_BITS`: word width `W` of the bitwise adder/subtractor. -/
  addBits : Nat
  /-- `BYTES_MAX`: largest length of the byte operand `X`. -/
  bytesMax : Nat
  /-- `TEXT_MAX`: largest length of the text operand `TX` and of any text result. -/
  textMax : Nat
  /-- `F6_EXP_CODING`. -/
  f6ExpCoding : F6ExpCoding
  /-- `F6_FRAC_BIT31`. -/
  f6FracBit31 : F6FracBit31
  deriving DecidableEq, Repr

/-- The third column of rule R5's table: the values the spec adopts as its defaults. -/
def Params.standard : Params where
  intMaxBytes := 8
  addBits := 32
  bytesMax := 256
  textMax := 2048
  f6ExpCoding := .signMagnitude
  f6FracBit31 := .ignored

/-- `SIGNED_MAX_BYTES`, fixed at 4 (rule R5). -/
def Config.signedMaxBytes : Nat := 4

/-- `FRAC_CAP`, fixed at 128 (rule R5). -/
def Config.fracCap : Nat := 128

end Sys2Proof
end

