-- ==== Sys2Proof/Syntax.lean ====
section
/-! DEFINITION. The commands of the block: one constructor per row of spec/opcode_table.json (30_encoding.md rules
R56, R57), and the fields of a command word (rule R50). A command carries no operand: every operand is a separate
field of the request (rule R60). -/

namespace Sys2Proof

/-- The 31 commands of 30_encoding.md rule R57. In the endian family `Be`/`Le` is the bit `E`, and the last part
of the name the bits `Y`, `S`: `U` (0, 0), `Ss` (1, 0), `S` (0, 1), `Ys` (1, 1). -/
inductive Instr where
  | add
  | sub
  | bin2dec
  | dec2bin
  | dec2binp
  | dec2binpT
  | bin2txt
  | bytes2bin
  | encintBeU
  | encintLeU
  | encintBeSs
  | encintLeSs
  | encintBeS
  | encintLeS
  | encintBeYs
  | encintLeYs
  | decintBeU
  | decintLeU
  | decintBeSs
  | decintLeSs
  | decintBeS
  | decintLeS
  | decintBeYs
  | decintLeYs
  | f6enc
  | f6dec
  | fdec
  | fbinfrac
  | normbp
  | guid2str
  | str2guid
  deriving DecidableEq, Repr

/-- The fields of a command word (30_encoding.md rule R50). -/
structure Fields where
  /-- `cmd[5:0]`, operation select. -/
  op : Opcode
  /-- `cmd[6]`, endianness. -/
  e : Bool
  /-- `cmd[7]`, synchsafe. -/
  y : Bool
  /-- `cmd[8]`, signed. -/
  s : Bool
  /-- `cmd[9]`, truncate. -/
  t : Bool
  /-- `cmd[15:10]`, reserved. -/
  rsv : BitVec 6
  deriving DecidableEq, Repr

/-- The operand fields of a request that a command may read (10_state.md rule R24). -/
inductive Operand where
  | A
  | B
  | V
  | X
  | TX
  deriving DecidableEq, Repr

end Sys2Proof
end

