-- ==== Sys2Proof/WellFormed.lean ====
section
/-! DEFINITION. What is well formed: the fields of a command word (30_encoding.md rule R58) and the parameters of a
build (00_scope.md rule R5, 42_endian_int.md rule R155). -/

namespace Sys2Proof

/-- `RSV` is 0 (30_encoding.md rule R55). -/
def Fields.reservedZero (f : Fields) : Bool := f.rsv == 0#6

/-- `OP` is one of 0x01 to 0x10 (30_encoding.md rule R56). -/
def Fields.opAssigned (f : Fields) : Bool := 0x01#6 ≤ f.op && f.op ≤ 0x10#6

/-- `E`, `Y`, `S` are 0 except on ENCINT and DECINT (30_encoding.md rules R51 to R53). -/
def Fields.modifiersAllowed (f : Fields) : Bool :=
  f.op == 0x08#6 || f.op == 0x09#6 || !(f.e || f.y || f.s)

/-- `T` is 0 except on DEC2BINP (30_encoding.md rule R54). -/
def Fields.truncateAllowed (f : Fields) : Bool := f.op == 0x05#6 || !f.t

/-- A command word with these fields is legal: none of the four conditions of 30_encoding.md rule R58 holds. -/
def Fields.legal (f : Fields) : Bool :=
  f.reservedZero && f.opAssigned && f.modifiersAllowed && f.truncateAllowed

/-- Every command is well formed as syntax: it carries no operand (30_encoding.md rule R60), so nothing in it can
be out of range. The operands are checked when the command runs, and a bad one is a status, not bad syntax. -/
def Instr.wf (_ : Instr) : Bool := true

/-- `TEXT_MAX` holds every FBINFRAC result (00_scope.md rule R5). -/
def Params.textMaxOk (P : Params) : Bool := 1153 ≤ P.textMax

/-- `BYTES_MAX` holds a GUID (00_scope.md rule R5). -/
def Params.bytesMaxOk (P : Params) : Bool := 16 ≤ P.bytesMax

/-- `INT_MAX_BYTES <= BYTES_MAX` (42_endian_int.md rule R155). -/
def Params.intMaxBytesOk (P : Params) : Bool := P.intMaxBytes ≤ P.bytesMax

/-- DEDUCED: the adder is at least one bit wide, since the range of 40_bitwise_arith.md rule R100 names
`2^(W-1)`. Unsafe: notes/assumptions/6.md. -/
def Params.addBitsOk (P : Params) : Bool := 1 ≤ P.addBits

/-- The parameters are ones a block may be built with. -/
def Params.wf (P : Params) : Bool :=
  P.textMaxOk && P.bytesMaxOk && P.intMaxBytesOk && P.addBitsOk

end Sys2Proof
end

