-- ==== Sys2Proof/Decode.lean ====
section
/-! DEFINITION. The command decoder and the encoder (30_encoding.md rules R50 to R59). Decoding is total on the 65536
command words: each is one of the 31 commands or illegal, by name. -/

namespace Sys2Proof

/-- Why a command word is illegal (30_encoding.md rule R58). Every reason leads to the one status
`ILLEGAL_COMMAND`. -/
inductive Illegal where
  /-- A bit of `RSV` is set. -/
  | reservedBits
  /-- `OP` is unassigned. -/
  | unassignedOp
  /-- A bit of `E`, `Y`, `S` (or `T` beside them) is set on a command that has no such modifier. -/
  | modifierBits
  /-- `T` is set on ENCINT or DECINT. -/
  | truncateBit
  deriving DecidableEq, Repr

/-- The fields of a command word (30_encoding.md rule R50). -/
def splitFields (w : CmdWord) : Fields where
  op := w.extractLsb' 0 6
  e := w.getLsbD 6
  y := w.getLsbD 7
  s := w.getLsbD 8
  t := w.getLsbD 9
  rsv := w.extractLsb' 10 6

/-- ENCINT by its modifier bits `E`, `Y`, `S` (30_encoding.md rule R56). -/
def encintOf (e y s : Bool) : Instr :=
  match y, s, e with
  | false, false, false => .encintBeU
  | false, false, true => .encintLeU
  | true, false, false => .encintBeSs
  | true, false, true => .encintLeSs
  | false, true, false => .encintBeS
  | false, true, true => .encintLeS
  | true, true, false => .encintBeYs
  | true, true, true => .encintLeYs

/-- DECINT by its modifier bits `E`, `Y`, `S` (30_encoding.md rule R56). -/
def decintOf (e y s : Bool) : Instr :=
  match y, s, e with
  | false, false, false => .decintBeU
  | false, false, true => .decintLeU
  | true, false, false => .decintBeSs
  | true, false, true => .decintLeSs
  | false, true, false => .decintBeS
  | false, true, true => .decintLeS
  | true, true, false => .decintBeYs
  | true, true, true => .decintLeYs

/-- The commands that have no modifier bit at all, by `OP` (30_encoding.md rule R56). -/
def plainOf (op : Opcode) : Option Instr :=
  if op = 0x01#6 then some .add
  else if op = 0x02#6 then some .sub
  else if op = 0x03#6 then some .bin2dec
  else if op = 0x04#6 then some .dec2bin
  else if op = 0x06#6 then some .bin2txt
  else if op = 0x07#6 then some .bytes2bin
  else if op = 0x0A#6 then some .f6enc
  else if op = 0x0B#6 then some .f6dec
  else if op = 0x0C#6 then some .fdec
  else if op = 0x0D#6 then some .fbinfrac
  else if op = 0x0E#6 then some .normbp
  else if op = 0x0F#6 then some .guid2str
  else if op = 0x10#6 then some .str2guid
  else none

/-- The decoder of 30_encoding.md rule R58, check by check in its order. -/
def decodeFields (f : Fields) : Except Illegal Instr :=
  if f.rsv ≠ 0#6 then .error .reservedBits
  else if f.op = 0x08#6 ∨ f.op = 0x09#6 then
    if f.t = true then .error .truncateBit
    else if f.op = 0x08#6 then .ok (encintOf f.e f.y f.s)
    else .ok (decintOf f.e f.y f.s)
  else if f.op = 0x05#6 then
    if f.e = true ∨ f.y = true ∨ f.s = true then .error .modifierBits
    else .ok (if f.t = true then .dec2binpT else .dec2binp)
  else
    match plainOf f.op with
    | some i => if f.e = true ∨ f.y = true ∨ f.s = true ∨ f.t = true then .error .modifierBits else .ok i
    | none => .error .unassignedOp

/-- The command a command word stands for, or why it is illegal (30_encoding.md rule R58). -/
def decode (w : CmdWord) : Except Illegal Instr := decodeFields (splitFields w)

/-- The field values of each command (30_encoding.md rule R57, and its suffixes in rule R56). -/
def fieldsOf (i : Instr) : Fields :=
  match i with
  | .add => ⟨0x01#6, false, false, false, false, 0#6⟩
  | .sub => ⟨0x02#6, false, false, false, false, 0#6⟩
  | .bin2dec => ⟨0x03#6, false, false, false, false, 0#6⟩
  | .dec2bin => ⟨0x04#6, false, false, false, false, 0#6⟩
  | .dec2binp => ⟨0x05#6, false, false, false, false, 0#6⟩
  | .dec2binpT => ⟨0x05#6, false, false, false, true, 0#6⟩
  | .bin2txt => ⟨0x06#6, false, false, false, false, 0#6⟩
  | .bytes2bin => ⟨0x07#6, false, false, false, false, 0#6⟩
  | .encintBeU => ⟨0x08#6, false, false, false, false, 0#6⟩
  | .encintLeU => ⟨0x08#6, true, false, false, false, 0#6⟩
  | .encintBeSs => ⟨0x08#6, false, true, false, false, 0#6⟩
  | .encintLeSs => ⟨0x08#6, true, true, false, false, 0#6⟩
  | .encintBeS => ⟨0x08#6, false, false, true, false, 0#6⟩
  | .encintLeS => ⟨0x08#6, true, false, true, false, 0#6⟩
  | .encintBeYs => ⟨0x08#6, false, true, true, false, 0#6⟩
  | .encintLeYs => ⟨0x08#6, true, true, true, false, 0#6⟩
  | .decintBeU => ⟨0x09#6, false, false, false, false, 0#6⟩
  | .decintLeU => ⟨0x09#6, true, false, false, false, 0#6⟩
  | .decintBeSs => ⟨0x09#6, false, true, false, false, 0#6⟩
  | .decintLeSs => ⟨0x09#6, true, true, false, false, 0#6⟩
  | .decintBeS => ⟨0x09#6, false, false, true, false, 0#6⟩
  | .decintLeS => ⟨0x09#6, true, false, true, false, 0#6⟩
  | .decintBeYs => ⟨0x09#6, false, true, true, false, 0#6⟩
  | .decintLeYs => ⟨0x09#6, true, true, true, false, 0#6⟩
  | .f6enc => ⟨0x0A#6, false, false, false, false, 0#6⟩
  | .f6dec => ⟨0x0B#6, false, false, false, false, 0#6⟩
  | .fdec => ⟨0x0C#6, false, false, false, false, 0#6⟩
  | .fbinfrac => ⟨0x0D#6, false, false, false, false, 0#6⟩
  | .normbp => ⟨0x0E#6, false, false, false, false, 0#6⟩
  | .guid2str => ⟨0x0F#6, false, false, false, false, 0#6⟩
  | .str2guid => ⟨0x10#6, false, false, false, false, 0#6⟩

/-- The command word that holds the given fields (30_encoding.md rule R50). -/
def joinFields (f : Fields) : CmdWord :=
  f.rsv ++ (BitVec.ofBool f.t ++ (BitVec.ofBool f.s ++ (BitVec.ofBool f.y ++ (BitVec.ofBool f.e ++ f.op))))

/-- The command word of a command (30_encoding.md rule R57). -/
def encode (i : Instr) : CmdWord := joinFields (fieldsOf i)

/-- The command this decoder reads from the instruction whose bits are `w` (bits from `nbits` up are 0). A command is
exactly one 16-bit word (30_encoding.md rule R50), so a bit above bit 15 makes it no command word. -/
def decodeTableWord (nbits w : Nat) : Option Instr :=
  if w % 2 ^ nbits < 2 ^ 16 then
    match decode (BitVec.ofNat 16 (w % 2 ^ nbits)) with
    | .ok i => some i
    | .error _ => none
  else none

end Sys2Proof
end

