-- ==== Sys2Proof/Machine/State.lean ====
section
/-! DEFINITION. The state of the block as plain data: the response latch `RSP`, the only state the spec gives it
(10_state.md rule R20), beside three fields of the model's own: the build's parameters, the request port's inputs
and the host's coming actions (notes/assumptions/1.md to 3.md). -/

namespace Sys2Proof.Machine

/-- The status codes 0 to 6 of 60_exceptions.md rule R300; code 7 is never written, so it has no constructor. -/
inductive Status where
  | ok
  | special
  | invalidLength
  | invalidFormat
  | rangeError
  | configurationError
  | illegalCommand
  deriving DecidableEq, Repr

/-- The errors a command may raise: the status codes that 60_exceptions.md rule R300 calls errors. -/
inductive Err where
  | invalidLength
  | invalidFormat
  | rangeError
  | configurationError
  | illegalCommand
  deriving DecidableEq, Repr

/-- The exact value domain of the float decoders (10_state.md rule R25). `fin` holds a non-zero rational: an
invariant that every step keeps (Safety.lean). -/
inductive Val where
  /-- A signed zero. -/
  | zero (neg : Bool)
  /-- A finite non-zero value. -/
  | fin (q : ℚ)
  /-- A signed infinity. -/
  | inf (neg : Bool)
  /-- Not-a-number, with no sign and no payload. -/
  | nan
  deriving DecidableEq, Repr

/-- The seven payload kinds of 10_state.md rule R26. -/
inductive Payload where
  | none
  | int (z : Int)
  | bytes (b : List Byte)
  | text (t : Text)
  | val (v : Val)
  /-- Sign, binary-point string, and whether the fraction was cut at `FRAC_CAP` bits. -/
  | binfrac (neg : Bool) (t : Text) (inexact : Bool)
  /-- Whether the value is zero, the binary exponent, and the mantissa bit-string. -/
  | norm (zero : Bool) (e : Int) (m : Text)
  deriving DecidableEq, Repr

/-- How a command ends (00_scope.md rule R11): it returns a payload or raises an error. -/
inductive Result where
  | ret (p : Payload)
  | raise (e : Err)
  deriving DecidableEq, Repr

/-- The response latch `RSP` (10_state.md rule R20). -/
structure Latch where
  /-- `RSP.VALID`: a command has completed since reset. -/
  valid : Bool
  /-- `RSP.OP`: `cmd[5:0]` of the command that produced the response. -/
  op : Opcode
  /-- `RSP.CODE`: the status code. -/
  code : Status
  /-- `RSP.PAYLOAD`: the result. -/
  payload : Payload
  deriving DecidableEq, Repr

/-- The reset value of the latch (10_state.md rule R20, 70_reset_and_hazards.md rule R330). -/
def Latch.reset : Latch where
  valid := false
  op := 0#6
  code := .ok
  payload := .none

/-- A request: a command word and five operand fields, all presented together (10_state.md rule R24). -/
structure Request where
  cmd : CmdWord
  a : Int
  b : Int
  v : Word64
  x : List Byte
  tx : Text
  deriving DecidableEq, Repr

/-- The request port with nothing presented: an operand nobody gives is 0 or empty (30_encoding.md rule R61).
DESIGN CHOICE for the command word. Unsafe: notes/assumptions/2.md. -/
def Request.idle : Request where
  cmd := 0#16
  a := 0
  b := 0
  v := 0#64
  x := []
  tx := []

/-- What the host does to the block (10_state.md rule R19; 70_reset_and_hazards.md rules R330, R331). -/
inductive HostEvent where
  /-- The host presents a request. -/
  | present (r : Request)
  /-- A reset arrives, while the given request is being performed if there is one. -/
  | reset (during : Option Request)
  deriving DecidableEq, Repr

/-- The state. `rsp` is the block's only architectural state (10_state.md rule R20). -/
structure State where
  /-- MODEL's own: the parameters the block was built with (00_scope.md rule R5); no step changes them. -/
  params : Params
  /-- The response latch `RSP`. -/
  rsp : Latch
  /-- MODEL's own: the inputs on the request port, the last request presented (10_state.md rule R24). -/
  port : Request
  /-- MODEL's own: what the host does next, the first action first (10_state.md rule R19). -/
  host : List HostEvent
  deriving DecidableEq, Repr

/-- There is no fault: an error is a status code in the latch, and no command stops the block
(60_exceptions.md rules R305, R306; 10_state.md rule R19). The type is therefore empty. -/
inductive Fault where
  deriving DecidableEq, Repr

/-- Why a step has no meaning. No arm of `exec` refuses: every command of the table is modelled. -/
inductive Refusal where
  /-- Raised by an arm of `exec` for an instruction with no meaning yet, by its mnemonic; safe. No arm does so. -/
  | notModelled (mnemonic : String)
  deriving DecidableEq, Repr

/-- The machine after reset: the latch in its reset state (70_reset_and_hazards.md rule R330), the default
parameters (00_scope.md rule R5), and a host that has presented nothing and plans nothing. -/
def State.reset : State where
  params := Params.standard
  rsp := Latch.reset
  port := Request.idle
  host := []

end Sys2Proof.Machine
end

