-- ==== Sys2Proof/Machine/Ops.lean ====
section
/-! DEFINITION. The shared operations: the notation of 00_scope.md rules R6 to R10 (bit-strings, least widths,
character codes), the one write of the response latch that ends every command (10_state.md rule R27), which is also
how an error is reported (60_exceptions.md rule R306), and the host's actions (reset, presenting a request). -/

namespace Sys2Proof.Machine

/-! ### Characters (00_scope.md rule R9) -/

/-- The character `'0'`. -/
def chr0 : Byte := 0x30#8

/-- The character `'1'`. -/
def chr1 : Byte := 0x31#8

/-- The character `'.'`. -/
def chrDot : Byte := 0x2E#8

/-- The character `'-'`. -/
def chrDash : Byte := 0x2D#8

/-- A character of a bit-string: `'0'` or `'1'` (00_scope.md rule R10). -/
def isBit (c : Byte) : Bool := c == chr0 || c == chr1

/-- The digit a character of a bit-string stands for (00_scope.md rule R10). -/
def bitDigit (c : Byte) : Nat := if c = chr1 then 1 else 0

/-- The character of the digit `d mod 2`. -/
def bitChar (d : Nat) : Byte := if d % 2 = 1 then chr1 else chr0

/-! ### Bit-strings (00_scope.md rule R10) -/

/-- Every character is `'0'` or `'1'`. -/
def isBits (t : Text) : Bool := t.all isBit

/-- `bitval(s)`: the leftmost character is the most significant bit (00_scope.md rule R10). -/
def bitval : Text → Nat
  | [] => 0
  | c :: cs => bitDigit c * 2 ^ cs.length + bitval cs

/-- `bits_n(u)`: the bit-string of length `n` whose value is `u mod 2^n` (00_scope.md rule R10). -/
def bits : Nat → Nat → Text
  | 0, _ => []
  | n + 1, u => bitChar (u / 2 ^ n) :: bits n u

/-! ### Least widths -/

/-- The first of `k, k + 1, …, k + fuel - 1` at which `p` holds, and `k + fuel` if it holds at none. -/
def leastFrom (p : Nat → Bool) : Nat → Nat → Nat
  | 0, k => k
  | fuel + 1, k => if p k then k else leastFrom p fuel (k + 1)

/-- `ku(x, base)`: the least `k >= 1` with `x < base^k`, for `base >= 2` (42_endian_int.md rule R153). -/
def ku (x base : Nat) : Nat := leastFrom (fun k => decide (x < base ^ k)) (x.log2 + 1) 1

/-- The least `n >= 1` with `u < 2^n` (41_binary_string.md rule R122). -/
def bitWidth (u : Nat) : Nat := ku u 2

/-- The `n`-byte signed range (42_endian_int.md rule R150), for `n >= 1`. -/
def inSignedRange (n : Nat) (x : Int) : Bool :=
  decide (-(2 ^ (8 * n - 1)) ≤ x) && decide (x ≤ 2 ^ (8 * n - 1) - 1)

/-- `ks(x)`: the least `k >= 1` with `x` in the `k`-byte signed range (42_endian_int.md rule R154). -/
def ks (x : Int) : Nat := leastFrom (fun k => inSignedRange k x) (x.natAbs.log2 + 1) 1

/-! ### Ending a command -/

/-- The numeric status code of an error (60_exceptions.md rule R300). -/
def Err.status (e : Err) : Status :=
  match e with
  | .invalidLength => .invalidLength
  | .invalidFormat => .invalidFormat
  | .rangeError => .rangeError
  | .configurationError => .configurationError
  | .illegalCommand => .illegalCommand

/-- The payloads that are reported with status `SPECIAL` (60_exceptions.md rule R301). -/
def Payload.isSpecial (p : Payload) : Bool :=
  match p with
  | .val (.inf _) => true
  | .val .nan => true
  | _ => false

/-- The status a command ends with (00_scope.md rule R11, 60_exceptions.md rule R301). -/
def Result.status (res : Result) : Status :=
  match res with
  | .ret p => if p.isSpecial then .special else .ok
  | .raise e => e.status

/-- The payload a command ends with: `NONE` after an error (10_state.md rule R27). -/
def Result.payload (res : Result) : Payload :=
  match res with
  | .ret p => p
  | .raise _ => .none

/-- The one write of the whole latch that ends every command (10_state.md rule R27): `RSP.OP` is `cmd[5:0]` of the
request as presented. An error is reported by the same write and changes nothing else (60_exceptions.md rule R306). -/
def State.respond (s : State) (res : Result) : State :=
  { s with
    rsp := { valid := true, op := s.port.cmd.extractLsb' 0 6, code := res.status, payload := res.payload } }

/-- A command that ends with the given result: always a next state (10_state.md rule R19). -/
def State.finish (s : State) (res : Result) : Host.Outcome State Fault Refusal := .next (s.respond res)

/-- What the decoder does with an illegal word: `ILLEGAL_COMMAND`, no operand read (60_exceptions.md rule R303). -/
def State.rejectCommand (s : State) : State := s.respond (.raise .illegalCommand)

/-! ### The host's side -/

/-- The block takes the request the host presents: its six fields stand on the port (10_state.md rule R24). -/
def State.acceptRequest (s : State) (r : Request) (rest : List HostEvent) : State :=
  { s with port := r, host := rest }

/-- Reset: the latch takes its reset state, the parameters stay, a request in progress is abandoned
(70_reset_and_hazards.md rules R330, R331). -/
def State.takeReset (s : State) (rest : List HostEvent) : State :=
  { s with rsp := Latch.reset, port := Request.idle, host := rest }

/-- The host's next action becomes presenting `r`; its other actions follow. -/
def State.presentNext (s : State) (r : Request) : State :=
  { s with host := .present r :: s.host }

/-- The request of a command word alone, its operands 0 or empty (30_encoding.md rule R61). -/
def requestOfWord (nbits w : Nat) : Request :=
  { Request.idle with cmd := BitVec.ofNat 16 (w % 2 ^ nbits) }

/-- A host read of `RSP`: the four fields as last written (10_state.md rule R28). It changes nothing. -/
def State.readRsp (s : State) : Latch := s.rsp

/-- What a host may treat as a result: nothing while `RSP.VALID` is 0 (10_state.md rule R28). -/
def Latch.result (l : Latch) : Option (Status × Payload) :=
  if l.valid then some (l.code, l.payload) else none

end Sys2Proof.Machine
end

