-- ==== Sys2Proof/Machine/Flags.lean ====
section
/-! DEFINITION. The block has no flags (10_state.md rule R22): the status code in `RSP.CODE` is the only status
indication. This file holds its 3-bit encoding (60_exceptions.md rule R300). -/

namespace Sys2Proof.Machine

/-- The 3-bit encoding of a status code in `RSP.CODE` (60_exceptions.md rule R300). -/
def Status.bits (c : Status) : BitVec 3 :=
  match c with
  | .ok => 0#3
  | .special => 1#3
  | .invalidLength => 2#3
  | .invalidFormat => 3#3
  | .rangeError => 4#3
  | .configurationError => 5#3
  | .illegalCommand => 6#3

/-- The codes that report an error; `OK` and `SPECIAL` are successes (60_exceptions.md rule R300). -/
def Status.isError (c : Status) : Bool :=
  match c with
  | .ok => false
  | .special => false
  | _ => true

end Sys2Proof.Machine
end

