-- ==== Sys2Proof/Machine/Operands.lean ====
section
/-! DEFINITION. The operand fields each command reads (30_encoding.md rule R60) and the operand checks that several
commands share: the capacity check (60_exceptions.md rule R302), which comes before every other operand check, and
the checks of the binary-string family (41_binary_string.md rule R120). -/

namespace Sys2Proof.Machine

/-- The operand fields a command reads (30_encoding.md rule R60). -/
def readsOf (i : Instr) : List Operand :=
  match i with
  | .add | .sub => [.A, .B]
  | .bin2dec | .bin2txt | .str2guid => [.TX]
  | .dec2bin => [.A]
  | .dec2binp | .dec2binpT => [.A, .B]
  | .bytes2bin | .f6dec | .fdec | .guid2str => [.X]
  | .encintBeU | .encintLeU | .encintBeSs | .encintLeSs | .encintBeS | .encintLeS => [.A, .B]
  | .decintBeU | .decintLeU | .decintBeSs | .decintLeSs | .decintBeS | .decintLeS => [.X]
  | .encintBeYs | .encintLeYs | .decintBeYs | .decintLeYs => []
  | .f6enc | .fbinfrac => [.V]
  | .normbp => [.TX, .B]

/-- A command that reads `X`: over capacity is `INVALID_LENGTH` before any other check (rule R302). -/
def withX (P : Params) (r : Request) (f : List Byte → Result) : Result :=
  if r.x.length > P.bytesMax then .raise .invalidLength else f r.x

/-- A command that reads `TX`: over capacity is `INVALID_LENGTH` before any other check (rule R302). -/
def withTX (P : Params) (r : Request) (f : Text → Result) : Result :=
  if r.tx.length > P.textMax then .raise .invalidLength else f r.tx

/-- A command whose `TX` must be a bit-string (41_binary_string.md rule R120, points 1 and 2). -/
def withBits (P : Params) (r : Request) (f : Text → Result) : Result :=
  withTX P r fun t => if isBits t then f t else .raise .invalidFormat

/-- A command whose `A` is a number to write in binary (41_binary_string.md rule R120, point 3). -/
def withNumber (P : Params) (r : Request) (f : Nat → Result) : Result :=
  if r.a < 0 ∨ r.a ≥ 2 ^ P.textMax then .raise .rangeError else f r.a.toNat

/-- A command whose `B` is a width in characters (41_binary_string.md rules R123, R124; 43_float.md rule R216). -/
def withWidth (P : Params) (r : Request) (f : Nat → Result) : Result :=
  if r.b < 0 ∨ r.b > (P.textMax : Int) then .raise .rangeError else f r.b.toNat

end Sys2Proof.Machine
end

