-- ==== Sys2Proof/Machine/Arith.lean ====
section
/-! DEFINITION. The bitwise adder/subtractor: ADD and SUB (40_bitwise_arith.md). -/

namespace Sys2Proof.Machine

/-- The signed `W`-bit range (40_bitwise_arith.md rule R100). -/
def inAddRange (W : Nat) (z : Int) : Bool :=
  decide (-(2 ^ (W - 1)) ≤ z) && decide (z ≤ 2 ^ (W - 1) - 1)

/-- The carry loop of 40_bitwise_arith.md rule R101, at most `fuel` iterations: AND, XOR and shift only. -/
def carryLoop {W : Nat} : Nat → BitVec W → BitVec W → BitVec W
  | 0, a, _ => a
  | fuel + 1, a, b => if b = 0#W then a else carryLoop fuel (a ^^^ b) ((a &&& b) <<< 1)

/-- `add_W(a, b)`: the carry loop, which ends within `W` iterations (40_bitwise_arith.md rule R101). -/
def addW {W : Nat} (a b : BitVec W) : BitVec W := carryLoop W a b

/-- The difference of 40_bitwise_arith.md rule R102: `add_W(a, ~b + 1)`, the `+ 1` by the carry loop too. -/
def subW {W : Nat} (a b : BitVec W) : BitVec W := addW a (addW (~~~b) 1#W)

/-- The range checks of 40_bitwise_arith.md rule R100, `A` before `B`, then the operation on the `W`-bit words, its
result read as a signed word. -/
def arithCmd (f : (W : Nat) → BitVec W → BitVec W → BitVec W) (P : Params) (r : Request) : Result :=
  if inAddRange P.addBits r.a = false then .raise .rangeError
  else if inAddRange P.addBits r.b = false then .raise .rangeError
  else .ret (.int (f P.addBits (BitVec.ofInt P.addBits r.a) (BitVec.ofInt P.addBits r.b)).toInt)

/-- ADD (40_bitwise_arith.md rule R101). -/
def execAdd (s : State) : Host.Outcome State Fault Refusal :=
  s.finish (arithCmd (fun _ => addW) s.params s.port)

/-- SUB (40_bitwise_arith.md rule R102). -/
def execSub (s : State) : Host.Outcome State Fault Refusal :=
  s.finish (arithCmd (fun _ => subW) s.params s.port)

end Sys2Proof.Machine
end

