-- ==== Sys2Proof/Machine/EndianInt.lean ====
section
/-! DEFINITION. The endian integer codec and its two's-complement decoder: ENCINT.* and DECINT.* (42_endian_int.md).
`E`, `Y`, `S` are the command word's bits. -/

namespace Sys2Proof.Machine

/-- The digit base: 128 when synchsafe, else 256 (42_endian_int.md rule R152). -/
def radix (Y : Bool) : Nat := if Y then 128 else 256

/-- The width limit in bytes: `SIGNED_MAX_BYTES` when signed, else `INT_MAX_BYTES` (rules R155, R158). -/
def widthLimit (P : Params) (S : Bool) : Nat := if S then Config.signedMaxBytes else P.intMaxBytes

/-- `enc_be(x, w, base, S)`: `w` digits, the most significant first; signed, those of the two's-complement pattern
(42_endian_int.md rule R156). -/
def encBe (x : Int) (w base : Nat) (S : Bool) : List Byte :=
  let u : Nat := (if S then x % 2 ^ (8 * w) else x).toNat
  (List.range w).map fun i => BitVec.ofNat 8 (u / base ^ (w - 1 - i) % base)

/-- The digit of a byte: under synchsafe its top bit is masked, not checked (42_endian_int.md rule R158). -/
def digitOf (Y : Bool) (b : Byte) : Nat := if Y then (b &&& 0x7F#8).toNat else b.toNat

/-- `dec_be(X, base, Y)`: the digits summed, the first the most significant (42_endian_int.md rule R158). -/
def decBe (base : Nat) (Y : Bool) : List Byte → Nat
  | [] => 0
  | b :: bs => digitOf Y b * base ^ bs.length + decBe base Y bs

/-- `tc_decode(v, n)`, the `twos_complement_decoder` stage (42_endian_int.md rule R157). -/
def tcDecode (v n : Nat) : Int :=
  if n ≥ 1 ∧ v ≥ 2 ^ (8 * n - 1) then (v : Int) - 2 ^ (8 * n) else v

/-- Byte order: little-endian is big-endian of the reversed bytes (42_endian_int.md rule R151). -/
def inOrder (E : Bool) (b : List Byte) : List Byte := if E then b.reverse else b

/-- The least width of a number: `ks` when signed, else `ku` at the digit base (rules R153, R154). -/
def leastWidth (Y S : Bool) (x : Int) : Nat := if S then ks x else ku x.toNat (radix Y)

/-- `encint(E, Y, S)`, the common body of ENCINT (42_endian_int.md section 2), its checks in the order of R159. -/
def encint (E Y S : Bool) (P : Params) (r : Request) : Result :=
  if Y = true ∧ S = true then .raise .configurationError
  else if r.b < 0 then .raise .rangeError
  else if S = false ∧ r.a < 0 then .raise .rangeError
  else
    let w := max (leastWidth Y S r.a) r.b.toNat
    if w > widthLimit P S then .raise .rangeError
    else .ret (.bytes (inOrder E (encBe r.a w (radix Y) S)))

/-- `decint(E, Y, S)`, the common body of DECINT (42_endian_int.md section 3), its checks in the order of R159. -/
def decint (E Y S : Bool) (P : Params) (r : Request) : Result :=
  if Y = true ∧ S = true then .raise .configurationError
  else withX P r fun x =>
    if x.length > widthLimit P S then .raise .invalidLength
    else
      let v := decBe (radix Y) Y (inOrder E x)
      .ret (.int (if S then tcDecode v x.length else v))

/-- ENCINT.BE.U (42_endian_int.md rule R160). -/
def execEncintBeU (s : State) : Host.Outcome State Fault Refusal :=
  s.finish (encint false false false s.params s.port)

/-- ENCINT.LE.U (42_endian_int.md rule R161). -/
def execEncintLeU (s : State) : Host.Outcome State Fault Refusal :=
  s.finish (encint true false false s.params s.port)

/-- ENCINT.BE.SS (42_endian_int.md rule R162). -/
def execEncintBeSs (s : State) : Host.Outcome State Fault Refusal :=
  s.finish (encint false true false s.params s.port)

/-- ENCINT.LE.SS (42_endian_int.md rule R163). -/
def execEncintLeSs (s : State) : Host.Outcome State Fault Refusal :=
  s.finish (encint true true false s.params s.port)

/-- ENCINT.BE.S (42_endian_int.md rule R164). -/
def execEncintBeS (s : State) : Host.Outcome State Fault Refusal :=
  s.finish (encint false false true s.params s.port)

/-- ENCINT.LE.S (42_endian_int.md rule R165). -/
def execEncintLeS (s : State) : Host.Outcome State Fault Refusal :=
  s.finish (encint true false true s.params s.port)

/-- ENCINT.BE.YS: no operand is read (42_endian_int.md rule R166). -/
def execEncintBeYs (s : State) : Host.Outcome State Fault Refusal :=
  s.finish (encint false true true s.params s.port)

/-- ENCINT.LE.YS: no operand is read (42_endian_int.md rule R167). -/
def execEncintLeYs (s : State) : Host.Outcome State Fault Refusal :=
  s.finish (encint true true true s.params s.port)

/-- DECINT.BE.U (42_endian_int.md rule R170). -/
def execDecintBeU (s : State) : Host.Outcome State Fault Refusal :=
  s.finish (decint false false false s.params s.port)

/-- DECINT.LE.U (42_endian_int.md rule R171). -/
def execDecintLeU (s : State) : Host.Outcome State Fault Refusal :=
  s.finish (decint true false false s.params s.port)

/-- DECINT.BE.SS (42_endian_int.md rule R172). -/
def execDecintBeSs (s : State) : Host.Outcome State Fault Refusal :=
  s.finish (decint false true false s.params s.port)

/-- DECINT.LE.SS (42_endian_int.md rule R173). -/
def execDecintLeSs (s : State) : Host.Outcome State Fault Refusal :=
  s.finish (decint true true false s.params s.port)

/-- DECINT.BE.S (42_endian_int.md rule R174). -/
def execDecintBeS (s : State) : Host.Outcome State Fault Refusal :=
  s.finish (decint false false true s.params s.port)

/-- DECINT.LE.S (42_endian_int.md rule R175). -/
def execDecintLeS (s : State) : Host.Outcome State Fault Refusal :=
  s.finish (decint true false true s.params s.port)

/-- DECINT.BE.YS: no operand is read (42_endian_int.md rule R176). -/
def execDecintBeYs (s : State) : Host.Outcome State Fault Refusal :=
  s.finish (decint false true true s.params s.port)

/-- DECINT.LE.YS: no operand is read (42_endian_int.md rule R177). -/
def execDecintLeYs (s : State) : Host.Outcome State Fault Refusal :=
  s.finish (decint true true true s.params s.port)

end Sys2Proof.Machine
end

