-- ==== Sys2Proof/Machine/Ieee.lean ====
section
/-! DEFINITION. The IEEE-754 binary32 and binary64 decoders: FDEC (43_float.md section 2). All arithmetic is exact
over the rationals. -/

namespace Sys2Proof.Machine

/-- `(-1)^s`. -/
def signFactor (neg : Bool) : ℚ := if neg then -1 else 1

/-- `bias = 2^(EB-1) - 1` (43_float.md rule R200). -/
def ieeeBias (EB : Nat) : Int := 2 ^ (EB - 1) - 1

/-- `fractionAsBinaryFraction`: the fraction field over `2^FB`, exact (43_float.md rule R204). -/
def binaryFraction (ff FB : Nat) : ℚ := (ff : ℚ) / 2 ^ FB

/-- `ieee_decode(u, EB, FB)`: the fields of 43_float.md rule R200 and the five cases of rule R201 in its order. A
NaN drops its sign and its fraction. -/
def ieeeDecode (u EB FB : Nat) : Val :=
  let s := u.testBit (EB + FB)
  let ef := u / 2 ^ FB % 2 ^ EB
  let ff := u % 2 ^ FB
  if ef = 2 ^ EB - 1 ∧ ff ≠ 0 then .nan
  else if ef = 2 ^ EB - 1 then .inf s
  else if ef = 0 ∧ ff = 0 then .zero s
  else if ef = 0 then .fin (signFactor s * 2 ^ (1 - ieeeBias EB) * binaryFraction ff FB)
  else .fin (signFactor s * 2 ^ ((ef : Int) - ieeeBias EB) * (1 + binaryFraction ff FB))

/-- The `ieee754_binary32_decoder` (43_float.md rule R202). -/
def binary32Decode (u : Nat) : Val := ieeeDecode u 8 23

/-- The `ieee754_binary64_decoder` (43_float.md rule R202). -/
def binary64Decode (u : Nat) : Val := ieeeDecode u 11 52

/-- `valueOf` (10_state.md rule R25): infinities and NaN have no rational value. -/
def Val.valueOf (v : Val) : Option ℚ :=
  match v with
  | .zero _ => some 0
  | .fin q => some q
  | .inf _ => none
  | .nan => none

/-- FDEC's response: exactly 4 or 8 bytes, big-endian (43_float.md rule R203). -/
def fdecCmd (P : Params) (r : Request) : Result :=
  withX P r fun x =>
    let u := decBe 256 false x
    if x.length = 4 then .ret (.val (binary32Decode u))
    else if x.length = 8 then .ret (.val (binary64Decode u))
    else .raise .invalidLength

/-- FDEC (43_float.md rule R203). -/
def execFdec (s : State) : Host.Outcome State Fault Refusal :=
  s.finish (fdecCmd s.params s.port)

end Sys2Proof.Machine
end

