-- ==== Sys2Proof/Machine/BinaryPoint.lean ====
section
/-! DEFINITION. The binary-fraction helpers: FBINFRAC and NORMBP (43_float.md section 3). -/

namespace Sys2Proof.Machine

/-- The doubling loop of 43_float.md rule R214, at most `fuel` iterations: the fraction digits emitted, and the
remainder left. -/
def fracLoop : Nat → ℚ → Text × ℚ
  | 0, f => ([], f)
  | fuel + 1, f =>
    if f = 0 then ([], f)
    else if 1 ≤ 2 * f then
      let rest := fracLoop fuel (2 * f - 1)
      (chr1 :: rest.1, rest.2)
    else
      let rest := fracLoop fuel (2 * f)
      (chr0 :: rest.1, rest.2)

/-- The integer part as text: `"0"`, or `bits_n` with `n` least (43_float.md rule R214). -/
def integerText (u : Nat) : Text := if u = 0 then [chr0] else bits (bitWidth u) u

/-- FBINFRAC's payload for magnitude `q` (43_float.md rule R214): integer part, point, fraction digits, and whether
the expansion was cut at `FRAC_CAP` digits. -/
def binfracPayload (neg : Bool) (q : ℚ) : Payload :=
  let run := fracLoop Config.fracCap (q - q.floor)
  let fp := if run.1 = [] then [chr0] else run.1
  .binfrac neg (integerText q.floor.toNat ++ [chrDot] ++ fp) (decide (run.2 ≠ 0))

/-- FBINFRAC's response (43_float.md rules R193, R214). -/
def fbinfracCmd (r : Request) : Result :=
  match (binary64Decode r.v.toNat).valueOf with
  | none => .raise .rangeError
  | some q => .ret (binfracPayload (r.v.getLsbD 63) |q|)

/-- The digits before and after the point of a binary-point string, or none outside the grammar
`bp ::= I | I '.' F` (43_float.md rule R213). -/
def splitPoint (t : Text) : Option (Text × Text) :=
  let ip := t.takeWhile isBit
  if ip = [] then none
  else
    match t.dropWhile isBit with
    | [] => some (ip, [])
    | c :: fp => if c = chrDot ∧ isBits fp = true then some (ip, fp) else none

/-- A text cut or padded on the right with `'0'` to `M` characters (43_float.md rule R216). -/
def fitMantissa (M : Nat) (tail : Text) : Text :=
  if tail.length ≥ M then tail.take M else tail ++ List.replicate (M - tail.length) chr0

/-- NORMBP's payload for digits `I`, `F` and width `M` (43_float.md rule R216). -/
def normPayload (ip fp : Text) (M : Nat) : Payload :=
  match (ip ++ fp).findIdx? (· == chr1) with
  | none => .norm true 0 (List.replicate M chr0)
  | some k => .norm false ((ip.length : Int) - 1 - k) (fitMantissa M ((ip ++ fp).drop (k + 1)))

/-- NORMBP's response: length, then format, then width (43_float.md rule R216). -/
def normbpCmd (P : Params) (r : Request) : Result :=
  withTX P r fun t =>
    match splitPoint t with
    | none => .raise .invalidFormat
    | some (ip, fp) => withWidth P r fun M => .ret (normPayload ip fp M)

/-- FBINFRAC (43_float.md rule R214). -/
def execFbinfrac (s : State) : Host.Outcome State Fault Refusal :=
  s.finish (fbinfracCmd s.port)

/-- NORMBP (43_float.md rule R216). -/
def execNormbp (s : State) : Host.Outcome State Fault Refusal :=
  s.finish (normbpCmd s.params s.port)

end Sys2Proof.Machine
end

