-- ==== Sys2Proof/Machine/BinaryString.lean ====
section
/-! DEFINITION. The binary-string converter: BIN2DEC, DEC2BIN, DEC2BINP, DEC2BINP.T, BIN2TXT, BYTES2BIN
(41_binary_string.md). -/

namespace Sys2Proof.Machine

/-- The byte groups of a number, the most significant first: `g_(k-1), …, g_0` with `g_j = (A div 256^j) mod 256`
and `g_(k-1) != 0` for a non-zero number (41_binary_string.md rule R122). -/
def byteGroups (u : Nat) : List Nat :=
  (List.range (ku u 256)).reverse.map fun j => u / 256 ^ j % 256

/-- DEC2BIN's text: `"0"` for 0; otherwise the most significant group unpadded and the others padded to 8
(41_binary_string.md rule R122). -/
def decimalText (u : Nat) : Text :=
  if u = 0 then [chr0]
  else
    match byteGroups u with
    | [] => []
    | top :: lower => bits (bitWidth top) top ++ lower.flatMap (bits 8)

/-- BIN2TXT's characters: chunks of 8 cut from the right, the leftmost chunk padded with `'0'`
(41_binary_string.md rule R125). -/
def chunkText (t : Text) : Text :=
  let k := (t.length + 7) / 8
  let s := List.replicate (8 * k - t.length) chr0 ++ t
  (List.range k).map fun j => BitVec.ofNat 8 (bitval ((s.drop (8 * j)).take 8))

/-- BYTES2BIN's text: each byte most significant bit first, `X[0]` first (41_binary_string.md rule R126). -/
def bytesText (x : List Byte) : Text := x.flatMap fun b => bits 8 b.toNat

/-- BIN2DEC's response (41_binary_string.md rule R121). -/
def bin2decCmd (P : Params) (r : Request) : Result :=
  withBits P r fun t => .ret (.int (bitval t))

/-- DEC2BIN's response (41_binary_string.md rule R122). -/
def dec2binCmd (P : Params) (r : Request) : Result :=
  withNumber P r fun u => .ret (.text (decimalText u))

/-- DEC2BINP's response: the fit is judged by value (41_binary_string.md rule R123). -/
def dec2binpCmd (P : Params) (r : Request) : Result :=
  withNumber P r fun u => withWidth P r fun w =>
    if u ≥ 2 ^ w then .raise .rangeError else .ret (.text (bits w u))

/-- DEC2BINP.T's response: the low `B` bits (41_binary_string.md rule R124). -/
def dec2binpTCmd (P : Params) (r : Request) : Result :=
  withNumber P r fun u => withWidth P r fun w => .ret (.text (bits w (u % 2 ^ w)))

/-- BIN2TXT's response (41_binary_string.md rule R125). -/
def bin2txtCmd (P : Params) (r : Request) : Result :=
  withBits P r fun t => .ret (.text (chunkText t))

/-- BYTES2BIN's response (41_binary_string.md rule R126). -/
def bytes2binCmd (P : Params) (r : Request) : Result :=
  withX P r fun x =>
    if 8 * x.length > P.textMax then .raise .invalidLength else .ret (.text (bytesText x))

/-- BIN2DEC (41_binary_string.md rule R121). -/
def execBin2dec (s : State) : Host.Outcome State Fault Refusal :=
  s.finish (bin2decCmd s.params s.port)

/-- DEC2BIN (41_binary_string.md rule R122). -/
def execDec2bin (s : State) : Host.Outcome State Fault Refusal :=
  s.finish (dec2binCmd s.params s.port)

/-- DEC2BINP (41_binary_string.md rule R123). -/
def execDec2binp (s : State) : Host.Outcome State Fault Refusal :=
  s.finish (dec2binpCmd s.params s.port)

/-- DEC2BINP.T (41_binary_string.md rule R124). -/
def execDec2binpT (s : State) : Host.Outcome State Fault Refusal :=
  s.finish (dec2binpTCmd s.params s.port)

/-- BIN2TXT (41_binary_string.md rule R125). -/
def execBin2txt (s : State) : Host.Outcome State Fault Refusal :=
  s.finish (bin2txtCmd s.params s.port)

/-- BYTES2BIN (41_binary_string.md rule R126). -/
def execBytes2bin (s : State) : Host.Outcome State Fault Refusal :=
  s.finish (bytes2binCmd s.params s.port)

end Sys2Proof.Machine
end

