-- ==== Sys2Proof/Machine/Float6.lean ====
section
/-! DEFINITION. The proprietary 6-byte float: F6ENC and F6DEC (43_float.md section 1). All arithmetic is exact over
the rationals. -/

namespace Sys2Proof.Machine

/-- `K = 2^31 - 1` (43_float.md rule R190). -/
def f6K : Nat := 2147483647

/-- `EMIN` (43_float.md rule R192). -/
def f6Emin (c : F6ExpCoding) : Int :=
  match c with
  | .signMagnitude => -16383
  | .twosComplement => -16384

/-- `EMAX` (43_float.md rule R192). -/
def f6Emax : Int := 16383

/-- `clamp(e)` (43_float.md rule R192). -/
def f6Clamp (c : F6ExpCoding) (e : Int) : Int := min (max e (f6Emin c)) f6Emax

/-- `expfield(e)`, the 15-bit exponent field of an exponent (43_float.md rule R192). -/
def f6ExpField (c : F6ExpCoding) (e : Int) : Nat :=
  match c with
  | .signMagnitude => if 0 ≤ e then e.toNat else 0x4000 + (-e).toNat
  | .twosComplement => (e % 2 ^ 15).toNat

/-- `expval(EF)`, the exponent of a 15-bit exponent field (43_float.md rule R192). -/
def f6ExpVal (c : F6ExpCoding) (ef : Nat) : Int :=
  match c with
  | .signMagnitude => if ef.testBit 14 then -((ef % 2 ^ 14 : Nat) : Int) else ((ef % 2 ^ 14 : Nat) : Int)
  | .twosComplement => if ef.testBit 14 then (ef : Int) - 2 ^ 15 else ef

/-- `f6pack(sgn, e, frac)`: both words little-byte-first, bit 31 of the second 0 (43_float.md rules R191, R194). -/
def f6Pack (c : F6ExpCoding) (sgn : Bool) (e : Int) (frac : Nat) : List Byte :=
  let w16 := (if sgn then 2 ^ 15 else 0) + f6ExpField c e
  [BitVec.ofNat 8 (w16 % 256), BitVec.ofNat 8 (w16 / 256),
    BitVec.ofNat 8 (frac % 256), BitVec.ofNat 8 (frac / 2 ^ 8 % 256),
    BitVec.ofNat 8 (frac / 2 ^ 16 % 256), BitVec.ofNat 8 (frac / 2 ^ 24)]

/-- The greatest integer `k` with `10^k <= q`, for `q > 0`, computed exactly (43_float.md rule R194): the decimal
length less one from 1 up, and below 1 the least power of ten that lifts `q` to 1. -/
def floorLog10 (q : ℚ) : Int :=
  if 1 ≤ q then (ku q.floor.toNat 10 : Int) - 1
  else -(leastFrom (fun j => decide (1 ≤ q * 10 ^ j)) (q.den.log2 + 1) 1 : Int)

/-- The fraction field for magnitude `q` at exponent `e`: `min(floor(q / 10^e * K), K)` (43_float.md rule R194). -/
def f6Frac (q : ℚ) (e : Int) : Nat := min (q / 10 ^ e * f6K).floor.toNat f6K

/-- F6ENC's response (43_float.md rules R193, R194). -/
def f6encCmd (P : Params) (r : Request) : Result :=
  let sgn := r.v.getLsbD 63
  match binary64Decode r.v.toNat with
  | .nan => .raise .rangeError
  | .inf _ => .raise .rangeError
  | .zero _ => .ret (.bytes (f6Pack P.f6ExpCoding sgn 0 0))
  | .fin q0 =>
    let q := |q0|
    let e := f6Clamp P.f6ExpCoding (floorLog10 q + 1)
    .ret (.bytes (f6Pack P.f6ExpCoding sgn e (f6Frac q e)))

/-- `w16` of a 6-byte float: bytes 0 and 1 (43_float.md rule R191). -/
def f6Word16 (x : List Byte) : Nat := (x.getD 0 0#8).toNat + 256 * (x.getD 1 0#8).toNat

/-- `w32` of a 6-byte float: bytes 2 to 5 (43_float.md rule R191). -/
def f6Word32 (x : List Byte) : Nat :=
  (x.getD 2 0#8).toNat + 2 ^ 8 * (x.getD 3 0#8).toNat + 2 ^ 16 * (x.getD 4 0#8).toNat
    + 2 ^ 24 * (x.getD 5 0#8).toNat

/-- The fraction read from `w32`: bit 31 ignored or included, as the build says (43_float.md rule R195). -/
def f6FracOf (m : F6FracBit31) (w32 : Nat) : Nat :=
  match m with
  | .ignored => w32 % 2 ^ 31
  | .included => w32

/-- F6DEC's response (43_float.md rule R195). -/
def f6decCmd (P : Params) (r : Request) : Result :=
  withX P r fun x =>
    if x.length ≠ 6 then .raise .invalidLength
    else
      let sgn := (f6Word16 x).testBit 15
      let e := f6ExpVal P.f6ExpCoding (f6Word16 x % 2 ^ 15)
      let frac := f6FracOf P.f6FracBit31 (f6Word32 x)
      if frac = 0 then .ret (.val (.zero sgn))
      else .ret (.val (.fin (signFactor sgn * 10 ^ e * frac / f6K)))

/-- F6ENC (43_float.md rule R194). -/
def execF6enc (s : State) : Host.Outcome State Fault Refusal :=
  s.finish (f6encCmd s.params s.port)

/-- F6DEC (43_float.md rule R195). -/
def execF6dec (s : State) : Host.Outcome State Fault Refusal :=
  s.finish (f6decCmd s.params s.port)

end Sys2Proof.Machine
end

