-- ==== Sys2Proof/Machine/Guid.lean ====
section
/-! DEFINITION. The GUID mixed-endian reorder: GUID2STR and STR2GUID (44_guid.md). -/

namespace Sys2Proof.Machine

/-- The table `P` of 44_guid.md rule R240: the byte that hex-digit pair `j` holds. -/
def guidByteTable : List Nat := [3, 2, 1, 0, 5, 4, 7, 6, 8, 9, 10, 11, 12, 13, 14, 15]

/-- `P[j]` (44_guid.md rule R240). -/
def guidByte (j : Nat) : Nat := guidByteTable.getD j 0

/-- `off(j)`, the character index of pair `j` (44_guid.md rule R240). -/
def guidOff (j : Nat) : Nat :=
  2 * j + (if j ≥ 4 then 1 else 0) + (if j ≥ 6 then 1 else 0) + (if j ≥ 8 then 1 else 0)
    + (if j ≥ 10 then 1 else 0)

/-- The character indices of the hyphens (44_guid.md rule R240). -/
def guidHyphens : List Nat := [8, 13, 18, 23]

/-- `hexU(n)`: uppercase (44_guid.md rule R241). -/
def hexU (n : Nat) : Byte :=
  if n < 10 then BitVec.ofNat 8 (0x30 + n) else BitVec.ofNat 8 (0x41 + (n - 10))

/-- A hex digit of either case (44_guid.md rule R242). -/
def isHex (c : Byte) : Bool :=
  (0x30#8 ≤ c && c ≤ 0x39#8) || (0x41#8 ≤ c && c ≤ 0x46#8) || (0x61#8 ≤ c && c ≤ 0x66#8)

/-- `hexval` (44_guid.md rule R242); 0 for a character that is no hex digit, which STR2GUID never converts. -/
def hexVal (c : Byte) : Nat :=
  if 0x30#8 ≤ c && c ≤ 0x39#8 then c.toNat - 0x30
  else if 0x41#8 ≤ c && c ≤ 0x46#8 then c.toNat - 0x41 + 10
  else if 0x61#8 ≤ c && c ≤ 0x66#8 then c.toNat - 0x61 + 10
  else 0

/-- 36 characters, `'-'` at the hyphen indices (44_guid.md rule R241). -/
def guidFrame : Text := (List.range 36).map fun i => if i ∈ guidHyphens then chrDash else chr0

/-- GUID2STR's text (44_guid.md rule R241): the digits of pair `j` written at `off(j)` and `off(j) + 1`. -/
def guidText (x : List Byte) : Text :=
  (List.range 16).foldl
    (fun t j =>
      let n := (x.getD (guidByte j) 0#8).toNat
      (t.set (guidOff j) (hexU (n / 16))).set (guidOff j + 1) (hexU (n % 16)))
    guidFrame

/-- STR2GUID's bytes (44_guid.md rule R242): byte `P[j]` read from pair `j`. -/
def guidBytes (t : Text) : List Byte :=
  (List.range 16).foldl
    (fun x j =>
      x.set (guidByte j)
        (BitVec.ofNat 8 (16 * hexVal (t.getD (guidOff j) 0#8) + hexVal (t.getD (guidOff j + 1) 0#8))))
    (List.replicate 16 0#8)

/-- The hyphens stand at indices 8, 13, 18, 23 (44_guid.md rule R242). -/
def guidHyphensOk (t : Text) : Bool := guidHyphens.all fun i => t.getD i 0#8 == chrDash

/-- Every other character is a hex digit (44_guid.md rule R242). -/
def guidDigitsOk (t : Text) : Bool :=
  (List.range 36).all fun i => guidHyphens.contains i || isHex (t.getD i 0#8)

/-- GUID2STR's response (44_guid.md rule R241). -/
def guid2strCmd (P : Params) (r : Request) : Result :=
  withX P r fun x => if x.length ≠ 16 then .raise .invalidLength else .ret (.text (guidText x))

/-- STR2GUID's response: length, hyphens, hex digits, in that order (44_guid.md rule R242). -/
def str2guidCmd (P : Params) (r : Request) : Result :=
  withTX P r fun t =>
    if t.length ≠ 36 then .raise .invalidFormat
    else if guidHyphensOk t = false then .raise .invalidFormat
    else if guidDigitsOk t = false then .raise .invalidFormat
    else .ret (.bytes (guidBytes t))

/-- GUID2STR (44_guid.md rule R241). -/
def execGuid2str (s : State) : Host.Outcome State Fault Refusal :=
  s.finish (guid2strCmd s.params s.port)

/-- STR2GUID (44_guid.md rule R242). -/
def execStr2guid (s : State) : Host.Outcome State Fault Refusal :=
  s.finish (str2guidCmd s.params s.port)

end Sys2Proof.Machine
end

