-- ==== Sys2Proof/Machine/Dispatch.lean ====
section
/-! DEFINITION. The dispatch: one arm per command of 30_encoding.md rule R57, each a direct call of its meaning. -/

namespace Sys2Proof.Machine

def exec (i : Instr) (s : State) : Host.Outcome State Fault Refusal :=
  match i with
  | .add => Sys2Proof.Machine.execAdd s
  | .sub => Sys2Proof.Machine.execSub s
  | .bin2dec => Sys2Proof.Machine.execBin2dec s
  | .dec2bin => Sys2Proof.Machine.execDec2bin s
  | .dec2binp => Sys2Proof.Machine.execDec2binp s
  | .dec2binpT => Sys2Proof.Machine.execDec2binpT s
  | .bin2txt => Sys2Proof.Machine.execBin2txt s
  | .bytes2bin => Sys2Proof.Machine.execBytes2bin s
  | .encintBeU => Sys2Proof.Machine.execEncintBeU s
  | .encintLeU => Sys2Proof.Machine.execEncintLeU s
  | .encintBeSs => Sys2Proof.Machine.execEncintBeSs s
  | .encintLeSs => Sys2Proof.Machine.execEncintLeSs s
  | .encintBeS => Sys2Proof.Machine.execEncintBeS s
  | .encintLeS => Sys2Proof.Machine.execEncintLeS s
  | .encintBeYs => Sys2Proof.Machine.execEncintBeYs s
  | .encintLeYs => Sys2Proof.Machine.execEncintLeYs s
  | .decintBeU => Sys2Proof.Machine.execDecintBeU s
  | .decintLeU => Sys2Proof.Machine.execDecintLeU s
  | .decintBeSs => Sys2Proof.Machine.execDecintBeSs s
  | .decintLeSs => Sys2Proof.Machine.execDecintLeSs s
  | .decintBeS => Sys2Proof.Machine.execDecintBeS s
  | .decintLeS => Sys2Proof.Machine.execDecintLeS s
  | .decintBeYs => Sys2Proof.Machine.execDecintBeYs s
  | .decintLeYs => Sys2Proof.Machine.execDecintLeYs s
  | .f6enc => Sys2Proof.Machine.execF6enc s
  | .f6dec => Sys2Proof.Machine.execF6dec s
  | .fdec => Sys2Proof.Machine.execFdec s
  | .fbinfrac => Sys2Proof.Machine.execFbinfrac s
  | .normbp => Sys2Proof.Machine.execNormbp s
  | .guid2str => Sys2Proof.Machine.execGuid2str s
  | .str2guid => Sys2Proof.Machine.execStr2guid s

end Sys2Proof.Machine
end

