-- ==== Sys2Proof/Machine/Step.lean ====
section
/-! DEFINITION. One step of the block: what its next host action makes it do. -/

namespace Sys2Proof.Machine

/-- The request on the port is performed: decoded, then the command it names, or `ILLEGAL_COMMAND`
(30_encoding.md rule R58, 60_exceptions.md rule R303). -/
def perform (s : State) : Host.Outcome State Fault Refusal :=
  match decode s.port.cmd with
  | .ok i => exec i s
  | .error _ => .next s.rejectCommand

/-- One step. A request the host presents is taken and performed whole (10_state.md rules R19, R27); a reset puts the
latch in its reset state and abandons the request it falls into (70_reset_and_hazards.md rules R330, R331); with
nothing presented the block is idle and keeps `RSP` (60_exceptions.md rule R310). -/
def step (s : State) : Host.Outcome State Fault Refusal :=
  match s.host with
  | [] => .next s
  | .reset _ :: rest => .next (s.takeReset rest)
  | .present r :: rest => perform (s.acceptRequest r rest)

/-- `s` with the request of that command word, its operands 0 or empty, as the host's very next action: the block
fetches nothing, so this is where its next instruction comes from (10_state.md rule R21). -/
def State.withFetchWord (s : State) (nbits w : Nat) : State := s.presentNext (requestOfWord nbits w)

end Sys2Proof.Machine
end

