-- ==== Sys2Proof/Safety.lean ====
section
/-! DEFINITION. What counts as a safe state, and the words the statements use: the spec's own formulas, written
apart from the model's definitions (00_scope.md rules R7, R10; 44_guid.md rule R240), and states that differ in an
operand of the request. -/

namespace Sys2Proof.Machine

/-! ### Responses and requests, as the statements name them -/

/-- `s` with the response latch holding a completed command's response (10_state.md rule R27): nothing else of
`s` changes. -/
def answered (s : State) (c : Status) (p : Payload) : State :=
  { params := s.params,
    rsp := { valid := true, op := s.port.cmd.extractLsb' 0 6, code := c, payload := p },
    port := s.port,
    host := s.host }

/-- `s` with the integer operands `A` and `B` on the port. -/
def State.onAB (s : State) (a b : Int) : State := { s with port := { s.port with a := a, b := b } }

/-- `s` with the byte operand `X` on the port. -/
def State.onX (s : State) (x : List Byte) : State := { s with port := { s.port with x := x } }

/-- `s` with the text operand `TX` on the port. -/
def State.onTX (s : State) (t : Text) : State := { s with port := { s.port with tx := t } }

/-- Two requests give a command that reads the operands `ops` the same operands (30_encoding.md rule R60). -/
def agreeOn (ops : List Operand) (r r' : Request) : Prop :=
  (Operand.A ∈ ops → r.a = r'.a) ∧ (Operand.B ∈ ops → r.b = r'.b) ∧ (Operand.V ∈ ops → r.v = r'.v) ∧
    (Operand.X ∈ ops → r.x = r'.x) ∧ (Operand.TX ∈ ops → r.tx = r'.tx)

/-- The four conditions of 30_encoding.md rule R58 that make a command word illegal: a set `RSV` bit, an unassigned
`OP`, an endian modifier on another command, `T` on another command than DEC2BINP. -/
def IsIllegalWord (w : CmdWord) : Prop :=
  w.extractLsb' 10 6 ≠ 0#6 ∨ ((w.extractLsb' 0 6).toNat = 0x00 ∨ 0x11 ≤ (w.extractLsb' 0 6).toNat) ∨
    (((w.extractLsb' 0 6).toNat ≠ 0x08 ∧ (w.extractLsb' 0 6).toNat ≠ 0x09) ∧
      (w.getLsbD 6 = true ∨ w.getLsbD 7 = true ∨ w.getLsbD 8 = true)) ∨
    ((w.extractLsb' 0 6).toNat ≠ 0x05 ∧ w.getLsbD 9 = true)

/-! ### Numbers -/

/-- `wrap_W(z)` (00_scope.md rule R7), for `W >= 1`. -/
def wrapInt (W : Nat) (z : Int) : Int :=
  if z % 2 ^ W < 2 ^ (W - 1) then z % 2 ^ W else z % 2 ^ W - 2 ^ W

/-- The sum of the digits, the first the most significant (42_endian_int.md rule R158). -/
def digitSum (base : Nat) (d : List Nat) : Nat :=
  ∑ i ∈ Finset.range d.length, d.getD i 0 * base ^ (d.length - 1 - i)

/-- The unsigned big-endian value of a byte sequence. -/
def byteSum (b : List Byte) : Nat := digitSum 256 (b.map BitVec.toNat)

/-- The two's-complement value of a byte sequence, big-endian (42_endian_int.md rule R157); 0 for none. -/
def signedSum (b : List Byte) : Int :=
  if b ≠ [] ∧ 2 ^ (8 * b.length - 1) ≤ byteSum b then (byteSum b : Int) - 2 ^ (8 * b.length) else byteSum b

/-- A bit-string: every character `'0'` or `'1'` (00_scope.md rules R9, R10). -/
def IsBitString (t : Text) : Prop := ∀ c ∈ t, c = 0x30#8 ∨ c = 0x31#8

/-- `bitval(s)` as the sum of 00_scope.md rule R10. -/
def bitSum (t : Text) : Nat :=
  ∑ i ∈ Finset.range t.length, (if t.getD i 0#8 = 0x31#8 then 1 else 0) * 2 ^ (t.length - 1 - i)

/-- `d` are the digits of `x` to the base, the most significant first, no more of them than `x` and the least
width asked for need (42_endian_int.md rules R153, R155, R156). -/
def IsDigitsOf (base : Nat) (d : List Byte) (x minBytes : Int) : Prop :=
  (digitSum base (d.map BitVec.toNat) : Int) = x ∧ (∀ b ∈ d, b.toNat < base) ∧ 1 ≤ d.length ∧
    minBytes ≤ d.length ∧ (1 < d.length → minBytes < d.length → d.getD 0 0#8 ≠ 0#8)

/-- `x` is in the signed range of `n` bytes (42_endian_int.md rule R150), for `n >= 1`. -/
def InSignedBytes (n : Nat) (x : Int) : Prop := -2 ^ (8 * n - 1) ≤ x ∧ x ≤ 2 ^ (8 * n - 1) - 1

/-- `t` is the binary-point string with the digits `ip` before the point and `fp` after it
(43_float.md rule R213). -/
def IsBinaryPoint (t ip fp : Text) : Prop :=
  ip ≠ [] ∧ IsBitString ip ∧ IsBitString fp ∧ ((t = ip ∧ fp = []) ∨ t = ip ++ 0x2E#8 :: fp)

/-- `bpval` of the digits `ip` before and `fp` after the point (43_float.md rule R213). -/
def pointValue (ip fp : Text) : ℚ := bitSum ip + (bitSum fp : ℚ) / 2 ^ fp.length

/-- `(-1)^s` of a sign bit. -/
def signValue (neg : Bool) : ℚ := if neg then -1 else 1

/-- The exponent field of a binary32 pattern (43_float.md rule R200). -/
def expField32 (u : BitVec 32) : Nat := (u.extractLsb' 23 8).toNat

/-- The fraction field of a binary32 pattern (43_float.md rule R200). -/
def fracField32 (u : BitVec 32) : Nat := (u.extractLsb' 0 23).toNat

/-- The four bytes of a binary32 pattern, big-endian (43_float.md rule R200). -/
def bytesOf32 (u : BitVec 32) : List Byte :=
  [u.extractLsb' 24 8, u.extractLsb' 16 8, u.extractLsb' 8 8, u.extractLsb' 0 8]

/-- The eight bytes of a binary64 pattern, big-endian (43_float.md rule R200). -/
def bytesOf64 (v : Word64) : List Byte :=
  [v.extractLsb' 56 8, v.extractLsb' 48 8, v.extractLsb' 40 8, v.extractLsb' 32 8,
    v.extractLsb' 24 8, v.extractLsb' 16 8, v.extractLsb' 8 8, v.extractLsb' 0 8]

/-- The exponent field of a binary64 pattern (43_float.md rule R200). -/
def expField64 (v : Word64) : Nat := (v.extractLsb' 52 11).toNat

/-- The fraction field of a binary64 pattern (43_float.md rule R200). -/
def fracField64 (v : Word64) : Nat := (v.extractLsb' 0 52).toNat

/-- The magnitude of a finite binary64 pattern (43_float.md rule R202). -/
def magnitude64 (v : Word64) : ℚ :=
  if expField64 v = 0 then fracField64 v * 2 ^ (-1074 : Int)
  else (2 ^ 52 + fracField64 v) * 2 ^ ((expField64 v : Int) - 1075)

/-- The field that holds the exponent `e` (43_float.md rule R192's `expfield`). -/
def expFieldSpec (c : F6ExpCoding) (e : Int) : Int :=
  match c with
  | .signMagnitude => if 0 ≤ e then e else 0x4000 - e
  | .twosComplement => e % 2 ^ 15

/-- The exponent of a 15-bit field (43_float.md rule R192's `expval`). -/
def expValSpec (c : F6ExpCoding) (ef : Nat) : Int :=
  match c with
  | .signMagnitude => if ef < 2 ^ 14 then ef else -((ef : Int) - 2 ^ 14)
  | .twosComplement => if ef < 2 ^ 14 then ef else (ef : Int) - 2 ^ 15

/-- The exponent of the 6-byte float whose first two bytes are `b0`, `b1` (43_float.md rules R191, R192). -/
def float6Exponent (P : Params) (b0 b1 : Byte) : Int :=
  expValSpec P.f6ExpCoding ((b0.toNat + 256 * b1.toNat) % 2 ^ 15)

/-- The fraction word of a 6-byte float, little-byte-first (43_float.md rule R191). -/
def float6Word (b2 b3 b4 b5 : Byte) : Nat :=
  b2.toNat + 2 ^ 8 * b3.toNat + 2 ^ 16 * b4.toNat + 2 ^ 24 * b5.toNat

/-- The fraction of a 6-byte float: bit 31 dropped or kept, as the build says (43_float.md rule R195). -/
def float6Fraction (P : Params) (b2 b3 b4 b5 : Byte) : Nat :=
  if P.f6FracBit31 = .ignored then float6Word b2 b3 b4 b5 % 2 ^ 31 else float6Word b2 b3 b4 b5

/-! ### GUID text (44_guid.md rule R240) -/

/-- The row `byte P[j]` of rule R240's table. -/
def pairByte : List Nat := [3, 2, 1, 0, 5, 4, 7, 6, 8, 9, 10, 11, 12, 13, 14, 15]

/-- The row `off(j)` of rule R240's table. -/
def pairOffset : List Nat := [0, 2, 4, 6, 9, 11, 14, 16, 19, 21, 24, 26, 28, 30, 32, 34]

/-- The uppercase hex digit of `n < 16` (44_guid.md rule R241). -/
def upperHex (n : Nat) : Byte := BitVec.ofNat 8 (if n < 10 then n + 0x30 else n + 0x37)

/-- The value of a hex digit of either case (44_guid.md rule R242). -/
def hexDigitValue (c : Byte) : Option Nat :=
  if 0x30 ≤ c.toNat ∧ c.toNat ≤ 0x39 then some (c.toNat - 0x30)
  else if 0x41 ≤ c.toNat ∧ c.toNat ≤ 0x46 then some (c.toNat - 0x37)
  else if 0x61 ≤ c.toNat ∧ c.toNat ≤ 0x66 then some (c.toNat - 0x57)
  else none

/-- A letter `'a'..'f'` replaced by `'A'..'F'` (44_guid.md rule R243). -/
def upcase (c : Byte) : Byte := if 0x61#8 ≤ c ∧ c ≤ 0x66#8 then c - 0x20#8 else c

/-- A text STR2GUID accepts: 36 characters, hyphens and hex digits where they belong (44_guid.md rule R242). -/
def IsGuidText (t : Text) : Prop :=
  t.length = 36 ∧ (∀ i ∈ [8, 13, 18, 23], t.getD i 0#8 = 0x2D#8) ∧
    ∀ i < 36, i ∉ [8, 13, 18, 23] → (hexDigitValue (t.getD i 0#8)).isSome = true

/-! ### Safe states -/

/-- `t` is `I '.' F` with at least one digit on each side (43_float.md rules R213, R214). -/
def binfracShape (t : Text) : Bool :=
  match splitPoint t with
  | none => false
  | some (ip, fp) => t == ip ++ [chrDot] ++ fp && fp != []

/-- The payload kind of a success is fixed by `OP` (10_state.md rule R26), and its contents keep the bounds of the
command's rule: the adder's range, bit-strings, `TEXT_MAX`, `BYTES_MAX`, a `FIN` that is not 0 (rule R25). -/
def responseShape (P : Params) (op : Opcode) (p : Payload) : Bool :=
  match op.toNat, p with
  | 0x01, .int z => inAddRange P.addBits z
  | 0x02, .int z => inAddRange P.addBits z
  | 0x03, .int z => decide (0 ≤ z)
  | 0x04, .text t => isBits t && decide (1 ≤ t.length) && decide (t.length ≤ P.textMax)
  | 0x05, .text t => isBits t && decide (t.length ≤ P.textMax)
  | 0x06, .text t => decide (t.length ≤ P.textMax)
  | 0x07, .text t => isBits t && decide (t.length % 8 = 0) && decide (t.length ≤ P.textMax)
  | 0x08, .bytes b => decide (1 ≤ b.length) && decide (b.length ≤ P.bytesMax)
  | 0x09, .int _ => true
  | 0x0A, .bytes b => decide (b.length = 6) && !(b.getD 5 0#8).msb
  | 0x0B, .val (.zero _) => true
  | 0x0B, .val (.fin q) => decide (q ≠ 0)
  | 0x0C, .val (.fin q) => decide (q ≠ 0)
  | 0x0C, .val _ => true
  | 0x0D, .binfrac _ t _ => binfracShape t && decide (t.length ≤ P.textMax)
  | 0x0E, .norm zero e m =>
    isBits m && decide (m.length ≤ P.textMax) && (!zero || (decide (e = 0) && m.all (· == chr0)))
  | 0x0F, .text t => decide (t.length = 36) && guidHyphensOk t && guidDigitsOk t && t.all (fun c => upcase c == c)
  | 0x10, .bytes b => decide (b.length = 16)
  | _, _ => false

/-- The latch is one a host may read: the reset latch before the first response (10_state.md rule R28); afterwards
either an error with payload `NONE`, or a success whose payload has its command's shape, reported `SPECIAL`
exactly for an infinity or a NaN (10_state.md rules R26, R27; 60_exceptions.md rule R301). -/
def latchSafe (P : Params) (l : Latch) : Bool :=
  if l.valid = false then decide (l = Latch.reset)
  else if l.code.isError then decide (l.payload = Payload.none)
  else responseShape P l.op l.payload && decide ((l.code = Status.special) ↔ l.payload.isSpecial = true)

/-- A safe state: parameters a block may be built with, and a latch a host may read. -/
def State.safe (s : State) : Bool := s.params.wf && latchSafe s.params s.rsp

end Sys2Proof.Machine
end

