-- ==== Sys2Proof/Certificates/Slice0/Obligations.lean ====
section
/-! DEFINITION. The statements for the provers. `answered s c p` is `s` with only the response latch changed, so an
equation `exec i s = .next (answered s c p)` says the result, the frame and that the command completes. -/

open Sys2Proof Sys2Proof.Machine

/-! ### Encoding -/

/-- The 31 command words of 30_encoding.md rule R57. -/
def Obligations.CommandWordsOfTable : Prop :=
  encode .add = 0x0001#16 ∧ encode .sub = 0x0002#16 ∧ encode .bin2dec = 0x0003#16 ∧
  encode .dec2bin = 0x0004#16 ∧ encode .dec2binp = 0x0005#16 ∧ encode .dec2binpT = 0x0205#16 ∧
  encode .bin2txt = 0x0006#16 ∧ encode .bytes2bin = 0x0007#16 ∧
  encode .encintBeU = 0x0008#16 ∧ encode .encintLeU = 0x0048#16 ∧ encode .encintBeSs = 0x0088#16 ∧
  encode .encintLeSs = 0x00C8#16 ∧ encode .encintBeS = 0x0108#16 ∧ encode .encintLeS = 0x0148#16 ∧
  encode .encintBeYs = 0x0188#16 ∧ encode .encintLeYs = 0x01C8#16 ∧
  encode .decintBeU = 0x0009#16 ∧ encode .decintLeU = 0x0049#16 ∧ encode .decintBeSs = 0x0089#16 ∧
  encode .decintLeSs = 0x00C9#16 ∧ encode .decintBeS = 0x0109#16 ∧ encode .decintLeS = 0x0149#16 ∧
  encode .decintBeYs = 0x0189#16 ∧ encode .decintLeYs = 0x01C9#16 ∧
  encode .f6enc = 0x000A#16 ∧ encode .f6dec = 0x000B#16 ∧ encode .fdec = 0x000C#16 ∧
  encode .fbinfrac = 0x000D#16 ∧ encode .normbp = 0x000E#16 ∧ encode .guid2str = 0x000F#16 ∧
  encode .str2guid = 0x0010#16

/-- A few command words written out from 30_encoding.md rule R57 decode to the command they stand for. -/
def Obligations.WrittenWordsDecode : Prop :=
  decode 0x0001#16 = .ok .add ∧ decode 0x0205#16 = .ok .dec2binpT ∧ decode 0x0148#16 = .ok .encintLeS ∧
  decode 0x0089#16 = .ok .decintBeSs ∧ decode 0x000C#16 = .ok .fdec ∧ decode 0x0010#16 = .ok .str2guid

/-- On all 65536 words and all commands: a word decodes to a command exactly when it is that command's word. -/
def Obligations.DecodeAndEncodeAgree : Prop :=
  ∀ (w : CmdWord) (i : Instr), i.wf = true → (decode w = .ok i ↔ encode i = w)

/-- 30_encoding.md rule R58: its four conditions say exactly which words are illegal, every such word is no word of
rule R57, and presenting one gives `ILLEGAL_COMMAND` whatever the operands. -/
def Obligations.IllegalWordsAreReported : Prop :=
  ∀ (s : State) (r : Request) (rest : List HostEvent), s.host = .present r :: rest →
    (IsIllegalWord r.cmd →
      step s = .next (answered { s with port := r, host := rest } .illegalCommand .none)) ∧
    (IsIllegalWord r.cmd ↔ ∀ i : Instr, encode i ≠ r.cmd)

/-- 30_encoding.md rule R59: the four `.YS` words are legal, and give `CONFIGURATION_ERROR` whatever the operands. -/
def Obligations.SignedSynchsafeIsConfigurationError : Prop :=
  ∀ s : State,
    (decode 0x0188#16 = .ok .encintBeYs ∧ exec .encintBeYs s = .next (answered s .configurationError .none)) ∧
    (decode 0x01C8#16 = .ok .encintLeYs ∧ exec .encintLeYs s = .next (answered s .configurationError .none)) ∧
    (decode 0x0189#16 = .ok .decintBeYs ∧ exec .decintBeYs s = .next (answered s .configurationError .none)) ∧
    (decode 0x01C9#16 = .ok .decintLeYs ∧ exec .decintLeYs s = .next (answered s .configurationError .none))

/-! ### The machine -/

/-- When the word the host presents decodes to a well-formed command, the step is that command, performed with the
request on the port and the host's action used up. -/
def Obligations.StepRunsDecodedCommand : Prop :=
  ∀ (s : State) (r : Request) (rest : List HostEvent) (i : Instr),
    s.host = .present r :: rest → decode r.cmd = .ok i → i.wf = true →
      step s = exec i { s with port := r, host := rest }

/-- 10_state.md rule R27: a request ends with one write of the whole latch: `VALID` 1, `OP` the word's low six bits,
and either an error with `NONE`, or `OK` or `SPECIAL` with a payload. -/
def Obligations.RequestEndsInOneLatchWrite : Prop :=
  ∀ (s : State) (r : Request) (rest : List HostEvent), s.host = .present r :: rest →
    ∃ (c : Status) (p : Payload),
      step s = .next { params := s.params, rsp := ⟨true, r.cmd.extractLsb' 0 6, c, p⟩, port := r, host := rest } ∧
      ((c = .ok ∨ c = .special) ∧ p ≠ .none ∨
        (c = .invalidLength ∨ c = .invalidFormat ∨ c = .rangeError ∨ c = .configurationError ∨
          c = .illegalCommand) ∧ p = .none)

/-- Every step answers a next state, uses up one host action if there is one, and leaves the build's parameters alone.
That a block with no host action left has a step at all, the idle one, is the model's choice
(notes/assumptions/3.md); the spec says that a request always completes and that the unit never acts without one
(10_state.md section 1). -/
def Obligations.EveryStepCompletes : Prop :=
  ∀ s : State, ∃ t : State, step s = .next t ∧ t.params = s.params ∧ t.host = s.host.tail

/-- The frame of all 31 commands: only the response latch changes. -/
def Obligations.CommandsChangeOnlyTheLatch : Prop :=
  ∀ (i : Instr) (s : State), ∃ (c : Status) (p : Payload), exec i s = .next (answered s c p)

/-- 10_state.md section 3: a command's response does not depend on the operands it does not read. -/
def Obligations.UnreadOperandsNeverMatter : Prop :=
  ∀ (i : Instr) (s : State) (r : Request), r.cmd = s.port.cmd → agreeOn (readsOf i) s.port r →
    ∃ (c : Status) (p : Payload),
      exec i s = .next (answered s c p) ∧
      exec i { s with port := r } = .next (answered { s with port := r } c p)

/-- 10_state.md rule R23's second sentence: the response depends only on the request and the parameters, never on
what came before. -/
def Obligations.ResponseDependsOnRequestOnly : Prop :=
  ∀ (s s' : State) (r : Request) (rest rest' : List HostEvent),
    s.params = s'.params → s.host = .present r :: rest → s'.host = .present r :: rest' →
      ∃ t t' : State, step s = .next t ∧ step s' = .next t' ∧ t.rsp = t'.rsp

/-- 20_memory.md section 4: of two requests in the host's order, the latch holds the response of the second, the
one it would have had alone. -/
def Obligations.LatchHoldsLastResponse : Prop :=
  ∀ (s : State) (r1 r2 : Request) (rest : List HostEvent), s.host = .present r1 :: .present r2 :: rest →
    ∃ t u v : State, step s = .next t ∧ step t = .next u ∧
      step { s with host := .present r2 :: rest } = .next v ∧ u.rsp = v.rsp ∧ u.host = rest

/-- The model's choice (notes/assumptions/3.md): with no host action left, a step changes nothing. The spec says the
block is idle between requests and keeps only `RSP` (60_exceptions.md section 4). -/
def Obligations.IdleStepChangesNothing : Prop :=
  ∀ s : State, s.host = [] → step s = .next s

/-- 70_reset_and_hazards.md section 1: the latch after reset, and the same latch after a reset that arrives later. -/
def Obligations.ResetLeavesTheEmptyLatch : Prop :=
  State.reset.rsp = ⟨false, 0#6, .ok, .none⟩ ∧ Status.ok.bits = 0#3 ∧
  ∀ (s : State) (during : Option Request) (rest : List HostEvent), s.host = .reset during :: rest →
    ∃ t : State, step s = .next t ∧ t.rsp = ⟨false, 0#6, .ok, .none⟩ ∧ t.params = s.params ∧ t.host = rest

/-- 70_reset_and_hazards.md rule R331: a reset during a request writes no response for it, and presenting the request
again gives the response it would have had. -/
def Obligations.ResetAbandonsTheRequest : Prop :=
  ∀ (s : State) (r : Request) (rest : List HostEvent), s.host = .reset (some r) :: .present r :: rest →
    ∃ t u v : State, step s = .next t ∧ t.rsp = ⟨false, 0#6, .ok, .none⟩ ∧
      step t = .next u ∧ step { s with host := .present r :: rest } = .next v ∧ u.rsp = v.rsp

/-- 10_state.md rule R28: a host read gives the four fields as last written or the reset values, and there is no
result while `VALID` is 0. -/
def Obligations.HostReadsTheLatchAsWritten : Prop :=
  (∀ (s t : State) (r : Request) (rest : List HostEvent), s.host = .present r :: rest → step s = .next t →
    t.readRsp = t.rsp ∧ t.readRsp.op = r.cmd.extractLsb' 0 6 ∧
      t.readRsp.result = some (t.rsp.code, t.rsp.payload)) ∧
  State.reset.readRsp = ⟨false, 0#6, .ok, .none⟩ ∧
  ∀ s : State, s.safe = true → s.rsp.valid = false →
    s.readRsp = ⟨false, 0#6, .ok, .none⟩ ∧ s.readRsp.result = none

/-- 60_exceptions.md rule R301: a returned payload is reported `SPECIAL` exactly when it is an infinity or a NaN,
`OK` otherwise, and only FDEC returns one of those. -/
def Obligations.SpecialIsInfinityOrNan : Prop :=
  ∀ (i : Instr) (s : State), ∃ (c : Status) (p : Payload), exec i s = .next (answered s c p) ∧
    (p ≠ .none →
      (c = .special ↔ ((∃ neg, p = .val (.inf neg)) ∨ p = .val .nan)) ∧ (c ≠ .special → c = .ok)) ∧
    (((∃ neg, p = .val (.inf neg)) ∨ p = .val .nan) → i = .fdec)

/-- Every step keeps the latch readable: reset or an error with `NONE` or a success of its command's shape, within
the capacities, `SPECIAL` exactly for an infinity or a NaN, and never a `FIN` of 0. -/
def Obligations.StepKeepsSafe : Prop :=
  ∀ s t : State, s.safe = true → step s = .next t → t.safe = true

/-- The state after reset is safe. -/
def Obligations.ResetIsSafe : Prop := State.reset.safe = true

/-! ### ADD and SUB (40_bitwise_arith.md) -/

/-- ADD of operands in range gives their sum wrapped to `W` bits. -/
def Obligations.AddWraps : Prop :=
  ∀ s : State, 1 ≤ s.params.addBits →
    -2 ^ (s.params.addBits - 1) ≤ s.port.a → s.port.a ≤ 2 ^ (s.params.addBits - 1) - 1 →
    -2 ^ (s.params.addBits - 1) ≤ s.port.b → s.port.b ≤ 2 ^ (s.params.addBits - 1) - 1 →
      exec .add s = .next (answered s .ok (.int (wrapInt s.params.addBits (s.port.a + s.port.b))))

/-- SUB of operands in range gives their difference wrapped to `W` bits. -/
def Obligations.SubWraps : Prop :=
  ∀ s : State, 1 ≤ s.params.addBits →
    -2 ^ (s.params.addBits - 1) ≤ s.port.a → s.port.a ≤ 2 ^ (s.params.addBits - 1) - 1 →
    -2 ^ (s.params.addBits - 1) ≤ s.port.b → s.port.b ≤ 2 ^ (s.params.addBits - 1) - 1 →
      exec .sub s = .next (answered s .ok (.int (wrapInt s.params.addBits (s.port.a - s.port.b))))

/-- ADD and SUB refuse an operand outside the signed `W`-bit range. -/
def Obligations.ArithmeticRangeErrors : Prop :=
  ∀ s : State, 1 ≤ s.params.addBits →
    (s.port.a < -2 ^ (s.params.addBits - 1) ∨ 2 ^ (s.params.addBits - 1) - 1 < s.port.a ∨
      s.port.b < -2 ^ (s.params.addBits - 1) ∨ 2 ^ (s.params.addBits - 1) - 1 < s.port.b) →
      exec .add s = .next (answered s .rangeError .none) ∧ exec .sub s = .next (answered s .rangeError .none)

/-- The laws of 40_bitwise_arith.md section 3: SUB undoes ADD, ADD is commutative, SUB is ADD of the wrapped
negation. -/
def Obligations.AddAndSubLaws : Prop :=
  ∀ (s : State) (a b : Int), 1 ≤ s.params.addBits →
    -2 ^ (s.params.addBits - 1) ≤ a → a ≤ 2 ^ (s.params.addBits - 1) - 1 →
    -2 ^ (s.params.addBits - 1) ≤ b → b ≤ 2 ^ (s.params.addBits - 1) - 1 →
      ∃ sum diff : Int,
        exec .add (s.onAB a b) = .next (answered (s.onAB a b) .ok (.int sum)) ∧
        exec .sub (s.onAB sum b) = .next (answered (s.onAB sum b) .ok (.int a)) ∧
        exec .add (s.onAB b a) = .next (answered (s.onAB b a) .ok (.int sum)) ∧
        exec .sub (s.onAB a b) = .next (answered (s.onAB a b) .ok (.int diff)) ∧
        exec .add (s.onAB a (wrapInt s.params.addBits (-b))) =
          .next (answered (s.onAB a (wrapInt s.params.addBits (-b))) .ok (.int diff))

/-! ### The binary-string converter (41_binary_string.md) -/

/-- BIN2DEC of a bit-string within capacity gives the sum of its bits times their powers of two. -/
def Obligations.Bin2DecSumsTheBits : Prop :=
  ∀ s : State, s.port.tx.length ≤ s.params.textMax → IsBitString s.port.tx →
    exec .bin2dec s = .next (answered s .ok (.int (bitSum s.port.tx)))

/-- DEC2BIN gives the bit-string of the number's value that starts with `'1'`, and `"0"` for 0. -/
def Obligations.Dec2BinWritesLeastText : Prop :=
  ∀ s : State, 0 ≤ s.port.a → s.port.a < 2 ^ s.params.textMax →
    ∃ t : Text, exec .dec2bin s = .next (answered s .ok (.text t)) ∧ IsBitString t ∧
      (bitSum t : Int) = s.port.a ∧ (s.port.a = 0 → t = [0x30#8]) ∧ (s.port.a ≠ 0 → t.getD 0 0#8 = 0x31#8)

/-- DEC2BINP of a number that fits gives the bit-string of exactly `B` characters with its value. -/
def Obligations.Dec2BinpPadsToWidth : Prop :=
  ∀ s : State, 0 ≤ s.port.a → s.port.a < 2 ^ s.params.textMax → 0 ≤ s.port.b → s.port.b ≤ s.params.textMax →
    s.port.a < 2 ^ s.port.b.toNat →
    ∃ t : Text, exec .dec2binp s = .next (answered s .ok (.text t)) ∧ IsBitString t ∧
      (t.length : Int) = s.port.b ∧ (bitSum t : Int) = s.port.a

/-- DEC2BINP.T gives the bit-string of exactly `B` characters with the number's low `B` bits. -/
def Obligations.Dec2BinpTKeepsLowBits : Prop :=
  ∀ s : State, 0 ≤ s.port.a → s.port.a < 2 ^ s.params.textMax → 0 ≤ s.port.b → s.port.b ≤ s.params.textMax →
    ∃ t : Text, exec .dec2binpT s = .next (answered s .ok (.text t)) ∧ IsBitString t ∧
      (t.length : Int) = s.port.b ∧ (bitSum t : Int) = s.port.a % 2 ^ s.port.b.toNat

/-- BIN2TXT of a bit-string gives `ceil(n / 8)` characters that are, most significant first, the base-256 digits of
its value. -/
def Obligations.Bin2TxtCutsChunksFromTheRight : Prop :=
  ∀ s : State, s.port.tx.length ≤ s.params.textMax → IsBitString s.port.tx →
    ∃ t : Text, exec .bin2txt s = .next (answered s .ok (.text t)) ∧
      t.length = (s.port.tx.length + 7) / 8 ∧ byteSum t = bitSum s.port.tx

/-- BYTES2BIN gives eight characters a byte, the first byte first, each most significant bit first. -/
def Obligations.Bytes2BinWritesEachBit : Prop :=
  ∀ s : State, s.port.x.length ≤ s.params.bytesMax → 8 * s.port.x.length ≤ s.params.textMax →
    ∃ t : Text, exec .bytes2bin s = .next (answered s .ok (.text t)) ∧ t.length = 8 * s.port.x.length ∧
      IsBitString t ∧
      ∀ i < s.port.x.length, ∀ j < 8,
        (t.getD (8 * i + j) 0#8 = 0x31#8 ↔ (s.port.x.getD i 0#8).getLsbD (7 - j) = true)

/-- The errors of the family, as 60_exceptions.md section 2 lists them. -/
def Obligations.BinaryStringErrors : Prop :=
  ∀ s : State,
    (s.params.textMax < s.port.tx.length →
      exec .bin2dec s = .next (answered s .invalidLength .none) ∧
      exec .bin2txt s = .next (answered s .invalidLength .none)) ∧
    (s.port.tx.length ≤ s.params.textMax → ¬ IsBitString s.port.tx →
      exec .bin2dec s = .next (answered s .invalidFormat .none) ∧
      exec .bin2txt s = .next (answered s .invalidFormat .none)) ∧
    (s.port.a < 0 ∨ 2 ^ s.params.textMax ≤ s.port.a →
      exec .dec2bin s = .next (answered s .rangeError .none) ∧
      exec .dec2binp s = .next (answered s .rangeError .none) ∧
      exec .dec2binpT s = .next (answered s .rangeError .none)) ∧
    (s.port.b < 0 ∨ (s.params.textMax : Int) < s.port.b →
      exec .dec2binp s = .next (answered s .rangeError .none) ∧
      exec .dec2binpT s = .next (answered s .rangeError .none)) ∧
    (2 ^ s.port.b.toNat ≤ s.port.a → exec .dec2binp s = .next (answered s .rangeError .none)) ∧
    (s.params.bytesMax < s.port.x.length ∨ s.params.textMax < 8 * s.port.x.length →
      exec .bytes2bin s = .next (answered s .invalidLength .none))

/-- 41_binary_string.md rule R127: BIN2DEC undoes DEC2BIN and DEC2BINP, BIN2TXT undoes BYTES2BIN. -/
def Obligations.BinaryStringRoundTrips : Prop :=
  ∀ s : State, s.params.wf = true →
    (∀ a b : Int, 0 ≤ a → a < 2 ^ s.params.textMax →
      ∃ t : Text, exec .dec2bin (s.onAB a b) = .next (answered (s.onAB a b) .ok (.text t)) ∧
        exec .bin2dec (s.onTX t) = .next (answered (s.onTX t) .ok (.int a))) ∧
    (∀ x : List Byte, x.length ≤ s.params.bytesMax → 8 * x.length ≤ s.params.textMax →
      ∃ t : Text, exec .bytes2bin (s.onX x) = .next (answered (s.onX x) .ok (.text t)) ∧
        exec .bin2txt (s.onTX t) = .next (answered (s.onTX t) .ok (.text x))) ∧
    (∀ a w : Int, 0 ≤ a → a < 2 ^ s.params.textMax → 0 ≤ w → w ≤ s.params.textMax → a < 2 ^ w.toNat →
      ∃ t : Text, exec .dec2binp (s.onAB a w) = .next (answered (s.onAB a w) .ok (.text t)) ∧
        exec .bin2dec (s.onTX t) = .next (answered (s.onTX t) .ok (.int a)))

/-! ### The endian integer codec (42_endian_int.md) -/

/-- ENCINT.*.U and ENCINT.*.SS: the base-256 or base-128 digits of the number, as few as it and `minBytes` need, most
significant first, and reversed in the little-endian form. -/
def Obligations.UnsignedEncodeWritesDigits : Prop :=
  ∀ s : State, 1 ≤ s.params.intMaxBytes → 0 ≤ s.port.a → 0 ≤ s.port.b → s.port.b ≤ s.params.intMaxBytes →
    (s.port.a < 256 ^ s.params.intMaxBytes →
      ∃ d : List Byte, exec .encintBeU s = .next (answered s .ok (.bytes d)) ∧
        exec .encintLeU s = .next (answered s .ok (.bytes d.reverse)) ∧
        IsDigitsOf 256 d s.port.a s.port.b) ∧
    (s.port.a < 128 ^ s.params.intMaxBytes →
      ∃ d : List Byte, exec .encintBeSs s = .next (answered s .ok (.bytes d)) ∧
        exec .encintLeSs s = .next (answered s .ok (.bytes d.reverse)) ∧
        IsDigitsOf 128 d s.port.a s.port.b)

/-- ENCINT.*.S: the two's-complement bytes of the number, as few as it and `minBytes` need, most significant first,
and reversed in the little-endian form. -/
def Obligations.SignedEncodeWritesTwosComplement : Prop :=
  ∀ s : State, -2 ^ 31 ≤ s.port.a → s.port.a ≤ 2 ^ 31 - 1 → 0 ≤ s.port.b → s.port.b ≤ 4 →
    ∃ d : List Byte, exec .encintBeS s = .next (answered s .ok (.bytes d)) ∧
      exec .encintLeS s = .next (answered s .ok (.bytes d.reverse)) ∧
      signedSum d = s.port.a ∧ 1 ≤ d.length ∧ d.length ≤ 4 ∧ s.port.b ≤ d.length ∧
      (1 < d.length → s.port.b < d.length → ¬ InSignedBytes (d.length - 1) s.port.a)

/-- DECINT.*.U and DECINT.*.SS: the sum of the bytes, or of their low seven bits, times their powers of the base. -/
def Obligations.UnsignedDecodeSumsDigits : Prop :=
  ∀ s : State, s.port.x.length ≤ s.params.bytesMax → s.port.x.length ≤ s.params.intMaxBytes →
    exec .decintBeU s = .next (answered s .ok (.int (byteSum s.port.x))) ∧
    exec .decintLeU s = .next (answered s .ok (.int (byteSum s.port.x.reverse))) ∧
    exec .decintBeSs s =
      .next (answered s .ok (.int (digitSum 128 (s.port.x.map fun b => b.toNat % 128)))) ∧
    exec .decintLeSs s =
      .next (answered s .ok (.int (digitSum 128 (s.port.x.reverse.map fun b => b.toNat % 128))))

/-- DECINT.*.S: the two's-complement value of at most four bytes, the sign in the top bit of the full width. -/
def Obligations.SignedDecodeReadsTwosComplement : Prop :=
  ∀ s : State, s.port.x.length ≤ s.params.bytesMax → s.port.x.length ≤ 4 →
    exec .decintBeS s = .next (answered s .ok (.int (signedSum s.port.x))) ∧
    exec .decintLeS s = .next (answered s .ok (.int (signedSum s.port.x.reverse)))

/-- The range errors of ENCINT, as 60_exceptions.md section 2 lists them; a build with `INT_MAX_BYTES` 0 accepts no
unsigned or synchsafe number, since the width is at least 1. -/
def Obligations.EncodeRangeErrors : Prop :=
  ∀ s : State,
    (s.port.b < 0 →
      ∀ i ∈ [Instr.encintBeU, .encintLeU, .encintBeSs, .encintLeSs, .encintBeS, .encintLeS],
        exec i s = .next (answered s .rangeError .none)) ∧
    (s.port.a < 0 →
      ∀ i ∈ [Instr.encintBeU, .encintLeU, .encintBeSs, .encintLeSs],
        exec i s = .next (answered s .rangeError .none)) ∧
    ((s.params.intMaxBytes : Int) < s.port.b →
      ∀ i ∈ [Instr.encintBeU, .encintLeU, .encintBeSs, .encintLeSs],
        exec i s = .next (answered s .rangeError .none)) ∧
    (s.params.intMaxBytes = 0 →
      ∀ i ∈ [Instr.encintBeU, .encintLeU, .encintBeSs, .encintLeSs],
        exec i s = .next (answered s .rangeError .none)) ∧
    (256 ^ s.params.intMaxBytes ≤ s.port.a →
      ∀ i ∈ [Instr.encintBeU, .encintLeU], exec i s = .next (answered s .rangeError .none)) ∧
    (128 ^ s.params.intMaxBytes ≤ s.port.a →
      ∀ i ∈ [Instr.encintBeSs, .encintLeSs], exec i s = .next (answered s .rangeError .none)) ∧
    (s.port.a < -2 ^ 31 ∨ 2 ^ 31 ≤ s.port.a ∨ 4 < s.port.b →
      ∀ i ∈ [Instr.encintBeS, .encintLeS], exec i s = .next (answered s .rangeError .none))

/-- The length errors of DECINT, as 60_exceptions.md section 2 lists them. -/
def Obligations.DecodeLengthErrors : Prop :=
  ∀ s : State,
    (s.params.bytesMax < s.port.x.length →
      ∀ i ∈ [Instr.decintBeU, .decintLeU, .decintBeSs, .decintLeSs, .decintBeS, .decintLeS],
        exec i s = .next (answered s .invalidLength .none)) ∧
    (s.params.intMaxBytes < s.port.x.length →
      ∀ i ∈ [Instr.decintBeU, .decintLeU, .decintBeSs, .decintLeSs],
        exec i s = .next (answered s .invalidLength .none)) ∧
    (4 < s.port.x.length →
      ∀ i ∈ [Instr.decintBeS, .decintLeS], exec i s = .next (answered s .invalidLength .none))

/-- 42_endian_int.md rule R151: the little-endian form of ENCINT gives the big-endian form's bytes reversed, and that
of DECINT gives what the big-endian form gives for the reversed bytes. -/
def Obligations.LittleEndianIsBigEndianReversed : Prop :=
  ∀ s : State,
    (∀ p ∈ [(Instr.encintBeU, Instr.encintLeU), (.encintBeSs, .encintLeSs), (.encintBeS, .encintLeS)],
      (∃ d : List Byte, exec p.1 s = .next (answered s .ok (.bytes d)) ∧
        exec p.2 s = .next (answered s .ok (.bytes d.reverse))) ∨
      ∃ c : Status, c.isError = true ∧ exec p.1 s = .next (answered s c .none) ∧
        exec p.2 s = .next (answered s c .none)) ∧
    (∀ p ∈ [(Instr.decintBeU, Instr.decintLeU), (.decintBeSs, .decintLeSs), (.decintBeS, .decintLeS)],
      ∃ (c : Status) (v : Payload), exec p.2 s = .next (answered s c v) ∧
        exec p.1 (s.onX s.port.x.reverse) = .next (answered (s.onX s.port.x.reverse) c v))

/-- 42_endian_int.md rule R178: DECINT of the bytes ENCINT returns, in the same order and mode, returns the number. -/
def Obligations.EndianRoundTrip : Prop :=
  ∀ (s : State) (a b : Int) (d : List Byte), s.params.wf = true →
    ∀ p ∈ [(Instr.encintBeU, Instr.decintBeU), (.encintLeU, .decintLeU), (.encintBeSs, .decintBeSs),
        (.encintLeSs, .decintLeSs), (.encintBeS, .decintBeS), (.encintLeS, .decintLeS)],
      exec p.1 (s.onAB a b) = .next (answered (s.onAB a b) .ok (.bytes d)) →
        exec p.2 (s.onX d) = .next (answered (s.onX d) .ok (.int a))

/-! ### The float codecs (43_float.md) -/

/-- FDEC of 4 bytes: the five cases of binary32, the value exact. -/
def Obligations.FdecReadsBinary32 : Prop :=
  ∀ (s : State) (u : BitVec 32), s.port.x = bytesOf32 u → 4 ≤ s.params.bytesMax →
    (expField32 u = 255 → fracField32 u ≠ 0 → exec .fdec s = .next (answered s .special (.val .nan))) ∧
    (expField32 u = 255 → fracField32 u = 0 →
      exec .fdec s = .next (answered s .special (.val (.inf (u.getLsbD 31))))) ∧
    (expField32 u = 0 → fracField32 u = 0 →
      exec .fdec s = .next (answered s .ok (.val (.zero (u.getLsbD 31))))) ∧
    (expField32 u = 0 → fracField32 u ≠ 0 →
      exec .fdec s = .next (answered s .ok
        (.val (.fin (signValue (u.getLsbD 31) * fracField32 u * 2 ^ (-149 : Int)))))) ∧
    (expField32 u ≠ 0 → expField32 u ≠ 255 →
      exec .fdec s = .next (answered s .ok
        (.val (.fin (signValue (u.getLsbD 31) * (2 ^ 23 + fracField32 u) * 2 ^ ((expField32 u : Int) - 150))))))

/-- FDEC of 8 bytes: the five cases of binary64, the value exact. -/
def Obligations.FdecReadsBinary64 : Prop :=
  ∀ (s : State) (v : Word64), s.port.x = bytesOf64 v → 8 ≤ s.params.bytesMax →
    (expField64 v = 2047 → fracField64 v ≠ 0 → exec .fdec s = .next (answered s .special (.val .nan))) ∧
    (expField64 v = 2047 → fracField64 v = 0 →
      exec .fdec s = .next (answered s .special (.val (.inf (v.getLsbD 63))))) ∧
    (expField64 v = 0 → fracField64 v = 0 →
      exec .fdec s = .next (answered s .ok (.val (.zero (v.getLsbD 63))))) ∧
    (expField64 v = 0 → fracField64 v ≠ 0 →
      exec .fdec s = .next (answered s .ok
        (.val (.fin (signValue (v.getLsbD 63) * fracField64 v * 2 ^ (-1074 : Int)))))) ∧
    (expField64 v ≠ 0 → expField64 v ≠ 2047 →
      exec .fdec s = .next (answered s .ok
        (.val (.fin (signValue (v.getLsbD 63) * (2 ^ 52 + fracField64 v) * 2 ^ ((expField64 v : Int) - 1075))))))

/-- F6ENC of a finite non-zero value: the decimal exponent `e` with `10^(e-1) <= |v| < 10^e`, the fraction
`floor(|v| / 10^e * (2^31 - 1))`, packed with the sign in two little-byte-first words. -/
def Obligations.F6EncPacksSignExponentFraction : Prop :=
  ∀ s : State, expField64 s.port.v ≠ 2047 → magnitude64 s.port.v ≠ 0 →
    ∃ (e : Int) (b0 b1 b2 b3 b4 b5 : Byte),
      exec .f6enc s = .next (answered s .ok (.bytes [b0, b1, b2, b3, b4, b5])) ∧
      (10 : ℚ) ^ (e - 1) ≤ magnitude64 s.port.v ∧ magnitude64 s.port.v < (10 : ℚ) ^ e ∧
      ((b0.toNat + 256 * b1.toNat : Nat) : Int) =
        (if s.port.v.getLsbD 63 then 2 ^ 15 else 0) + expFieldSpec s.params.f6ExpCoding e ∧
      (float6Word b2 b3 b4 b5 : Int) = ⌊magnitude64 s.port.v / 10 ^ e * (2 ^ 31 - 1)⌋

/-- F6ENC of a zero: exponent 0, fraction 0, the sign bit kept. -/
def Obligations.F6EncKeepsTheSignOfZero : Prop :=
  ∀ s : State, expField64 s.port.v = 0 → fracField64 s.port.v = 0 →
    exec .f6enc s = .next (answered s .ok
      (.bytes [0#8, if s.port.v.getLsbD 63 then 0x80#8 else 0#8, 0#8, 0#8, 0#8, 0#8]))

/-- F6DEC of 6 bytes: `sign * 10^exponent * fraction / (2^31 - 1)`, exact, under either exponent coding and either
reading of fraction bit 31; a signed zero for fraction 0. -/
def Obligations.F6DecReadsSignExponentFraction : Prop :=
  ∀ (s : State) (b0 b1 b2 b3 b4 b5 : Byte), s.port.x = [b0, b1, b2, b3, b4, b5] → 6 ≤ s.params.bytesMax →
    (float6Fraction s.params b2 b3 b4 b5 = 0 →
      exec .f6dec s = .next (answered s .ok (.val (.zero (b1.getLsbD 7))))) ∧
    (float6Fraction s.params b2 b3 b4 b5 ≠ 0 →
      exec .f6dec s = .next (answered s .ok
        (.val (.fin (signValue (b1.getLsbD 7) * 10 ^ float6Exponent s.params b0 b1 *
          float6Fraction s.params b2 b3 b4 b5 / (2 ^ 31 - 1))))))

/-- 43_float.md rule R196: F6DEC of F6ENC's bytes has the sign of the input, is no larger in magnitude, and is within
`10^e / K <= 10 * |v| / K` of it; a zero gives the zero of its sign. -/
def Obligations.Float6RoundTripTolerance : Prop :=
  ∀ s : State, s.params.wf = true → expField64 s.port.v ≠ 2047 →
    ∃ d : List Byte, exec .f6enc s = .next (answered s .ok (.bytes d)) ∧
      (magnitude64 s.port.v = 0 →
        exec .f6dec (s.onX d) = .next (answered (s.onX d) .ok (.val (.zero (s.port.v.getLsbD 63))))) ∧
      (magnitude64 s.port.v ≠ 0 →
        ∃ (r : ℚ) (e : Int),
          exec .f6dec (s.onX d) = .next (answered (s.onX d) .ok (.val (.fin r))) ∧
          (if s.port.v.getLsbD 63 then r < 0 else 0 < r) ∧ |r| ≤ magnitude64 s.port.v ∧
          (10 : ℚ) ^ (e - 1) ≤ magnitude64 s.port.v ∧ magnitude64 s.port.v < (10 : ℚ) ^ e ∧
          magnitude64 s.port.v - |r| < 10 ^ e / (2 ^ 31 - 1) ∧
          10 ^ e / (2 ^ 31 - 1) ≤ 10 * magnitude64 s.port.v / (2 ^ 31 - 1))

/-- FBINFRAC of a finite value: the least text of its integer part, the point, and the binary digits of its fraction,
at most 128, cut (and flagged) only at 128; unflagged, the text has the value's magnitude exactly. -/
def Obligations.FbinfracExpandsTheFraction : Prop :=
  ∀ s : State, expField64 s.port.v ≠ 2047 →
    ∃ (ip fp : Text) (inexact : Bool),
      exec .fbinfrac s =
        .next (answered s .ok (.binfrac (s.port.v.getLsbD 63) (ip ++ 0x2E#8 :: fp) inexact)) ∧
      IsBitString ip ∧ IsBitString fp ∧ (bitSum ip : Int) = ⌊magnitude64 s.port.v⌋ ∧
      (ip = [0x30#8] ∨ ip.getD 0 0#8 = 0x31#8) ∧
      1 ≤ fp.length ∧ fp.length ≤ 128 ∧ ip.length ≤ 1024 ∧
      (bitSum fp : Int) = ⌊(magnitude64 s.port.v - ⌊magnitude64 s.port.v⌋) * 2 ^ fp.length⌋ ∧
      (inexact = true → fp.length = 128) ∧
      (inexact = false → pointValue ip fp = magnitude64 s.port.v ∧
        (fp = [0x30#8] ∨ fp.getD (fp.length - 1) 0#8 = 0x31#8))

/-- 43_float.md rule R215: the text's value is at most the magnitude and less than it by under one unit of its last
fraction digit, and equals it exactly when `inexact` is false. -/
def Obligations.FbinfracTruncates : Prop :=
  ∀ s : State, expField64 s.port.v ≠ 2047 →
    ∃ (t ip fp : Text) (neg inexact : Bool), exec .fbinfrac s = .next (answered s .ok (.binfrac neg t inexact)) ∧
      IsBinaryPoint t ip fp ∧ pointValue ip fp ≤ magnitude64 s.port.v ∧
      magnitude64 s.port.v < pointValue ip fp + 1 / 2 ^ fp.length ∧
      (pointValue ip fp = magnitude64 s.port.v ↔ inexact = false)

/-- NORMBP of a binary-point string: for a value of 0 the zero flag and a mantissa of zeros; otherwise the exponent of
the leading one and the digits after it, cut or padded with `'0'` to `M`. -/
def Obligations.NormbpFindsTheLeadingOne : Prop :=
  ∀ (s : State) (ip fp : Text), IsBinaryPoint s.port.tx ip fp → s.port.tx.length ≤ s.params.textMax →
    0 ≤ s.port.b → s.port.b ≤ s.params.textMax →
    ((∀ c ∈ ip ++ fp, c = 0x30#8) →
      exec .normbp s = .next (answered s .ok (.norm true 0 (List.replicate s.port.b.toNat 0x30#8)))) ∧
    (∀ zeros tail : Text, ip ++ fp = zeros ++ 0x31#8 :: tail → (∀ c ∈ zeros, c = 0x30#8) →
      exec .normbp s = .next (answered s .ok (.norm false ((ip.length : Int) - 1 - zeros.length)
        ((tail ++ List.replicate s.port.b.toNat 0x30#8).take s.port.b.toNat))))

/-- 43_float.md rule R217's bounds: the normalized value is at most the text's and less than it by under one unit of
its last mantissa digit, with equality exactly when no `'1'` was dropped; a zero result is a text of value 0. -/
def Obligations.NormbpBoundsTheValue : Prop :=
  ∀ (s : State) (ip fp : Text), IsBinaryPoint s.port.tx ip fp → s.port.tx.length ≤ s.params.textMax →
    0 ≤ s.port.b → s.port.b ≤ s.params.textMax →
    ∃ (zero : Bool) (e : Int) (m : Text), exec .normbp s = .next (answered s .ok (.norm zero e m)) ∧
      IsBitString m ∧ (m.length : Int) = s.port.b ∧
      (zero = true → e = 0 ∧ pointValue ip fp = 0) ∧
      (zero = false →
        (1 + (bitSum m : ℚ) / 2 ^ s.port.b.toNat) * 2 ^ e ≤ pointValue ip fp ∧
        pointValue ip fp < (1 + ((bitSum m : ℚ) + 1) / 2 ^ s.port.b.toNat) * 2 ^ e ∧
        ((1 + (bitSum m : ℚ) / 2 ^ s.port.b.toNat) * 2 ^ e = pointValue ip fp ↔
          ∀ zeros tail : Text, ip ++ fp = zeros ++ 0x31#8 :: tail → (∀ c ∈ zeros, c = 0x30#8) →
            0x31#8 ∉ tail.drop s.port.b.toNat))

/-- NORMBP of FBINFRAC's text for a normal binary64 input, with `M = 52` and nothing cut, gives the unbiased exponent
and the fraction field (43_float.md section 3). -/
def Obligations.NormbpOfFbinfracGivesTheFields : Prop :=
  ∀ (s : State) (t : Text) (neg : Bool), s.params.wf = true →
    expField64 s.port.v ≠ 0 → expField64 s.port.v ≠ 2047 →
    exec .fbinfrac s = .next (answered s .ok (.binfrac neg t false)) →
    ∃ m : Text,
      exec .normbp ((s.onAB s.port.a 52).onTX t) = .next (answered ((s.onAB s.port.a 52).onTX t) .ok
        (.norm false ((expField64 s.port.v : Int) - 1023) m)) ∧
      IsBitString m ∧ m.length = 52 ∧ bitSum m = fracField64 s.port.v

/-- The errors of the float commands, as 60_exceptions.md section 2 lists them, NORMBP's in their order. -/
def Obligations.FloatErrors : Prop :=
  ∀ s : State,
    (expField64 s.port.v = 2047 →
      exec .f6enc s = .next (answered s .rangeError .none) ∧
      exec .fbinfrac s = .next (answered s .rangeError .none)) ∧
    (s.params.bytesMax < s.port.x.length ∨ s.port.x.length ≠ 6 →
      exec .f6dec s = .next (answered s .invalidLength .none)) ∧
    (s.params.bytesMax < s.port.x.length ∨ (s.port.x.length ≠ 4 ∧ s.port.x.length ≠ 8) →
      exec .fdec s = .next (answered s .invalidLength .none)) ∧
    (s.params.textMax < s.port.tx.length → exec .normbp s = .next (answered s .invalidLength .none)) ∧
    (s.port.tx.length ≤ s.params.textMax → (∀ ip fp : Text, ¬ IsBinaryPoint s.port.tx ip fp) →
      exec .normbp s = .next (answered s .invalidFormat .none)) ∧
    (s.port.tx.length ≤ s.params.textMax → (∃ ip fp : Text, IsBinaryPoint s.port.tx ip fp) →
      (s.port.b < 0 ∨ (s.params.textMax : Int) < s.port.b) →
      exec .normbp s = .next (answered s .rangeError .none))

/-! ### The GUID reorder (44_guid.md) -/

/-- GUID2STR of 16 bytes: 36 characters, hyphens at 8, 13, 18, 23, and pair `j` the two uppercase hex digits of byte
`P[j]`, high nibble first. -/
def Obligations.Guid2StrWritesThePairs : Prop :=
  ∀ s : State, s.port.x.length = 16 → 16 ≤ s.params.bytesMax →
    ∃ t : Text, exec .guid2str s = .next (answered s .ok (.text t)) ∧ t.length = 36 ∧
      (∀ i ∈ [8, 13, 18, 23], t.getD i 0#8 = 0x2D#8) ∧
      ∀ j < 16,
        t.getD (pairOffset.getD j 0) 0#8 = upperHex ((s.port.x.getD (pairByte.getD j 0) 0#8).toNat / 16) ∧
        t.getD (pairOffset.getD j 0 + 1) 0#8 = upperHex ((s.port.x.getD (pairByte.getD j 0) 0#8).toNat % 16)

/-- STR2GUID of a well-formed GUID text of either case: 16 bytes, byte `P[j]` the value of pair `j`. -/
def Obligations.Str2GuidReadsThePairs : Prop :=
  ∀ s : State, IsGuidText s.port.tx → 36 ≤ s.params.textMax →
    ∃ x : List Byte, exec .str2guid s = .next (answered s .ok (.bytes x)) ∧ x.length = 16 ∧
      ∀ j < 16, ∃ hi lo : Nat,
        hexDigitValue (s.port.tx.getD (pairOffset.getD j 0) 0#8) = some hi ∧
        hexDigitValue (s.port.tx.getD (pairOffset.getD j 0 + 1) 0#8) = some lo ∧
        (x.getD (pairByte.getD j 0) 0#8).toNat = 16 * hi + lo

/-- The errors of the family, as 60_exceptions.md section 2 lists them. -/
def Obligations.GuidErrors : Prop :=
  ∀ s : State,
    (s.params.bytesMax < s.port.x.length ∨ s.port.x.length ≠ 16 →
      exec .guid2str s = .next (answered s .invalidLength .none)) ∧
    (s.params.textMax < s.port.tx.length → exec .str2guid s = .next (answered s .invalidLength .none)) ∧
    (s.port.tx.length ≤ s.params.textMax → ¬ IsGuidText s.port.tx →
      exec .str2guid s = .next (answered s .invalidFormat .none))

/-- 44_guid.md rule R243: STR2GUID undoes GUID2STR, and GUID2STR of an accepted text's bytes is that text with its
letters in uppercase. -/
def Obligations.GuidRoundTrips : Prop :=
  ∀ s : State, s.params.wf = true →
    (∀ x : List Byte, x.length = 16 →
      ∃ t : Text, exec .guid2str (s.onX x) = .next (answered (s.onX x) .ok (.text t)) ∧
        exec .str2guid (s.onTX t) = .next (answered (s.onTX t) .ok (.bytes x))) ∧
    (∀ (t : Text) (x : List Byte), exec .str2guid (s.onTX t) = .next (answered (s.onTX t) .ok (.bytes x)) →
      exec .guid2str (s.onX x) = .next (answered (s.onX x) .ok (.text (t.map upcase))))

/-! ### Status codes (60_exceptions.md) -/

/-- 60_exceptions.md rule R300: the 3-bit value of each status code, which of them are errors, and no latch holds the
reserved value 7. -/
def Obligations.StatusCodesOfTable : Prop :=
  Status.ok.bits = 0#3 ∧ Status.special.bits = 1#3 ∧ Status.invalidLength.bits = 2#3 ∧
  Status.invalidFormat.bits = 3#3 ∧ Status.rangeError.bits = 4#3 ∧ Status.configurationError.bits = 5#3 ∧
  Status.illegalCommand.bits = 6#3 ∧
  (∀ c : Status, c.isError = true ↔ 2 ≤ c.bits.toNat) ∧
  ∀ s : State, s.rsp.code.bits ≠ 7#3
end

