-- ==== Sys2Proof/Laws/Ops.lean ====
section
/-! SUPPORT. What the shared operations can do: least widths, bit-strings, the carry loop, the operand checks. -/

namespace Sys2Proof.Machine

/-! ### Least widths -/

/-- The search stops at the first place from `k` on where `p` holds, if there is one within the fuel. -/
theorem leastFrom_spec (p : Nat → Bool) (fuel k : Nat) (h : ∃ j, k ≤ j ∧ j ≤ k + fuel ∧ p j = true) :
    k ≤ leastFrom p fuel k ∧ p (leastFrom p fuel k) = true ∧
      ∀ j, k ≤ j → j < leastFrom p fuel k → p j = false := by
  induction fuel generalizing k with
  | zero =>
    obtain ⟨j, h1, h2, h3⟩ := h
    obtain rfl : j = k := by omega
    exact ⟨le_rfl, h3, fun i h4 h5 => absurd h5 (by simp only [leastFrom]; omega)⟩
  | succ fuel ih =>
    unfold leastFrom
    split
    · rename_i hp
      exact ⟨le_rfl, hp, fun i h4 h5 => by omega⟩
    · rename_i hp
      obtain ⟨j, h1, h2, h3⟩ := h
      have hj : k ≠ j := fun e => hp (e ▸ h3)
      obtain ⟨a, b, c⟩ := ih (k + 1) ⟨j, by omega, by omega, h3⟩
      refine ⟨by omega, b, fun i h4 h5 => ?_⟩
      by_cases e : i = k
      · simpa [e] using hp
      · exact c i (by omega) h5

/-- `ku(x, base)` is the least `k >= 1` with `x < base^k` (42_endian_int.md rule R153). -/
theorem ku_spec (x base : Nat) (hb : 2 ≤ base) :
    1 ≤ ku x base ∧ x < base ^ ku x base ∧ ∀ j, 1 ≤ j → j < ku x base → base ^ j ≤ x := by
  have key : x < base ^ (x.log2 + 1) :=
    lt_of_lt_of_le Nat.lt_log2_self (Nat.pow_le_pow_left hb _)
  obtain ⟨a, b, c⟩ := leastFrom_spec (fun k => decide (x < base ^ k)) (x.log2 + 1) 1
    ⟨x.log2 + 1, by omega, by omega, by simpa using key⟩
  exact ⟨a, by simpa [ku] using b, fun j h1 h2 => by simpa using c j h1 h2⟩

/-- A number that fits in `w >= 1` digits needs at most `w`. -/
theorem ku_le (x base w : Nat) (hb : 2 ≤ base) (hw : 1 ≤ w) (h : x < base ^ w) : ku x base ≤ w := by
  by_contra hc
  exact absurd ((ku_spec x base hb).2.2 w hw (by omega)) (by omega)

theorem inSignedRange_iff (n : Nat) (x : Int) : inSignedRange n x = true ↔ InSignedBytes n x := by
  simp [inSignedRange, InSignedBytes]

/-- A wider signed range holds what a narrower one holds. -/
theorem InSignedBytes_mono (n m : Nat) (x : Int) (hnm : n ≤ m) (h : InSignedBytes n x) :
    InSignedBytes m x := by
  have : (2 : Int) ^ (8 * n - 1) ≤ 2 ^ (8 * m - 1) := pow_le_pow_right₀ (by norm_num) (by omega)
  unfold InSignedBytes at *
  omega

/-- `ks(x)` is the least `k >= 1` with `x` in the `k`-byte signed range (42_endian_int.md rule R154). -/
theorem ks_spec (x : Int) :
    1 ≤ ks x ∧ InSignedBytes (ks x) x ∧ ∀ j, 1 ≤ j → j < ks x → ¬ InSignedBytes j x := by
  have key : InSignedBytes (x.natAbs.log2 + 1) x := by
    have h1 : x.natAbs < 2 ^ (x.natAbs.log2 + 1) := Nat.lt_log2_self
    have h2 : 2 ^ (x.natAbs.log2 + 1) ≤ 2 ^ (8 * (x.natAbs.log2 + 1) - 1) :=
      Nat.pow_le_pow_right (by norm_num) (by omega)
    have h3 : (x.natAbs : Int) < 2 ^ (8 * (x.natAbs.log2 + 1) - 1) := by exact_mod_cast lt_of_lt_of_le h1 h2
    unfold InSignedBytes
    omega
  obtain ⟨a, b, c⟩ := leastFrom_spec (fun k => inSignedRange k x) (x.natAbs.log2 + 1) 1
    ⟨x.natAbs.log2 + 1, by omega, by omega, by rw [inSignedRange_iff]; exact key⟩
  refine ⟨a, (inSignedRange_iff _ _).1 b, fun j h1 h2 h3 => ?_⟩
  have := c j h1 h2
  rw [← Bool.not_eq_true, inSignedRange_iff] at this
  exact this h3

/-! ### Bit-strings -/

@[simp] theorem bitDigit_bitChar (d : Nat) : bitDigit (bitChar d) = d % 2 := by
  unfold bitDigit bitChar
  rcases Nat.mod_two_eq_zero_or_one d with h | h <;> simp [h, chr0, chr1]

@[simp] theorem isBit_bitChar (d : Nat) : isBit (bitChar d) = true := by
  unfold bitChar
  split <;> simp [isBit]

theorem bitDigit_le_one (c : Byte) : bitDigit c ≤ 1 := by
  unfold bitDigit
  split <;> omega

@[simp] theorem bits_length (n u : Nat) : (bits n u).length = n := by
  induction n with
  | zero => rfl
  | succ n ih => simp [bits, ih]

@[simp] theorem bits_isBits (n u : Nat) : isBits (bits n u) = true := by
  induction n with
  | zero => rfl
  | succ n ih =>
    unfold isBits at ih
    simp [bits, isBits, ih]

/-- `bits_n(u)` has the value `u mod 2^n` (00_scope.md rule R10). -/
@[simp] theorem bitval_bits (n u : Nat) : bitval (bits n u) = u % 2 ^ n := by
  induction n with
  | zero => simp [bits, bitval, Nat.mod_one]
  | succ n ih =>
    simp only [bits, bitval, bits_length, bitDigit_bitChar, ih]
    rw [pow_succ, Nat.mod_mul]
    ring

theorem bitval_lt (t : Text) : bitval t < 2 ^ t.length := by
  induction t with
  | nil => simp [bitval]
  | cons c cs ih =>
    simp only [bitval, List.length_cons, pow_succ]
    have := bitDigit_le_one c
    nlinarith [Nat.two_pow_pos cs.length]

theorem bitval_append (s t : Text) : bitval (s ++ t) = bitval s * 2 ^ t.length + bitval t := by
  induction s with
  | nil => simp [bitval]
  | cons c cs ih =>
    simp only [List.cons_append, bitval, List.length_append, ih, pow_add]
    ring

theorem isBit_iff (c : Byte) : isBit c = true ↔ c = 0x30#8 ∨ c = 0x31#8 := by
  simp [isBit, chr0, chr1]

theorem isBits_iff (t : Text) : isBits t = true ↔ IsBitString t := by
  simp [isBits, IsBitString, isBit_iff]

theorem isBits_append (s t : Text) : isBits (s ++ t) = (isBits s && isBits t) := by
  simp [isBits]

/-- Two bit-strings of one length with one value are equal (00_scope.md rule R10). -/
theorem bits_bitval (t : Text) (h : isBits t = true) : bits t.length (bitval t) = t := by
  induction t with
  | nil => rfl
  | cons c cs ih =>
    simp only [isBits, List.all_cons, Bool.and_eq_true] at h
    have hlt := bitval_lt cs
    have key : ∀ d u n, u < 2 ^ n → bits n (d * 2 ^ n + u) = bits n u := by
      intro d u n _
      have aux : ∀ m, m ≤ n → bits m (d * 2 ^ n + u) = bits m u := by
        intro m
        induction m with
        | zero => intro _; rfl
        | succ m ihm =>
          intro hm
          simp only [bits]
          rw [ihm (by omega)]
          congr 1
          have e : d * 2 ^ n = 2 ^ m * (2 * (d * 2 ^ (n - m - 1))) := by
            rw [show n = m + 1 + (n - m - 1) by omega, pow_add, pow_succ]
            simp only [show m + 1 + (n - m - 1) - m - 1 = n - m - 1 by omega]
            ring
          have e2 : (d * 2 ^ n + u) / 2 ^ m = 2 * (d * 2 ^ (n - m - 1)) + u / 2 ^ m := by
            rw [e, Nat.mul_add_div (by positivity)]
          unfold bitChar
          rw [e2]
          simp [Nat.add_mod]
      exact aux n le_rfl
    simp only [List.length_cons, bits, bitval]
    rw [key _ _ _ hlt, ih h.2]
    congr 1
    rw [mul_comm, Nat.mul_add_div (by positivity), Nat.div_eq_of_lt hlt]
    rcases (isBit_iff c).1 h.1 with rfl | rfl <;> decide

/-- `bitval` is the sum of 00_scope.md rule R10. -/
theorem bitval_eq_bitSum (t : Text) : bitval t = bitSum t := by
  induction t with
  | nil => simp [bitval, bitSum]
  | cons c cs ih =>
    unfold bitSum at *
    rw [List.length_cons, Finset.sum_range_succ']
    simp only [bitval, ih, List.getD_cons_succ, List.getD_cons_zero, Nat.add_sub_cancel, Nat.sub_zero]
    rw [add_comm]
    congr 1
    refine Finset.sum_congr rfl fun i hi => ?_
    rw [show cs.length - (i + 1) = cs.length - 1 - i by omega]

/-- The width of a non-zero number's least text: `2^(n-1) <= u < 2^n`. -/
theorem bitWidth_spec (u : Nat) (h : u ≠ 0) :
    1 ≤ bitWidth u ∧ u < 2 ^ bitWidth u ∧ 2 ^ (bitWidth u - 1) ≤ u := by
  obtain ⟨a, b, c⟩ := ku_spec u 2 le_rfl
  refine ⟨a, b, ?_⟩
  by_cases e : ku u 2 = 1
  · simp [bitWidth, e]; omega
  · exact c (ku u 2 - 1) (by omega) (by omega)

/-! ### The operand checks -/

theorem withX_eq (P : Params) (r : Request) (f : List Byte → Result) (h : r.x.length ≤ P.bytesMax) :
    withX P r f = f r.x := by
  simp [withX, h]

theorem withX_long (P : Params) (r : Request) (f : List Byte → Result) (h : P.bytesMax < r.x.length) :
    withX P r f = .raise .invalidLength := by
  simp [withX, h]

theorem withTX_eq (P : Params) (r : Request) (f : Text → Result) (h : r.tx.length ≤ P.textMax) :
    withTX P r f = f r.tx := by
  simp [withTX, h]

theorem withTX_long (P : Params) (r : Request) (f : Text → Result) (h : P.textMax < r.tx.length) :
    withTX P r f = .raise .invalidLength := by
  simp [withTX, h]

theorem withBits_eq (P : Params) (r : Request) (f : Text → Result) (h : r.tx.length ≤ P.textMax)
    (hb : isBits r.tx = true) : withBits P r f = f r.tx := by
  simp [withBits, withTX_eq _ _ _ h, hb]

theorem withBits_bad (P : Params) (r : Request) (f : Text → Result) (h : r.tx.length ≤ P.textMax)
    (hb : isBits r.tx = false) : withBits P r f = .raise .invalidFormat := by
  simp [withBits, withTX_eq _ _ _ h, hb]

theorem withNumber_eq (P : Params) (r : Request) (f : Nat → Result) (h0 : 0 ≤ r.a) (h1 : r.a < 2 ^ P.textMax) :
    withNumber P r f = f r.a.toNat := by
  unfold withNumber
  rw [if_neg (by omega)]

theorem withNumber_bad (P : Params) (r : Request) (f : Nat → Result) (h : r.a < 0 ∨ 2 ^ P.textMax ≤ r.a) :
    withNumber P r f = .raise .rangeError := by
  unfold withNumber
  rw [if_pos (by omega)]

theorem withWidth_eq (P : Params) (r : Request) (f : Nat → Result) (h0 : 0 ≤ r.b) (h1 : r.b ≤ P.textMax) :
    withWidth P r f = f r.b.toNat := by
  unfold withWidth
  rw [if_neg (by omega)]

theorem withWidth_bad (P : Params) (r : Request) (f : Nat → Result) (h : r.b < 0 ∨ (P.textMax : Int) < r.b) :
    withWidth P r f = .raise .rangeError := by
  unfold withWidth
  rw [if_pos (by omega)]

end Sys2Proof.Machine
end

