-- ==== Sys2Proof/Laws/Arith.lean ====
section
/-! SUPPORT. What the carry loop of the adder computes, and how signed words read (40_bitwise_arith.md). -/

namespace Sys2Proof.Machine

/-- Partial sum and carry: XOR adds without carries, AND is the carry into the next place. -/
theorem nat_add_eq_xor_add_and (a b : Nat) : a + b = (a ^^^ b) + 2 * (a &&& b) := by
  induction a using Nat.strong_induction_on generalizing b with
  | _ a ih =>
    by_cases ha : a = 0
    · simp [ha]
    · have h := ih (a / 2) (by omega) (b / 2)
      rw [← Nat.xor_div_two, ← Nat.and_div_two] at h
      have hx : (a ^^^ b) % 2 = (a + b) % 2 := Nat.xor_mod_two_eq
      have hn : (a &&& b) % 2 = (a % 2) * (b % 2) := by
        have h0 : (a &&& b) % 2 = 1 ↔ a % 2 = 1 ∧ b % 2 = 1 := Nat.and_mod_two_eq_one
        rcases Nat.mod_two_eq_zero_or_one a with h1 | h1 <;>
          rcases Nat.mod_two_eq_zero_or_one b with h2 | h2 <;>
          rcases Nat.mod_two_eq_zero_or_one (a &&& b) with h3 | h3 <;> simp [h1, h2, h3] at h0 ⊢
      generalize a ^^^ b = x at *
      generalize a &&& b = y at *
      rcases Nat.mod_two_eq_zero_or_one a with h1 | h1 <;>
        rcases Nat.mod_two_eq_zero_or_one b with h2 | h2 <;> rw [h1, h2] at hn <;> omega

theorem bitVec_add_eq_xor_add_and {W : Nat} (a b : BitVec W) : a + b = (a ^^^ b) + ((a &&& b) <<< 1) := by
  apply BitVec.eq_of_toNat_eq
  have h := nat_add_eq_xor_add_and a.toNat b.toNat
  simp only [BitVec.toNat_add, BitVec.toNat_xor, BitVec.toNat_shiftLeft, BitVec.toNat_and, Nat.shiftLeft_eq,
    pow_one]
  rw [h, Nat.add_mod_mod]
  congr 2
  ring

/-- With the low `k` bits of the carry clear and `W - k` iterations left, the loop ends with the sum
(40_bitwise_arith.md rule R101). -/
theorem carryLoop_eq_add {W : Nat} (fuel : Nat) (a b : BitVec W) (h : 2 ^ (W - fuel) ∣ b.toNat) :
    carryLoop fuel a b = a + b := by
  induction fuel generalizing a b with
  | zero =>
    have hb : b = 0#W := by
      apply BitVec.eq_of_toNat_eq
      have h1 := b.isLt
      simp only [Nat.sub_zero] at h
      simpa using Nat.eq_zero_of_dvd_of_lt h h1
    simp [carryLoop, hb]
  | succ fuel ih =>
    unfold carryLoop
    split
    · rename_i hb
      simp [hb]
    · rw [ih, ← bitVec_add_eq_xor_add_and]
      simp only [BitVec.toNat_shiftLeft, BitVec.toNat_and, Nat.shiftLeft_eq, pow_one]
      by_cases hW : fuel + 1 ≤ W
      · have e : W - fuel = (W - (fuel + 1)) + 1 := by omega
        have hand : 2 ^ (W - (fuel + 1)) ∣ a.toNat &&& b.toNat := by
          apply Nat.dvd_of_mod_eq_zero
          rw [Nat.and_mod_two_pow, Nat.mod_eq_zero_of_dvd h]
          simp
        rw [Nat.dvd_mod_iff (pow_dvd_pow 2 (Nat.sub_le _ _)), e, pow_succ]
        exact Nat.mul_dvd_mul_right hand 2
      · rw [show W - fuel = 0 by omega]
        simp

/-- `add_W(a, b) = (a + b) mod 2^W` (40_bitwise_arith.md rule R101). -/
theorem addW_eq_add {W : Nat} (a b : BitVec W) : addW a b = a + b :=
  carryLoop_eq_add W a b (by simp)

/-- The difference of 40_bitwise_arith.md rule R102. -/
theorem subW_eq_sub {W : Nat} (a b : BitVec W) : subW a b = a - b := by
  unfold subW
  rw [addW_eq_add, addW_eq_add, BitVec.sub_eq_add_neg, BitVec.neg_eq_not_add]

theorem inAddRange_iff (W : Nat) (z : Int) :
    inAddRange W z = true ↔ -2 ^ (W - 1) ≤ z ∧ z ≤ 2 ^ (W - 1) - 1 := by
  simp [inAddRange]

/-- The signed reading of an integer taken modulo `2^W` is `wrap_W` (00_scope.md rule R7). -/
theorem toInt_ofInt_eq_wrapInt (W : Nat) (hW : 1 ≤ W) (z : Int) : (BitVec.ofInt W z).toInt = wrapInt W z := by
  obtain ⟨n, rfl⟩ : ∃ n, W = n + 1 := ⟨W - 1, by omega⟩
  have hpos : (0 : Int) < 2 ^ (n + 1) := by positivity
  have hnn : 0 ≤ z % 2 ^ (n + 1) := Int.emod_nonneg _ hpos.ne'
  have hlt : z % 2 ^ (n + 1) < 2 ^ (n + 1) := Int.emod_lt_of_pos _ hpos
  have hnat : (((BitVec.ofInt (n + 1) z).toNat : Nat) : Int) = z % 2 ^ (n + 1) := by
    rw [BitVec.toNat_ofInt]
    push_cast
    rw [Int.toNat_of_nonneg hnn]
  rw [BitVec.toInt_eq_toNat_cond, hnat]
  unfold wrapInt
  simp only [Nat.add_sub_cancel]
  have e : (2 : Int) ^ (n + 1) = 2 * 2 ^ n := by ring
  have hc : (2 * (BitVec.ofInt (n + 1) z).toNat < 2 ^ (n + 1)) ↔ z % 2 ^ (n + 1) < 2 ^ n := by
    rw [← hnat]
    have : (2 : Int) ^ (n + 1) = ((2 ^ (n + 1) : Nat) : Int) := by push_cast; ring
    have h2 : (2 : Int) ^ n = ((2 ^ n : Nat) : Int) := by push_cast; ring
    rw [h2, Int.ofNat_lt, pow_succ]
    omega
  simp only [hc]
  push_cast
  rfl

/-- A signed word is in the adder's range. -/
theorem inAddRange_toInt {W : Nat} (hW : 1 ≤ W) (a : BitVec W) : inAddRange W a.toInt = true := by
  rw [inAddRange_iff]
  obtain ⟨n, rfl⟩ : ∃ n, W = n + 1 := ⟨W - 1, by omega⟩
  have h1 := BitVec.le_toInt a
  have h2 := BitVec.toInt_lt (x := a)
  simp only [Nat.add_sub_cancel] at *
  omega

/-- Wrapping a number already in range leaves it (00_scope.md rule R7). -/
theorem wrapInt_of_inRange (W : Nat) (hW : 1 ≤ W) (z : Int) (h : inAddRange W z = true) : wrapInt W z = z := by
  rw [inAddRange_iff] at h
  obtain ⟨n, rfl⟩ : ∃ n, W = n + 1 := ⟨W - 1, by omega⟩
  simp only [Nat.add_sub_cancel] at h
  have e : (2 : Int) ^ (n + 1) = 2 * 2 ^ n := by ring
  have hp : (0 : Int) < 2 ^ n := by positivity
  unfold wrapInt
  simp only [Nat.add_sub_cancel]
  by_cases hz : 0 ≤ z
  · rw [Int.emod_eq_of_lt hz (by omega), if_pos (by omega)]
  · have : z % 2 ^ (n + 1) = z + 2 ^ (n + 1) := by
      rw [← Int.add_emod_right, Int.emod_eq_of_lt (by omega) (by omega)]
    rw [this, if_neg (by omega)]
    omega

/-- The integer path of ADD and SUB: what an operation on words that is `op` modulo `2^W` answers in range. -/
theorem arithCmd_inRange (f : (W : Nat) → BitVec W → BitVec W → BitVec W) (P : Params) (r : Request)
    (ha : inAddRange P.addBits r.a = true) (hb : inAddRange P.addBits r.b = true) :
    arithCmd f P r =
      .ret (.int (f P.addBits (BitVec.ofInt P.addBits r.a) (BitVec.ofInt P.addBits r.b)).toInt) := by
  simp [arithCmd, ha, hb]

/-- Out of range in `A` or `B`, ADD and SUB raise `RANGE_ERROR` (40_bitwise_arith.md rule R100). -/
theorem arithCmd_outOfRange (f : (W : Nat) → BitVec W → BitVec W → BitVec W) (P : Params) (r : Request)
    (h : inAddRange P.addBits r.a = false ∨ inAddRange P.addBits r.b = false) :
    arithCmd f P r = .raise .rangeError := by
  unfold arithCmd
  rcases h with h | h <;> simp [h]

end Sys2Proof.Machine
end

