-- ==== Sys2Proof/Laws/Float.lean ====
section
/-! SUPPORT. What the float stages compute: the IEEE fields and values, the decimal exponent, the 6-byte float's
words (43_float.md sections 1 and 2). -/

namespace Sys2Proof.Machine

/-! ### IEEE-754 -/

theorem signFactor_eq (neg : Bool) : signFactor neg = signValue neg := rfl

theorem expField64_eq (v : Word64) : expField64 v = v.toNat / 2 ^ 52 % 2 ^ 11 := by
  simp [expField64, Nat.shiftRight_eq_div_pow]

theorem fracField64_eq (v : Word64) : fracField64 v = v.toNat % 2 ^ 52 := by
  simp [fracField64]

theorem expField32_eq (u : BitVec 32) : expField32 u = u.toNat / 2 ^ 23 % 2 ^ 8 := by
  simp [expField32, Nat.shiftRight_eq_div_pow]

theorem fracField32_eq (u : BitVec 32) : fracField32 u = u.toNat % 2 ^ 23 := by
  simp [fracField32]

theorem expField64_lt (v : Word64) : expField64 v < 2048 := (v.extractLsb' 52 11).isLt

theorem fracField64_lt (v : Word64) : fracField64 v < 2 ^ 52 := (v.extractLsb' 0 52).isLt

/-- The exact value of a finite binary64 pattern (43_float.md rule R202): its sign times its magnitude. -/
theorem binary64Decode_spec (v : Word64) :
    (expField64 v = 2047 → fracField64 v ≠ 0 → binary64Decode v.toNat = .nan) ∧
    (expField64 v = 2047 → fracField64 v = 0 → binary64Decode v.toNat = .inf (v.getLsbD 63)) ∧
    (expField64 v = 0 → fracField64 v = 0 → binary64Decode v.toNat = .zero (v.getLsbD 63)) ∧
    (expField64 v ≠ 2047 → (expField64 v ≠ 0 ∨ fracField64 v ≠ 0) →
      binary64Decode v.toNat = .fin (signValue (v.getLsbD 63) * magnitude64 v)) := by
  have hs : v.toNat.testBit (11 + 52) = v.getLsbD 63 := rfl
  unfold binary64Decode ieeeDecode
  simp only [← expField64_eq, ← fracField64_eq, hs]
  refine ⟨fun h1 h2 => ?_, fun h1 h2 => ?_, fun h1 h2 => ?_, fun h1 h2 => ?_⟩
  · simp [h1, h2]
  · simp [h1, h2]
  · simp [h1, h2]
  · rw [if_neg (by omega), if_neg (by omega), if_neg (by omega)]
    unfold magnitude64 ieeeBias binaryFraction signFactor signValue
    split
    · congr 1
      rw [mul_assoc]
      congr 1
      rw [show ((1 : Int) - (2 ^ (11 - 1) - 1)) = -1074 + 52 by norm_num, zpow_add₀ (by norm_num)]
      rw [show (2 : ℚ) ^ (52 : Int) = 2 ^ 52 by norm_cast]
      field_simp
    · congr 1
      rw [mul_assoc]
      congr 1
      rw [show ((expField64 v : Int) - (2 ^ (11 - 1) - 1)) = ((expField64 v : Int) - 1075) + 52 by ring,
        zpow_add₀ (by norm_num)]
      rw [show (2 : ℚ) ^ (52 : Int) = 2 ^ 52 by norm_cast]
      field_simp

/-- The exact value of a binary32 pattern (43_float.md rules R201, R202). -/
theorem binary32Decode_spec (u : BitVec 32) :
    (expField32 u = 255 → fracField32 u ≠ 0 → binary32Decode u.toNat = .nan) ∧
    (expField32 u = 255 → fracField32 u = 0 → binary32Decode u.toNat = .inf (u.getLsbD 31)) ∧
    (expField32 u = 0 → fracField32 u = 0 → binary32Decode u.toNat = .zero (u.getLsbD 31)) ∧
    (expField32 u = 0 → fracField32 u ≠ 0 → binary32Decode u.toNat =
      .fin (signValue (u.getLsbD 31) * fracField32 u * 2 ^ (-149 : Int))) ∧
    (expField32 u ≠ 0 → expField32 u ≠ 255 → binary32Decode u.toNat =
      .fin (signValue (u.getLsbD 31) * (2 ^ 23 + fracField32 u) * 2 ^ ((expField32 u : Int) - 150))) := by
  have hs : u.toNat.testBit (8 + 23) = u.getLsbD 31 := rfl
  unfold binary32Decode ieeeDecode
  simp only [← expField32_eq, ← fracField32_eq, hs]
  refine ⟨fun h1 h2 => ?_, fun h1 h2 => ?_, fun h1 h2 => ?_, fun h1 h2 => ?_, fun h1 h2 => ?_⟩
  · simp [h1, h2]
  · simp [h1, h2]
  · simp [h1, h2]
  · rw [if_neg (by omega), if_neg (by omega), if_neg (by omega), if_pos h1]
    unfold ieeeBias binaryFraction signFactor signValue
    congr 1
    rw [show ((1 : Int) - (2 ^ (8 - 1) - 1)) = -149 + 23 by norm_num, zpow_add₀ (by norm_num)]
    rw [show (2 : ℚ) ^ (23 : Int) = 2 ^ 23 by norm_cast]
    field_simp
  · rw [if_neg (by omega), if_neg (by omega), if_neg (by omega), if_neg h1]
    unfold ieeeBias binaryFraction signFactor signValue
    congr 1
    rw [show ((expField32 u : Int) - (2 ^ (8 - 1) - 1)) = ((expField32 u : Int) - 150) + 23 by ring,
      zpow_add₀ (by norm_num)]
    rw [show (2 : ℚ) ^ (23 : Int) = 2 ^ 23 by norm_cast]
    field_simp

theorem signValue_ne_zero (neg : Bool) : signValue neg ≠ 0 := by
  cases neg <;> simp [signValue]

theorem abs_signValue_mul (neg : Bool) (q : ℚ) : |signValue neg * q| = |q| := by
  cases neg <;> simp [signValue]

theorem magnitude64_nonneg (v : Word64) : 0 ≤ magnitude64 v := by
  unfold magnitude64
  split <;> positivity

/-- A magnitude is 0 exactly for the two zeros. -/
theorem magnitude64_eq_zero (v : Word64) : magnitude64 v = 0 ↔ expField64 v = 0 ∧ fracField64 v = 0 := by
  unfold magnitude64
  split
  · rename_i h
    simp [h]
  · rename_i h
    have h1 : (2 : ℚ) ^ ((expField64 v : Int) - 1075) ≠ 0 := by positivity
    have h2 : ((2 : ℚ) ^ 52 + (fracField64 v : ℚ)) ≠ 0 := by positivity
    simp [h, h1, h2]

/-- The least non-zero magnitude (43_float.md rule R202). -/
theorem magnitude64_ge (v : Word64) (h : magnitude64 v ≠ 0) : (2 : ℚ) ^ (-1074 : Int) ≤ magnitude64 v := by
  have hz : (0 : ℚ) < 2 ^ (-1074 : Int) := by positivity
  rw [ne_eq, magnitude64_eq_zero] at h
  unfold magnitude64
  split
  · rename_i he
    have : (1 : ℚ) ≤ fracField64 v := by
      exact_mod_cast Nat.one_le_iff_ne_zero.2 fun e => h ⟨he, e⟩
    nlinarith
  · rename_i he
    have h1 : (2 : ℚ) ^ (-1074 : Int) ≤ 2 ^ ((expField64 v : Int) - 1075) :=
      zpow_le_zpow_right₀ (by norm_num) (by omega)
    have h2 : (0 : ℚ) ≤ fracField64 v := by positivity
    have h3 : (1 : ℚ) ≤ 2 ^ 52 + fracField64 v := by linarith [show (1 : ℚ) ≤ 2 ^ 52 by norm_num]
    nlinarith

theorem two_pow_lt (a b : ℕ) (h : a < b) : (2 : ℚ) ^ a < 2 ^ b := pow_lt_pow_right₀ (by norm_num) h

theorem two_pow_split (a b c : ℕ) (h : a = b + c) : (2 : ℚ) ^ a = 2 ^ b * 2 ^ c := by rw [h, pow_add]

/-- A finite magnitude is below `2^1024` (43_float.md rule R202). -/
theorem magnitude64_lt (v : Word64) (N : ℕ) (hN : N = 1024) (h : expField64 v ≠ 2047) :
    magnitude64 v < (2 : ℚ) ^ N := by
  have hf : (fracField64 v : ℚ) < 2 ^ 52 := by exact_mod_cast fracField64_lt v
  have he := expField64_lt v
  unfold magnitude64
  split
  · have h1 : (2 : ℚ) ^ (-1074 : Int) ≤ 1 := zpow_le_one_of_nonpos₀ (by norm_num) (by norm_num)
    have h2 : (0 : ℚ) < 2 ^ (-1074 : Int) := by positivity
    have h3 : (2 : ℚ) ^ 52 < 2 ^ N := two_pow_lt 52 N (by omega)
    exact lt_of_le_of_lt (mul_le_of_le_one_right (by positivity) h1) (hf.trans h3)
  · have h1 : (2 : ℚ) ^ ((expField64 v : Int) - 1075) ≤ 2 ^ (971 : Int) :=
      zpow_le_zpow_right₀ (by norm_num) (by omega)
    have h2 : (0 : ℚ) < 2 ^ ((expField64 v : Int) - 1075) := by positivity
    have h3 : (2 : ℚ) ^ N = 2 ^ 53 * 2 ^ (971 : Int) := by
      rw [two_pow_split N 53 (N - 53) (by omega), ← zpow_natCast 2 (N - 53),
        show ((N - 53 : ℕ) : Int) = 971 by omega]
    rw [h3]
    have h4 : (0 : ℚ) < 2 ^ (971 : Int) := by positivity
    clear h3
    generalize (2 : ℚ) ^ (971 : Int) = T at h1 h4 ⊢
    calc (2 ^ 52 + (fracField64 v : ℚ)) * 2 ^ ((expField64 v : Int) - 1075)
        ≤ (2 ^ 52 + (fracField64 v : ℚ)) * T := by
          apply mul_le_mul_of_nonneg_left h1
          positivity
      _ < 2 ^ 53 * T := by
          apply mul_lt_mul_of_pos_right _ h4
          linarith [show (2 : ℚ) ^ 53 = 2 ^ 52 + 2 ^ 52 by norm_num]

/-! ### The decimal exponent -/

/-- `floorLog10` is the greatest `k` with `10^k <= q` (43_float.md rule R194). -/
theorem floorLog10_spec (q : ℚ) (h : 0 < q) :
    (10 : ℚ) ^ floorLog10 q ≤ q ∧ q < (10 : ℚ) ^ (floorLog10 q + 1) := by
  unfold floorLog10
  split
  · rename_i h1
    rw [show q.floor = ⌊q⌋ from rfl]
    obtain ⟨k1, k2, k3⟩ := ku_spec ⌊q⌋.toNat 10 (by norm_num)
    have hfl : 1 ≤ ⌊q⌋ := Int.le_floor.2 (by exact_mod_cast h1)
    obtain ⟨k, hk⟩ : ∃ k, ku ⌊q⌋.toNat 10 = k + 1 := ⟨ku ⌊q⌋.toNat 10 - 1, by omega⟩
    rw [hk] at k2 k3 ⊢
    constructor
    · have : 10 ^ k ≤ ⌊q⌋.toNat := by
        by_cases e : k = 0
        · subst e
          simp
          omega
        · exact k3 k (by omega) (by omega)
      have h2 : ((10 ^ k : Nat) : Int) ≤ ⌊q⌋ := by omega
      have h3 : ((10 ^ k : Nat) : ℚ) ≤ q := by
        have := Int.le_floor.1 h2
        exact_mod_cast this
      rw [show (((k + 1 : Nat) : Int) - 1) = (k : Int) by push_cast; ring, zpow_natCast]
      exact_mod_cast h3
    · have h2 : ⌊q⌋ < ((10 ^ (k + 1) : Nat) : Int) := by omega
      have h3 : q < ((10 ^ (k + 1) : Nat) : ℚ) := by
        have := Int.floor_lt.1 h2
        exact_mod_cast this
      rw [show (((k + 1 : Nat) : Int) - 1 + 1) = ((k + 1 : Nat) : Int) by ring, zpow_natCast]
      exact_mod_cast h3
  · rename_i h1
    have hden : (q.den : ℚ) ≠ 0 := by exact_mod_cast q.den_nz
    have hone : 1 ≤ q * q.den := by
      rw [Rat.mul_den_eq_num]
      have : 0 < q.num := Rat.num_pos.2 h
      exact_mod_cast this
    have key : 1 ≤ q * 10 ^ (q.den.log2 + 1) := by
      have h2 : (q.den : ℚ) ≤ 10 ^ (q.den.log2 + 1) := by
        have a : q.den < 2 ^ (q.den.log2 + 1) := Nat.lt_log2_self
        have b : 2 ^ (q.den.log2 + 1) ≤ 10 ^ (q.den.log2 + 1) := Nat.pow_le_pow_left (by norm_num) _
        exact_mod_cast (lt_of_lt_of_le a b).le
      nlinarith
    obtain ⟨l1, l2, l3⟩ := leastFrom_spec (fun j => decide (1 ≤ q * 10 ^ j)) (q.den.log2 + 1) 1
      ⟨q.den.log2 + 1, by omega, by omega, by simpa using key⟩
    generalize leastFrom (fun j => decide (1 ≤ q * 10 ^ j)) (q.den.log2 + 1) 1 = j at *
    obtain ⟨k, rfl⟩ : ∃ k, j = k + 1 := ⟨j - 1, by omega⟩
    have l2 : 1 ≤ q * 10 ^ (k + 1) := by simpa using l2
    have hp : (0 : ℚ) < 10 ^ (k + 1) := by positivity
    constructor
    · rw [zpow_neg, zpow_natCast, inv_le_iff_one_le_mul₀ hp]
      exact l2
    · rw [show (-((k + 1 : Nat) : Int) + 1) = -(k : Int) by push_cast; ring, zpow_neg, zpow_natCast,
        lt_inv_comm₀ h (by positivity)]
      by_cases e : k = 0
      · subst e
        rw [pow_zero, one_lt_inv₀ h]
        linarith
      · have := l3 k (by omega) (by omega)
        simp only [decide_eq_false_iff_not, not_le] at this
        rw [← one_div, lt_div_iff₀ h, mul_comm]
        exact this

/-- Only one integer brackets a number between two powers of ten. -/
theorem zpow_ten_unique (q : ℚ) (a b : Int) (ha : (10 : ℚ) ^ a ≤ q) (ha' : q < 10 ^ (a + 1))
    (hb : (10 : ℚ) ^ b ≤ q) (hb' : q < 10 ^ (b + 1)) : a = b := by
  have h1 : a < b + 1 := (zpow_lt_zpow_iff_right₀ (by norm_num : (1 : ℚ) < 10)).1 (lt_of_le_of_lt ha hb')
  have h2 : b < a + 1 := (zpow_lt_zpow_iff_right₀ (by norm_num : (1 : ℚ) < 10)).1 (lt_of_le_of_lt hb ha')
  omega

theorem ten_pow_324 : (2 : ℕ) ^ 1074 < 10 ^ 324 := by decide +kernel

theorem ten_pow_309 : (2 : ℕ) ^ 1024 < 10 ^ 309 := by decide +kernel

/-- A comparison of powers of naturals, over the rationals. -/
theorem pow_lt_pow_cast (a b m n : ℕ) (h : a ^ m < b ^ n) : (a : ℚ) ^ m < (b : ℚ) ^ n := by
  exact_mod_cast h

/-- The decimal exponent of a finite non-zero binary64 magnitude lies in `[-324, 308]`: the clamp never acts
(43_float.md rule R194). -/
theorem floorLog10_bounds (v : Word64) (h : expField64 v ≠ 2047) (hz : magnitude64 v ≠ 0) :
    -324 ≤ floorLog10 (magnitude64 v) ∧ floorLog10 (magnitude64 v) ≤ 308 := by
  have hpos : 0 < magnitude64 v := lt_of_le_of_ne (magnitude64_nonneg v) (Ne.symm hz)
  obtain ⟨h1, h2⟩ := floorLog10_spec _ hpos
  constructor
  · have h3 : (10 : ℚ) ^ (-324 : Int) < 2 ^ (-1074 : Int) := by
      have h5 : (10 : ℚ) ^ (324 : Int) = (10 : ℚ) ^ 324 := zpow_natCast 10 324
      have h6 : (2 : ℚ) ^ (1074 : Int) = (2 : ℚ) ^ 1074 := zpow_natCast 2 1074
      rw [zpow_neg, zpow_neg, h5, h6]
      exact inv_strictAnti₀ (by positivity) (pow_lt_pow_cast 2 10 1074 324 ten_pow_324)
    have h4 := lt_of_lt_of_le (lt_of_lt_of_le h3 (magnitude64_ge v hz)) h2.le
    have := (zpow_lt_zpow_iff_right₀ (by norm_num : (1 : ℚ) < 10)).1 h4
    omega
  · have h3 : (2 : ℚ) ^ 1024 < 10 ^ (309 : Int) := by
      have h5 : (10 : ℚ) ^ (309 : Int) = (10 : ℚ) ^ 309 := zpow_natCast 10 309
      rw [h5]
      exact pow_lt_pow_cast 2 10 1024 309 ten_pow_309
    have h4 := lt_trans (lt_of_le_of_lt h1 (magnitude64_lt v 1024 rfl h)) h3
    have := (zpow_lt_zpow_iff_right₀ (by norm_num : (1 : ℚ) < 10)).1 h4
    omega

theorem f6Clamp_eq (c : F6ExpCoding) (e : Int) (h1 : -16383 ≤ e) (h2 : e ≤ 16383) : f6Clamp c e = e := by
  unfold f6Clamp f6Emin f6Emax
  cases c <;> simp only <;> omega

/-! ### The words of the 6-byte float -/

/-- `expfield` fits 15 bits and is the spec's (43_float.md rule R192). -/
theorem f6ExpField_spec (c : F6ExpCoding) (e : Int) (h1 : -16383 ≤ e) (h2 : e ≤ 16383) :
    (f6ExpField c e : Int) = expFieldSpec c e ∧ f6ExpField c e < 2 ^ 15 := by
  cases c
  · unfold f6ExpField expFieldSpec
    simp only
    split <;> omega
  · unfold f6ExpField expFieldSpec
    simp only
    omega

/-- `expval` is the spec's (43_float.md rule R192). -/
theorem f6ExpVal_spec (c : F6ExpCoding) (ef : Nat) (h : ef < 2 ^ 15) : f6ExpVal c ef = expValSpec c ef := by
  have ht : ef.testBit 14 = decide (¬ ef < 2 ^ 14) := by
    rw [Nat.testBit_eq_decide_div_mod_eq]
    congr 1
    apply propext
    omega
  by_cases hlt : ef < 2 ^ 14
  · cases c <;> simp [f6ExpVal, expValSpec, ht] <;> omega
  · cases c <;> simp [f6ExpVal, expValSpec, ht] <;> omega

/-- An exponent in range is read back from its field (43_float.md rule R192). -/
theorem f6ExpVal_f6ExpField (c : F6ExpCoding) (e : Int) (h1 : -16383 ≤ e) (h2 : e ≤ 16383) :
    f6ExpVal c (f6ExpField c e) = e := by
  obtain ⟨a, b⟩ := f6ExpField_spec c e h1 h2
  rw [f6ExpVal_spec c _ b]
  generalize f6ExpField c e = n at *
  cases c
  · unfold expFieldSpec at a
    unfold expValSpec
    simp only at a ⊢
    split at a <;> split <;> omega
  · unfold expFieldSpec at a
    unfold expValSpec
    simp only at a ⊢
    split <;> omega

/-- The first word of a packed 6-byte float (43_float.md rule R191). -/
theorem f6Word16_f6Pack (c : F6ExpCoding) (sgn : Bool) (e : Int) (frac : Nat) (h1 : -16383 ≤ e)
    (h2 : e ≤ 16383) :
    f6Word16 (f6Pack c sgn e frac) = (if sgn then 2 ^ 15 else 0) + f6ExpField c e := by
  have hb := (f6ExpField_spec c e h1 h2).2
  unfold f6Word16 f6Pack
  simp only [List.getD_cons_zero, List.getD_cons_succ, BitVec.toNat_ofNat]
  generalize f6ExpField c e = n at *
  cases sgn <;> simp only [if_true, if_false, Bool.false_eq_true] <;> omega

/-- The second word of a packed 6-byte float (43_float.md rule R191). -/
theorem f6Word32_f6Pack (c : F6ExpCoding) (sgn : Bool) (e : Int) (frac : Nat) (h : frac < 2 ^ 32) :
    f6Word32 (f6Pack c sgn e frac) = frac := by
  unfold f6Word32 f6Pack
  simp only [List.getD_cons_zero, List.getD_cons_succ, BitVec.toNat_ofNat]
  omega

@[simp] theorem f6Pack_length (c : F6ExpCoding) (sgn : Bool) (e : Int) (frac : Nat) :
    (f6Pack c sgn e frac).length = 6 := rfl

/-- The fraction field is a 31-bit number (43_float.md rule R194). -/
theorem f6Frac_le (q : ℚ) (e : Int) : f6Frac q e ≤ f6K := Nat.min_le_right _ _

/-- Below 1 the saturation does not act: the fraction is the floor itself (43_float.md rule R194). -/
theorem f6Frac_eq (q : ℚ) (e : Int) (h0 : 0 ≤ q) (h : q < 10 ^ e) :
    (f6Frac q e : Int) = ⌊q / 10 ^ e * (2 ^ 31 - 1)⌋ := by
  have hp : (0 : ℚ) < 10 ^ e := by positivity
  have hm0 : 0 ≤ q / 10 ^ e := by positivity
  have hm1 : q / 10 ^ e < 1 := (div_lt_one hp).2 h
  have hk : ((f6K : Nat) : ℚ) = 2 ^ 31 - 1 := by norm_num [f6K]
  unfold f6Frac
  rw [hk]
  change ((min ⌊q / 10 ^ e * (2 ^ 31 - 1)⌋.toNat f6K : Nat) : Int) = _
  have h1 : 0 ≤ ⌊q / 10 ^ e * (2 ^ 31 - 1)⌋ := Int.floor_nonneg.2 (by nlinarith)
  have h2 : ⌊q / 10 ^ e * (2 ^ 31 - 1)⌋ < (f6K : Int) := by
    rw [Int.floor_lt]
    push_cast
    rw [hk]
    nlinarith
  omega

end Sys2Proof.Machine
end

