-- ==== Sys2Proof/Laws/BinaryPoint.lean ====
section
/-! SUPPORT. What the binary-fraction helpers compute: the doubling loop, the binary-point grammar, the leading one
(43_float.md section 3). -/

namespace Sys2Proof.Machine

/-- The doubling loop (43_float.md rule R214): the digits `d` and the remainder satisfy
`f * 2^len(d) = bitval(d) + remainder`, and the loop stops early only at remainder 0. -/
theorem fracLoop_spec (fuel : Nat) (f : ℚ) (h0 : 0 ≤ f) (h1 : f < 1) :
    isBits (fracLoop fuel f).1 = true ∧ (fracLoop fuel f).1.length ≤ fuel ∧
      0 ≤ (fracLoop fuel f).2 ∧ (fracLoop fuel f).2 < 1 ∧
      f * 2 ^ (fracLoop fuel f).1.length = bitval (fracLoop fuel f).1 + (fracLoop fuel f).2 ∧
      ((fracLoop fuel f).2 ≠ 0 → (fracLoop fuel f).1.length = fuel) ∧
      ((fracLoop fuel f).2 = 0 →
        (fracLoop fuel f).1 = [] ∨ (fracLoop fuel f).1.getLast? = some chr1) := by
  induction fuel generalizing f with
  | zero => simp [fracLoop, isBits, bitval, h0, h1]
  | succ fuel ih =>
    unfold fracLoop
    split
    · rename_i hf
      simp [isBits, bitval, hf]
    · rename_i hf
      split
      · rename_i h2
        obtain ⟨a, b, c, d, e, g, k⟩ := ih (2 * f - 1) (by linarith) (by linarith)
        generalize fracLoop fuel (2 * f - 1) = run at *
        refine ⟨?_, by simpa using b, c, d, ?_, fun hr => by simp [g hr], fun hr => .inr ?_⟩
        · unfold isBits at a ⊢
          simp [a, isBit]
        · simp only [List.length_cons, bitval, show bitDigit chr1 = 1 from rfl]
          push_cast
          rw [pow_succ]
          linarith
        · rcases k hr with k | k
          · simp [k]
          · simp [List.getLast?_cons, k]
      · rename_i h2
        obtain ⟨a, b, c, d, e, g, k⟩ := ih (2 * f) (by linarith) (by linarith)
        generalize fracLoop fuel (2 * f) = run at *
        refine ⟨?_, by simpa using b, c, d, ?_, fun hr => by simp [g hr], fun hr => ?_⟩
        · unfold isBits at a ⊢
          simp [a, isBit]
        · simp only [List.length_cons, bitval, show bitDigit chr0 = 0 from rfl]
          push_cast
          rw [pow_succ]
          linarith
        · rcases k hr with k | k
          · exfalso
            rw [k] at e
            simp [bitval] at e
            exact hf (by linarith)
          · right
            simp [List.getLast?_cons, k]

theorem takeWhile_bits (ip : Text) (c : Byte) (fp : Text) (h : isBits ip = true) (hc : isBit c = false) :
    (ip ++ c :: fp).takeWhile isBit = ip ∧ (ip ++ c :: fp).dropWhile isBit = c :: fp := by
  induction ip with
  | nil => simp [hc]
  | cons a as ih =>
    simp only [isBits, List.all_cons, Bool.and_eq_true] at h
    obtain ⟨i1, i2⟩ := ih h.2
    simp [h.1, i1, i2]

theorem takeWhile_bits_all (ip : Text) (h : isBits ip = true) :
    ip.takeWhile isBit = ip ∧ ip.dropWhile isBit = [] := by
  induction ip with
  | nil => simp
  | cons a as ih =>
    simp only [isBits, List.all_cons, Bool.and_eq_true] at h
    obtain ⟨i1, i2⟩ := ih h.2
    simp [h.1, i1, i2]

/-- The grammar of 43_float.md rule R213: `splitPoint` finds the two parts, and no others fit. -/
theorem splitPoint_iff (t ip fp : Text) : splitPoint t = some (ip, fp) ↔ IsBinaryPoint t ip fp := by
  have hdot : isBit chrDot = false := by decide
  constructor
  · intro h
    have happ := List.takeWhile_append_dropWhile (p := isBit) (l := t)
    have hbits : isBits (t.takeWhile isBit) = true := by
      unfold isBits
      rw [List.all_eq_true]
      intro c hc
      exact List.mem_takeWhile_imp hc
    unfold splitPoint at h
    simp only at h
    split at h
    · cases h
    · rename_i hne
      split at h
      · rename_i hd
        cases h
        rw [hd, List.append_nil] at happ
        exact ⟨hne, (isBits_iff _).1 hbits, by simp [IsBitString], .inl ⟨happ.symm, rfl⟩⟩
      · rename_i c fp' hd
        split at h
        · rename_i hc
          cases h
          rw [hd, hc.1] at happ
          exact ⟨hne, (isBits_iff _).1 hbits, (isBits_iff _).1 hc.2, .inr happ.symm⟩
        · cases h
  · rintro ⟨hne, hi, hf, ⟨rfl, rfl⟩ | rfl⟩
    · obtain ⟨h1, h2⟩ := takeWhile_bits_all t ((isBits_iff _).2 hi)
      simp [splitPoint, h1, h2, hne]
    · obtain ⟨h1, h2⟩ := takeWhile_bits ip chrDot fp ((isBits_iff _).2 hi) hdot
      change splitPoint (ip ++ chrDot :: fp) = _
      simp [splitPoint, h1, h2, hne, (isBits_iff _).2 hf]

theorem splitPoint_none_iff (t : Text) : splitPoint t = none ↔ ∀ ip fp, ¬ IsBinaryPoint t ip fp := by
  constructor
  · intro h ip fp hb
    rw [(splitPoint_iff t ip fp).2 hb] at h
    cases h
  · intro h
    cases hs : splitPoint t with
    | none => rfl
    | some p => exact absurd ((splitPoint_iff t p.1 p.2).1 hs) (h _ _)

/-- A mantissa has the width asked for and is the digits after the leading one, padded (43_float.md rule R216). -/
theorem fitMantissa_eq (M : Nat) (tail : Text) :
    fitMantissa M tail = (tail ++ List.replicate M chr0).take M := by
  unfold fitMantissa
  split
  · rename_i h
    rw [List.take_append_of_le_length h]
  · rename_i h
    rw [List.take_append, List.take_of_length_le (by omega), List.take_replicate]
    congr 2
    omega

@[simp] theorem fitMantissa_length (M : Nat) (tail : Text) : (fitMantissa M tail).length = M := by
  rw [fitMantissa_eq]
  simp

/-- A bit-string is all zeros, or zeros before its leading one. -/
theorem leading_one (d : Text) (h : isBits d = true) :
    (∀ c ∈ d, c = chr0) ∨ ∃ zeros tail, d = zeros ++ chr1 :: tail ∧ ∀ c ∈ zeros, c = chr0 := by
  induction d with
  | nil => simp
  | cons a as ih =>
    simp only [isBits, List.all_cons, Bool.and_eq_true] at h
    rcases (isBit_iff a).1 h.1 with rfl | rfl
    · rcases ih h.2 with h0 | ⟨zeros, tail, rfl, hz⟩
      · exact .inl (by simpa [chr0] using h0)
      · exact .inr ⟨0x30#8 :: zeros, tail, rfl, by simpa [chr0] using hz⟩
    · exact .inr ⟨[], as, rfl, by simp⟩

/-- NORMBP's payload for a value of 0 (43_float.md rule R216). -/
theorem normPayload_zero (ip fp : Text) (M : Nat) (h : ∀ c ∈ ip ++ fp, c = chr0) :
    normPayload ip fp M = .norm true 0 (List.replicate M chr0) := by
  have : (ip ++ fp).findIdx? (· == chr1) = none := by
    rw [List.findIdx?_eq_none_iff]
    intro c hc
    rw [h c hc]
    decide
  simp [normPayload, this]

/-- NORMBP's payload for digits with a leading one (43_float.md rule R216). -/
theorem normPayload_one (ip fp zeros tail : Text) (M : Nat) (h : ip ++ fp = zeros ++ chr1 :: tail)
    (hz : ∀ c ∈ zeros, c = chr0) :
    normPayload ip fp M = .norm false ((ip.length : Int) - 1 - zeros.length) (fitMantissa M tail) := by
  have hf : (zeros ++ chr1 :: tail).findIdx? (· == chr1) = some zeros.length := by
    rw [List.findIdx?_append]
    have : zeros.findIdx? (· == chr1) = none := by
      rw [List.findIdx?_eq_none_iff]
      intro c hc
      rw [hz c hc]
      decide
    simp [this, List.findIdx?_cons]
  unfold normPayload
  rw [h, hf]
  simp only
  congr 1
  rw [show zeros ++ chr1 :: tail = (zeros ++ [chr1]) ++ tail by simp]
  rw [List.drop_left' (by simp)]

/-- The integer part's text: a bit-string with the number's value that starts with `'1'`, or `"0"`
(43_float.md rule R214). -/
theorem integerText_spec (u : Nat) :
    isBits (integerText u) = true ∧ bitval (integerText u) = u ∧ (u = 0 → integerText u = [chr0]) ∧
      (u ≠ 0 → integerText u = bits (bitWidth u) u) := by
  unfold integerText
  by_cases h : u = 0
  · subst h
    exact ⟨by decide, by decide, fun _ => rfl, fun h => absurd rfl h⟩
  · rw [if_neg h]
    exact ⟨bits_isBits _ _, by rw [bitval_bits, Nat.mod_eq_of_lt (bitWidth_spec u h).2.1], fun e => absurd e h,
      fun _ => rfl⟩

end Sys2Proof.Machine
end

