-- ==== Sys2Proof/Laws/Endian.lean ====
section
/-! SUPPORT. What the stages of the endian integer codec compute: digits written, digits read back, the
two's-complement correction (42_endian_int.md section 1). -/

namespace Sys2Proof.Machine

theorem digitOf_false (b : Byte) : digitOf false b = b.toNat := rfl

/-- The masked digit is the byte modulo 128 (42_endian_int.md rule R158). -/
theorem digitOf_true (b : Byte) : digitOf true b = b.toNat % 128 := by
  simp only [digitOf, if_true, BitVec.toNat_and, BitVec.toNat_ofNat]
  rw [show (0x7F % 2 ^ 8 : Nat) = 2 ^ 7 - 1 by norm_num, Nat.and_two_pow_sub_one_eq_mod]

theorem digitOf_lt (Y : Bool) (b : Byte) : digitOf Y b < radix Y := by
  cases Y
  · exact b.isLt
  · rw [digitOf_true]
    exact Nat.mod_lt _ (by norm_num)

theorem radix_ge_two (Y : Bool) : 2 ≤ radix Y := by
  cases Y <;> simp [radix]

theorem radix_le (Y : Bool) : radix Y ≤ 256 := by
  cases Y <;> simp [radix]

/-- The accumulated value of `n` digits is below `base^n`. -/
theorem decBe_lt (Y : Bool) (x : List Byte) : decBe (radix Y) Y x < radix Y ^ x.length := by
  induction x with
  | nil => simp [decBe]
  | cons b bs ih =>
    simp only [decBe, List.length_cons, pow_succ]
    have := digitOf_lt Y b
    nlinarith [pow_pos (show 0 < radix Y by have := radix_ge_two Y; omega) bs.length]

theorem decBe_append (base : Nat) (Y : Bool) (x y : List Byte) :
    decBe base Y (x ++ y) = decBe base Y x * base ^ y.length + decBe base Y y := by
  induction x with
  | nil => simp [decBe]
  | cons b bs ih =>
    simp only [List.cons_append, decBe, List.length_append, ih, pow_add]
    ring

theorem digitSum_cons (base d : Nat) (ds : List Nat) :
    digitSum base (d :: ds) = d * base ^ ds.length + digitSum base ds := by
  unfold digitSum
  rw [List.length_cons, Finset.sum_range_succ']
  simp only [List.getD_cons_succ, List.getD_cons_zero, Nat.add_sub_cancel, Nat.sub_zero]
  rw [add_comm]
  congr 1
  refine Finset.sum_congr rfl fun i _ => ?_
  rw [show ds.length - (i + 1) = ds.length - 1 - i by omega]

/-- `dec_be` is the sum of 42_endian_int.md rule R158. -/
theorem decBe_eq_digitSum (base : Nat) (Y : Bool) (x : List Byte) :
    decBe base Y x = digitSum base (x.map (digitOf Y)) := by
  induction x with
  | nil => simp [decBe, digitSum]
  | cons b bs ih => rw [List.map_cons, digitSum_cons, decBe, ih, List.length_map]

/-- Unsigned big-endian accumulation is the bytes' value. -/
theorem decBe_eq_byteSum (x : List Byte) : decBe 256 false x = byteSum x := by
  rw [decBe_eq_digitSum]
  rfl

/-- The unsigned value whose digits `enc_be` writes (42_endian_int.md rule R156). -/
def encValue (x : Int) (w : Nat) (S : Bool) : Nat := (if S then x % 2 ^ (8 * w) else x).toNat

theorem encBe_eq (x : Int) (w base : Nat) (S : Bool) :
    encBe x w base S =
      (List.range w).map fun i => BitVec.ofNat 8 (encValue x w S / base ^ (w - 1 - i) % base) := rfl

@[simp] theorem encBe_length (x : Int) (w base : Nat) (S : Bool) : (encBe x w base S).length = w := by
  simp [encBe_eq]

/-- The digits written by `enc_be`, read as numbers. -/
theorem encBe_digits (x : Int) (w base : Nat) (S : Bool) (h0 : 0 < base) (hb : base ≤ 256) :
    (encBe x w base S).map BitVec.toNat =
      (List.range w).map fun i => encValue x w S / base ^ (w - 1 - i) % base := by
  rw [encBe_eq, List.map_map]
  refine List.map_congr_left fun i _ => ?_
  have := Nat.mod_lt (encValue x w S / base ^ (w - 1 - i)) h0
  simp only [Function.comp_apply, BitVec.toNat_ofNat]
  exact Nat.mod_eq_of_lt (by omega)

/-- Every byte written is below the base: under synchsafe its top bit is clear (42_endian_int.md rule R156). -/
theorem encBe_lt (x : Int) (w base : Nat) (S : Bool) (h0 : 0 < base) (hb : base ≤ 256) :
    ∀ b ∈ encBe x w base S, b.toNat < base := by
  intro b hmem
  have : b.toNat ∈ (encBe x w base S).map BitVec.toNat := List.mem_map_of_mem hmem
  rw [encBe_digits x w base S h0 hb, List.mem_map] at this
  obtain ⟨i, _, hi⟩ := this
  rw [← hi]
  exact Nat.mod_lt _ h0

/-- The `w` base-`base` digits of a number, most significant first, sum to the number modulo `base^w`. -/
theorem digitSum_digits (base w u : Nat) :
    digitSum base ((List.range w).map fun i => u / base ^ (w - 1 - i) % base) = u % base ^ w := by
  induction w with
  | zero => simp [digitSum, Nat.mod_one]
  | succ w ih =>
    rw [List.range_succ_eq_map, List.map_cons, digitSum_cons]
    simp only [List.map_map, List.length_map, List.length_range, Nat.add_sub_cancel, Nat.sub_zero]
    have e : (List.range w).map ((fun i => u / base ^ (w - i) % base) ∘ Nat.succ) =
        (List.range w).map fun i => u / base ^ (w - 1 - i) % base := by
      refine List.map_congr_left fun i _ => ?_
      simp only [Function.comp_apply]
      rw [show w - i.succ = w - 1 - i by omega]
    rw [e, ih, pow_succ, Nat.mod_mul]
    ring

/-- What `enc_be` writes sums to the value it was given, modulo `base^w` (42_endian_int.md rule R156). -/
theorem digitSum_encBe (x : Int) (w base : Nat) (S : Bool) (h0 : 0 < base) (hb : base ≤ 256) :
    digitSum base ((encBe x w base S).map BitVec.toNat) = encValue x w S % base ^ w := by
  rw [encBe_digits x w base S h0 hb, digitSum_digits]

/-- `dec_be` reads back what `enc_be` wrote; masking is a no-op on digits below 128
(42_endian_int.md rule R178). -/
theorem decBe_encBe (x : Int) (w : Nat) (Y S : Bool) :
    decBe (radix Y) Y (encBe x w (radix Y) S) = encValue x w S % radix Y ^ w := by
  have h2 := radix_ge_two Y
  rw [decBe_eq_digitSum, ← digitSum_encBe x w (radix Y) S (by omega) (radix_le Y)]
  congr 1
  refine List.map_congr_left fun b hb => ?_
  have := encBe_lt x w (radix Y) S (by omega) (radix_le Y) b hb
  cases Y
  · rfl
  · rw [digitOf_true]
    exact Nat.mod_eq_of_lt this

theorem inOrder_inOrder (E : Bool) (b : List Byte) : inOrder E (inOrder E b) = b := by
  cases E <;> simp [inOrder]

@[simp] theorem inOrder_length (E : Bool) (b : List Byte) : (inOrder E b).length = b.length := by
  cases E <;> simp [inOrder]

/-- The two's-complement stage of a byte sequence's value is its signed value (42_endian_int.md rule R157). -/
theorem tcDecode_decBe (x : List Byte) : tcDecode (decBe 256 false x) x.length = signedSum x := by
  rw [decBe_eq_byteSum]
  unfold tcDecode signedSum
  have : x.length ≥ 1 ↔ x ≠ [] := by
    rw [ge_iff_le, Nat.one_le_iff_ne_zero, ne_eq, List.length_eq_zero_iff]
  simp only [this]

/-- The two's-complement pattern of a number in the signed range of `w` bytes decodes to the number
(42_endian_int.md rule R178). -/
theorem tcDecode_pattern (x : Int) (w : Nat) (hw : 1 ≤ w) (h : InSignedBytes w x) :
    tcDecode (encValue x w true) w = x := by
  obtain ⟨n, hn⟩ : ∃ n, 8 * w = n + 1 := ⟨8 * w - 1, by omega⟩
  unfold InSignedBytes at h
  unfold tcDecode encValue
  rw [hn] at h ⊢
  simp only [Nat.add_sub_cancel, if_true] at h ⊢
  have e : (2 : Int) ^ (n + 1) = 2 * 2 ^ n := by ring
  have hp : (0 : Int) < 2 ^ n := by positivity
  have hc : ((2 ^ n : Nat) : Int) = 2 ^ n := by push_cast; ring
  by_cases hz : 0 ≤ x
  · rw [Int.emod_eq_of_lt hz (by omega), if_neg (by omega)]
    omega
  · have hm : x % 2 ^ (n + 1) = x + 2 ^ (n + 1) := by
      rw [← Int.add_emod_right, Int.emod_eq_of_lt (by omega) (by omega)]
    rw [hm, if_pos ⟨hw, by omega⟩]
    omega

/-- The value `enc_be` is given is below `256^w` when signed. -/
theorem encValue_signed_lt (x : Int) (w : Nat) : encValue x w true < 256 ^ w := by
  have hp : (0 : Int) < 2 ^ (8 * w) := by positivity
  have h1 := Int.emod_nonneg x hp.ne'
  have h2 := Int.emod_lt_of_pos x hp
  have e : (256 : Nat) ^ w = 2 ^ (8 * w) := by rw [pow_mul]; norm_num
  unfold encValue
  simp only [if_true]
  rw [e]
  have : ((2 ^ (8 * w) : Nat) : Int) = 2 ^ (8 * w) := by push_cast; ring
  omega

/-- What ENCINT answers when it accepts its operands (42_endian_int.md section 2). -/
theorem encint_accepts (E Y S : Bool) (P : Params) (r : Request) (hc : ¬(Y = true ∧ S = true)) (hb : 0 ≤ r.b)
    (ha : S = true ∨ 0 ≤ r.a) (hw : max (leastWidth Y S r.a) r.b.toNat ≤ widthLimit P S) :
    encint E Y S P r =
      .ret (.bytes (inOrder E (encBe r.a (max (leastWidth Y S r.a) r.b.toNat) (radix Y) S))) := by
  unfold encint
  rw [if_neg hc, if_neg (by omega), if_neg (by rcases ha with h | h <;> simp [h])]
  simp only
  rw [if_neg (by omega)]

/-- When ENCINT answers bytes, its operands were accepted. -/
theorem encint_bytes (E Y S : Bool) (P : Params) (r : Request) (d : List Byte)
    (h : encint E Y S P r = .ret (.bytes d)) :
    ¬(Y = true ∧ S = true) ∧ 0 ≤ r.b ∧ (S = true ∨ 0 ≤ r.a) ∧
      max (leastWidth Y S r.a) r.b.toNat ≤ widthLimit P S ∧
      d = inOrder E (encBe r.a (max (leastWidth Y S r.a) r.b.toNat) (radix Y) S) := by
  unfold encint at h
  split at h
  · cases h
  · rename_i h1
    split at h
    · cases h
    · rename_i h2
      split at h
      · cases h
      · rename_i h3
        simp only at h
        split at h
        · cases h
        · rename_i h4
          cases h
          refine ⟨h1, by omega, ?_, by omega, rfl⟩
          cases S
          · right
            simp at h3
            exact h3
          · left
            rfl

/-- ENCINT either answers bytes or raises an error. -/
theorem encint_cases (E Y S : Bool) (P : Params) (r : Request) :
    (∃ d, encint E Y S P r = .ret (.bytes d)) ∨ ∃ e, encint E Y S P r = .raise e := by
  unfold encint
  split
  · exact .inr ⟨_, rfl⟩
  · split
    · exact .inr ⟨_, rfl⟩
    · split
      · exact .inr ⟨_, rfl⟩
      · simp only
        split
        · exact .inr ⟨_, rfl⟩
        · exact .inl ⟨_, rfl⟩

/-- What DECINT answers when it accepts its operand (42_endian_int.md section 3). -/
theorem decint_accepts (E Y S : Bool) (P : Params) (r : Request) (hc : ¬(Y = true ∧ S = true))
    (hx : r.x.length ≤ P.bytesMax) (hl : r.x.length ≤ widthLimit P S) :
    decint E Y S P r =
      .ret (.int (if S then tcDecode (decBe (radix Y) Y (inOrder E r.x)) r.x.length
        else decBe (radix Y) Y (inOrder E r.x))) := by
  unfold decint
  rw [if_neg hc, withX_eq _ _ _ hx, if_neg (by omega)]

/-- DECINT raises `INVALID_LENGTH` on too many bytes (42_endian_int.md rule R158). -/
theorem decint_long (E Y S : Bool) (P : Params) (r : Request) (hc : ¬(Y = true ∧ S = true))
    (h : P.bytesMax < r.x.length ∨ widthLimit P S < r.x.length) :
    decint E Y S P r = .raise .invalidLength := by
  unfold decint
  rw [if_neg hc]
  by_cases hx : P.bytesMax < r.x.length
  · exact withX_long _ _ _ hx
  · rw [withX_eq _ _ _ (by omega), if_pos (by omega)]

end Sys2Proof.Machine
end

