-- ==== Sys2Proof/Laws/BinaryString.lean ====
section
/-! SUPPORT. What the texts of the binary-string converter are (41_binary_string.md). -/

namespace Sys2Proof.Machine

/-- The texts of bytes written 8 bits each, most significant first, have the value of the bytes. -/
theorem flatMap_bits8 (d : List Nat) (h : ∀ x ∈ d, x < 256) :
    isBits (d.flatMap (bits 8)) = true ∧ (d.flatMap (bits 8)).length = 8 * d.length ∧
      bitval (d.flatMap (bits 8)) = digitSum 256 d := by
  induction d with
  | nil => simp [isBits, bitval, digitSum]
  | cons x xs ih =>
    obtain ⟨h1, h2, h3⟩ := ih fun y hy => h y (List.mem_cons_of_mem _ hy)
    refine ⟨?_, ?_, ?_⟩
    · rw [List.flatMap_cons, isBits_append, h1, bits_isBits]
      rfl
    · rw [List.flatMap_cons, List.length_append, h2, bits_length, List.length_cons]
      omega
    · rw [List.flatMap_cons, bitval_append, h2, h3, bitval_bits, digitSum_cons,
        Nat.mod_eq_of_lt (by simpa using h x List.mem_cons_self), pow_mul]
      norm_num

/-- The byte groups of a number: base-256 digits, the most significant first (41_binary_string.md rule R122). -/
theorem byteGroups_eq (u : Nat) :
    byteGroups u = (List.range (ku u 256)).map fun i => u / 256 ^ (ku u 256 - 1 - i) % 256 := by
  unfold byteGroups
  apply List.ext_getElem
  · simp
  · intro i h1 h2
    simp only [List.length_map, List.length_reverse, List.length_range] at h1
    simp

theorem byteGroups_sum (u : Nat) : digitSum 256 (byteGroups u) = u := by
  rw [byteGroups_eq, digitSum_digits]
  exact Nat.mod_eq_of_lt (ku_spec u 256 (by norm_num)).2.1

/-- The most significant group of a non-zero number, and the groups below it (41_binary_string.md rule R122). -/
theorem byteGroups_cons (u : Nat) (hu : u ≠ 0) :
    ∃ top lower, byteGroups u = top :: lower ∧ top ≠ 0 ∧ top < 256 ∧ ∀ x ∈ lower, x < 256 := by
  obtain ⟨k1, k2, k3⟩ := ku_spec u 256 (by norm_num)
  obtain ⟨k, hk⟩ : ∃ k, ku u 256 = k + 1 := ⟨ku u 256 - 1, by omega⟩
  have hall : ∀ x ∈ byteGroups u, x < 256 := by
    intro x hx
    rw [byteGroups_eq, List.mem_map] at hx
    obtain ⟨i, _, rfl⟩ := hx
    exact Nat.mod_lt _ (by norm_num)
  rw [hk] at k2 k3
  have hd : byteGroups u = u / 256 ^ k % 256 ::
      (List.range k).map fun i => u / 256 ^ (k - (i + 1)) % 256 := by
    rw [byteGroups_eq, hk, List.range_succ_eq_map, List.map_cons, List.map_map]
    simp only [Nat.add_sub_cancel, Nat.sub_zero]
    rfl
  refine ⟨_, _, hd, ?_, Nat.mod_lt _ (by norm_num), fun x hx => hall x (hd ▸ List.mem_cons_of_mem _ hx)⟩
  have hlt : u / 256 ^ k < 256 := by
    rw [Nat.div_lt_iff_lt_mul (by positivity), mul_comm, ← pow_succ]
    exact k2
  rw [Nat.mod_eq_of_lt hlt]
  have hle : 256 ^ k ≤ u := by
    by_cases e : k = 0
    · subst e
      simp
      omega
    · exact k3 k (by omega) (by omega)
  exact Nat.pos_iff_ne_zero.1 (Nat.div_pos hle (by positivity))

/-- The least text of a number starts with `'1'`. -/
theorem bits_bitWidth_head (u : Nat) (h : u ≠ 0) : ∃ t, bits (bitWidth u) u = chr1 :: t := by
  obtain ⟨h1, h2, h3⟩ := bitWidth_spec u h
  obtain ⟨n, hn⟩ : ∃ n, bitWidth u = n + 1 := ⟨bitWidth u - 1, by omega⟩
  rw [hn] at h2 h3 ⊢
  simp only [Nat.add_sub_cancel] at h3
  refine ⟨bits n u, ?_⟩
  have hq : u / 2 ^ n = 1 := by
    rw [Nat.div_eq_iff (by positivity)]
    rw [pow_succ] at h2
    omega
  simp [bits, hq, bitChar]

/-- DEC2BIN's text: a bit-string with the number's value that starts with `'1'`, or `"0"`
(41_binary_string.md rule R122). -/
theorem decimalText_spec (u : Nat) :
    isBits (decimalText u) = true ∧ bitval (decimalText u) = u ∧ (u = 0 → decimalText u = [chr0]) ∧
      (u ≠ 0 → ∃ t, decimalText u = chr1 :: t) := by
  by_cases hu : u = 0
  · subst hu
    refine ⟨by decide, by decide, fun _ => rfl, fun h => absurd rfl h⟩
  · obtain ⟨top, lower, hg, ht, hlt, hlow⟩ := byteGroups_cons u hu
    obtain ⟨f1, f2, f3⟩ := flatMap_bits8 lower hlow
    obtain ⟨w1, w2, w3⟩ := bitWidth_spec top ht
    have hd : decimalText u = bits (bitWidth top) top ++ lower.flatMap (bits 8) := by
      unfold decimalText
      rw [if_neg hu, hg]
    refine ⟨?_, ?_, fun h => absurd h hu, fun _ => ?_⟩
    · rw [hd, isBits_append, bits_isBits, f1]
      rfl
    · have := byteGroups_sum u
      rw [hg, digitSum_cons] at this
      rw [hd, bitval_append, bitval_bits, Nat.mod_eq_of_lt w2, f2, f3, pow_mul]
      norm_num
      exact this
    · obtain ⟨t, h⟩ := bits_bitWidth_head top ht
      exact ⟨t ++ lower.flatMap (bits 8), by rw [hd, h]; rfl⟩

/-- A bit-string that starts with `'1'` is no longer than its value needs. -/
theorem length_le_of_head (t : Text) (n : Nat) (h : bitval (chr1 :: t) < 2 ^ n) : (chr1 :: t).length ≤ n := by
  by_contra hc
  simp only [List.length_cons, not_le] at hc
  have h1 : 2 ^ n ≤ 2 ^ t.length := Nat.pow_le_pow_right (by norm_num) (by omega)
  have h2 : 2 ^ t.length ≤ bitval (chr1 :: t) := by
    simp [bitval, bitDigit]
  omega

/-- DEC2BIN's text of an accepted number fits a text (41_binary_string.md rule R120). -/
theorem decimalText_length (u n : Nat) (hn : 1 ≤ n) (h : u < 2 ^ n) :
    1 ≤ (decimalText u).length ∧ (decimalText u).length ≤ n := by
  obtain ⟨_, h2, h3, h4⟩ := decimalText_spec u
  by_cases hu : u = 0
  · simp [h3 hu, hn]
  · obtain ⟨t, ht⟩ := h4 hu
    rw [ht] at h2 ⊢
    exact ⟨by simp, length_le_of_head t n (by omega)⟩

/-- Cutting a text whose length is a multiple of 8 into chunks of 8: the chunk values are the base-256 digits of
the text's value. -/
theorem chunks_sum (k : Nat) (t : Text) (h : t.length = 8 * k) :
    digitSum 256 ((List.range k).map fun j => bitval ((t.drop (8 * j)).take 8)) = bitval t := by
  induction k generalizing t with
  | zero =>
    have : t = [] := List.eq_nil_of_length_eq_zero (by omega)
    simp [this, digitSum, bitval]
  | succ k ih =>
    rw [List.range_succ_eq_map, List.map_cons, digitSum_cons, List.map_map]
    have h8 : (t.drop 8).length = 8 * k := by simp [h]; omega
    have e : (List.range k).map ((fun j => bitval ((t.drop (8 * j)).take 8)) ∘ Nat.succ) =
        (List.range k).map fun j => bitval (((t.drop 8).drop (8 * j)).take 8) := by
      refine List.map_congr_left fun j _ => ?_
      simp only [Function.comp_apply, List.drop_drop]
      rw [show 8 * j.succ = 8 + 8 * j by rw [Nat.succ_eq_add_one]; ring]
    rw [e, ih _ h8]
    simp only [mul_zero, List.drop_zero, List.length_map, List.length_range]
    conv_rhs => rw [← List.take_append_drop 8 t, bitval_append, h8, pow_mul]
    norm_num

theorem bitval_replicate_zero (n : Nat) (t : Text) : bitval (List.replicate n chr0 ++ t) = bitval t := by
  rw [bitval_append]
  have : bitval (List.replicate n chr0) = 0 := by
    induction n with
    | zero => rfl
    | succ n ih => rw [List.replicate_succ, bitval, ih, show bitDigit chr0 = 0 from rfl, Nat.zero_mul]
  rw [this]
  simp

/-- BIN2TXT's text: `ceil(n / 8)` characters, the base-256 digits of the bit-string's value
(41_binary_string.md rule R125). -/
theorem chunkText_spec (t : Text) :
    (chunkText t).length = (t.length + 7) / 8 ∧ byteSum (chunkText t) = bitval t := by
  refine ⟨by simp [chunkText], ?_⟩
  unfold byteSum chunkText
  simp only [List.map_map]
  have e : ∀ s : Text, (List.range ((t.length + 7) / 8)).map
      (BitVec.toNat ∘ fun j => BitVec.ofNat 8 (bitval ((s.drop (8 * j)).take 8))) =
      (List.range ((t.length + 7) / 8)).map fun j => bitval ((s.drop (8 * j)).take 8) := by
    intro s
    refine List.map_congr_left fun j _ => ?_
    simp only [Function.comp_apply, BitVec.toNat_ofNat]
    refine Nat.mod_eq_of_lt (lt_of_lt_of_le (bitval_lt _) (Nat.pow_le_pow_right (by norm_num) ?_))
    simp
  rw [e, chunks_sum _ _ (by simp; omega), bitval_replicate_zero]

/-- BYTES2BIN's text: a bit-string of 8 characters a byte with the bytes' value (41_binary_string.md rule R126). -/
theorem bytesText_spec (x : List Byte) :
    isBits (bytesText x) = true ∧ (bytesText x).length = 8 * x.length ∧ bitval (bytesText x) = byteSum x := by
  have e : bytesText x = (x.map BitVec.toNat).flatMap (bits 8) := by
    simp [bytesText, List.flatMap_map]
  obtain ⟨h1, h2, h3⟩ := flatMap_bits8 (x.map BitVec.toNat) fun n hn => by
    obtain ⟨b, _, rfl⟩ := List.mem_map.1 hn
    exact b.isLt
  rw [e]
  exact ⟨h1, by simpa using h2, h3⟩

/-- Byte sequences of one length with one value are equal. -/
theorem byteSum_inj (x y : List Byte) (hl : x.length = y.length) (h : byteSum x = byteSum y) : x = y := by
  induction x generalizing y with
  | nil => exact (List.eq_nil_of_length_eq_zero (by simpa using hl.symm)).symm
  | cons a xs ih =>
    obtain ⟨b, ys, rfl⟩ : ∃ b ys, y = b :: ys := by
      cases y with
      | nil => simp at hl
      | cons b ys => exact ⟨b, ys, rfl⟩
    simp only [List.length_cons, Nat.add_right_cancel_iff] at hl
    unfold byteSum at h
    simp only [List.map_cons, digitSum_cons, List.length_map] at h
    have lt : ∀ z : List Byte, digitSum 256 (z.map BitVec.toNat) < 256 ^ z.length := fun z => by
      have := decBe_lt false z
      rwa [show radix false = 256 from rfl, decBe_eq_byteSum] at this
    have h1 := lt xs
    have h2 := lt ys
    rw [hl] at h h1
    have hp : 0 < 256 ^ ys.length := by positivity
    have ea : a.toNat = b.toNat := by
      have := congrArg (fun n => n / 256 ^ ys.length) h
      beta_reduce at this
      rwa [mul_comm, Nat.mul_add_div hp, Nat.div_eq_of_lt h1, mul_comm, Nat.mul_add_div hp,
        Nat.div_eq_of_lt h2] at this
    rw [ea] at h
    rw [BitVec.eq_of_toNat_eq ea, ih ys hl (by unfold byteSum; omega)]

end Sys2Proof.Machine
end

