-- ==== Sys2Proof/Laws/Decode.lean ====
section
/-! SUPPORT. The fields of a command word and back, and what the field decoder accepts. -/

namespace Sys2Proof

/-- Splitting what was joined gives the fields back: no field overlaps another (30_encoding.md rule R50). -/
@[simp] theorem splitFields_joinFields (f : Fields) : splitFields (joinFields f) = f := by
  obtain ⟨op, e, y, s, t, rsv⟩ := f
  unfold splitFields joinFields
  simp only [Fields.mk.injEq]
  refine ⟨?_, ?_, ?_, ?_, ?_, ?_⟩
  · ext i hi
    simp only [BitVec.getElem_extractLsb', BitVec.getLsbD_append]
    simp [show i < 6 from hi, show i < 7 by omega, show i < 8 by omega, show i < 9 by omega,
      show i < 10 by omega]
  · simp only [BitVec.getLsbD_append]
    simp
  · simp only [BitVec.getLsbD_append]
    simp
  · simp only [BitVec.getLsbD_append]
    simp
  · simp only [BitVec.getLsbD_append]
    simp
  · ext i hi
    simp only [BitVec.getElem_extractLsb', BitVec.getLsbD_append]
    simp [hi]

/-- Joining what was split gives the word back: the fields hold all 16 bits (30_encoding.md rule R50). -/
@[simp] theorem joinFields_splitFields (w : CmdWord) : joinFields (splitFields w) = w := by
  apply BitVec.eq_of_getLsbD_eq
  intro i hi
  unfold splitFields joinFields
  simp only [BitVec.getLsbD_append, BitVec.getLsbD_extractLsb']
  have : i = 0 ∨ i = 1 ∨ i = 2 ∨ i = 3 ∨ i = 4 ∨ i = 5 ∨ i = 6 ∨ i = 7 ∨ i = 8 ∨ i = 9 ∨ i = 10 ∨ i = 11 ∨
    i = 12 ∨ i = 13 ∨ i = 14 ∨ i = 15 := by omega
  rcases this with h | h | h | h | h | h | h | h | h | h | h | h | h | h | h | h <;> subst h <;>
    simp

/-- The field decoder reads every command from that command's fields (30_encoding.md rule R57). -/
theorem decodeFields_fieldsOf (i : Instr) : decodeFields (fieldsOf i) = .ok i := by
  cases i <;> rfl

theorem encintOf_fields (f : Fields) (hr : f.rsv = 0#6) (ho : f.op = 0x08#6) (ht : f.t = false) :
    fieldsOf (encintOf f.e f.y f.s) = f := by
  obtain ⟨op, e, y, s, t, rsv⟩ := f
  simp only at hr ho ht
  subst hr ho ht
  cases e <;> cases y <;> cases s <;> rfl

theorem decintOf_fields (f : Fields) (hr : f.rsv = 0#6) (ho : f.op = 0x09#6) (ht : f.t = false) :
    fieldsOf (decintOf f.e f.y f.s) = f := by
  obtain ⟨op, e, y, s, t, rsv⟩ := f
  simp only at hr ho ht
  subst hr ho ht
  cases e <;> cases y <;> cases s <;> rfl

/-- A command with no modifier bit is selected by `OP` alone. -/
theorem plainOf_fields (op : Opcode) (i : Instr) (h : plainOf op = some i) :
    fieldsOf i = ⟨op, false, false, false, false, 0#6⟩ := by
  have key : ∀ o : Opcode, ((plainOf o).map fun j => decide (fieldsOf j = ⟨o, false, false, false, false, 0#6⟩)) ≠
      some false := by decide
  have := key op
  rw [h] at this
  simpa using this

/-- The field decoder answers a command only for that command's fields. -/
theorem decodeFields_sound (f : Fields) (i : Instr) (h : decodeFields f = .ok i) : fieldsOf i = f := by
  unfold decodeFields at h
  split at h
  · cases h
  · rename_i hr0
    have hr : f.rsv = 0#6 := by simpa using hr0
    clear hr0
    split at h
    · rename_i ho
      split at h
      · cases h
      · rename_i ht
        have ht : f.t = false := by simpa using ht
        split at h
        · rename_i h8
          cases h
          exact encintOf_fields f hr h8 ht
        · rename_i h8
          cases h
          exact decintOf_fields f hr (ho.resolve_left h8) ht
    · split at h
      · rename_i h5
        split at h
        · cases h
        · rename_i hm
          obtain ⟨op, e, y, s, t, rsv⟩ := f
          simp only [not_or, Bool.not_eq_true] at hm hr h5
          obtain ⟨rfl, rfl, rfl⟩ := hm
          subst hr h5
          cases t <;> cases h <;> rfl
      · split at h
        · rename_i j hj
          split at h
          · cases h
          · rename_i hm
            cases h
            rw [plainOf_fields _ _ hj]
            obtain ⟨op, e, y, s, t, rsv⟩ := f
            simp only [not_or, Bool.not_eq_true] at hm hr
            obtain ⟨rfl, rfl, rfl, rfl⟩ := hm
            rw [hr]
        · cases h

/-- Every command's word has legal fields (30_encoding.md rule R58). -/
theorem fieldsOf_legal (i : Instr) : (fieldsOf i).legal = true := by
  cases i <;> rfl

/-- `RSP.OP` of a request is the `OP` field of the command it decodes to (10_state.md rule R20). -/
theorem op_of_decode (w : CmdWord) (i : Instr) (h : decode w = .ok i) :
    w.extractLsb' 0 6 = (fieldsOf i).op := by
  rw [decodeFields_sound _ _ h]
  rfl

end Sys2Proof
end

