-- ==== Sys2Proof/Laws/Guid.lean ====
section
/-! SUPPORT. The tables and digits of the GUID reorder (44_guid.md rule R240). -/

namespace Sys2Proof.Machine

/-- `off(j)` is the row of rule R240's table. -/
theorem guidOff_table : ∀ j < 16, guidOff j = pairOffset.getD j 0 := by decide

/-- `P[j]` is the row of rule R240's table. -/
theorem guidByte_table : ∀ j < 16, guidByte j = pairByte.getD j 0 := by decide

/-- `P` is its own inverse (44_guid.md rule R240). -/
theorem guidByte_involution : ∀ j < 16, guidByte (guidByte j) = j := by decide

theorem hexU_eq_upperHex : ∀ n < 16, hexU n = upperHex n := by decide

/-- `hexval(hexU(n)) = n` (44_guid.md rule R243). -/
theorem hexVal_hexU : ∀ n < 16, hexVal (hexU n) = n := by decide

theorem isHex_hexU : ∀ n < 16, isHex (hexU n) = true := by decide

/-- The uppercase digit of a hex digit's value is that digit in uppercase (44_guid.md rule R243). -/
theorem hexU_hexVal : ∀ c : Byte, isHex c = true → hexVal c < 16 ∧ hexU (hexVal c) = upcase c := by
  decide +kernel

theorem upcase_dash : upcase chrDash = chrDash := by decide

/-- The model's hex digits are those of 44_guid.md rule R242. -/
theorem isHex_iff : ∀ c : Byte, isHex c = (hexDigitValue c).isSome := by decide +kernel

theorem hexVal_eq : ∀ c : Byte, isHex c = true → hexDigitValue c = some (hexVal c) := by decide +kernel

@[simp] theorem guidText_length (x : List Byte) : (guidText x).length = 36 := by
  simp [guidText, List.range, List.range.loop, guidFrame]

@[simp] theorem guidBytes_length (t : Text) : (guidBytes t).length = 16 := by
  simp [guidBytes, List.range, List.range.loop]

/-- STR2GUID accepts exactly the texts of 44_guid.md rule R242. -/
theorem guidText_ok_iff (t : Text) :
    (t.length = 36 ∧ guidHyphensOk t = true ∧ guidDigitsOk t = true) ↔ IsGuidText t := by
  unfold IsGuidText guidHyphensOk guidDigitsOk
  refine and_congr_right fun _ => and_congr ?_ ?_
  · simp [guidHyphens, chrDash]
  · simp only [List.all_eq_true, List.mem_range, Bool.or_eq_true, List.contains_iff_mem, isHex_iff]
    refine forall_congr' fun i => imp_congr_right fun _ => ?_
    exact Decidable.or_iff_not_imp_left

/-- A list of 16 elements, element by element. -/
theorem exists_of_length_16 (x : List Byte) (h : x.length = 16) :
    ∃ a b c d e f g i j k l m n o p q, x = [a, b, c, d, e, f, g, i, j, k, l, m, n, o, p, q] := by
  match x, h with
  | [a, b, c, d, e, f, g, i, j, k, l, m, n, o, p, q], _ =>
    exact ⟨a, b, c, d, e, f, g, i, j, k, l, m, n, o, p, q, rfl⟩

end Sys2Proof.Machine
end

