-- ==== Sys2Proof/Laws/PerInstr.lean ====
section
/-! SUPPORT. The per-instruction family Encoding: the command word of each command has legal fields that decode to
that command, and is the word spec/opcode_table.json gives it. -/

namespace Sys2Proof.Laws.Encoding

/-- The word of `i` decodes to `i` and holds legal fields, with `RSV` 0 (30_encoding.md rules R55, R57, R58). -/
def Statement (i : Sys2Proof.Instr) : Prop :=
  Sys2Proof.decodeFields (Sys2Proof.fieldsOf i) = .ok i ∧ (Sys2Proof.fieldsOf i).legal = true ∧ i.wf = true

/-- What the lemmas below share. -/
theorem of_instr (i : Sys2Proof.Instr) : Statement i :=
  ⟨Sys2Proof.decodeFields_fieldsOf i, Sys2Proof.fieldsOf_legal i, rfl⟩

theorem add : Statement .add := of_instr _
theorem sub : Statement .sub := of_instr _
theorem bin2dec : Statement .bin2dec := of_instr _
theorem dec2bin : Statement .dec2bin := of_instr _
theorem dec2binp : Statement .dec2binp := of_instr _
theorem dec2binpT : Statement .dec2binpT := of_instr _
theorem bin2txt : Statement .bin2txt := of_instr _
theorem bytes2bin : Statement .bytes2bin := of_instr _
theorem encintBeU : Statement .encintBeU := of_instr _
theorem encintLeU : Statement .encintLeU := of_instr _
theorem encintBeSs : Statement .encintBeSs := of_instr _
theorem encintLeSs : Statement .encintLeSs := of_instr _
theorem encintBeS : Statement .encintBeS := of_instr _
theorem encintLeS : Statement .encintLeS := of_instr _
theorem encintBeYs : Statement .encintBeYs := of_instr _
theorem encintLeYs : Statement .encintLeYs := of_instr _
theorem decintBeU : Statement .decintBeU := of_instr _
theorem decintLeU : Statement .decintLeU := of_instr _
theorem decintBeSs : Statement .decintBeSs := of_instr _
theorem decintLeSs : Statement .decintLeSs := of_instr _
theorem decintBeS : Statement .decintBeS := of_instr _
theorem decintLeS : Statement .decintLeS := of_instr _
theorem decintBeYs : Statement .decintBeYs := of_instr _
theorem decintLeYs : Statement .decintLeYs := of_instr _
theorem f6enc : Statement .f6enc := of_instr _
theorem f6dec : Statement .f6dec := of_instr _
theorem fdec : Statement .fdec := of_instr _
theorem fbinfrac : Statement .fbinfrac := of_instr _
theorem normbp : Statement .normbp := of_instr _
theorem guid2str : Statement .guid2str := of_instr _
theorem str2guid : Statement .str2guid := of_instr _

end Sys2Proof.Laws.Encoding
end

