-- ==== Sys2Proof/Laws/State.lean ====
section
/-! SUPPORT. The fields of a state after each update, so that no proof unfolds a record update. -/

namespace Sys2Proof.Machine

@[simp] theorem respond_params (s : State) (res : Result) : (s.respond res).params = s.params := rfl
@[simp] theorem respond_port (s : State) (res : Result) : (s.respond res).port = s.port := rfl
@[simp] theorem respond_host (s : State) (res : Result) : (s.respond res).host = s.host := rfl
@[simp] theorem respond_rsp (s : State) (res : Result) :
    (s.respond res).rsp = ⟨true, s.port.cmd.extractLsb' 0 6, res.status, res.payload⟩ := rfl

@[simp] theorem answered_params (s : State) (c : Status) (p : Payload) : (answered s c p).params = s.params := rfl
@[simp] theorem answered_port (s : State) (c : Status) (p : Payload) : (answered s c p).port = s.port := rfl
@[simp] theorem answered_host (s : State) (c : Status) (p : Payload) : (answered s c p).host = s.host := rfl
@[simp] theorem answered_rsp (s : State) (c : Status) (p : Payload) :
    (answered s c p).rsp = ⟨true, s.port.cmd.extractLsb' 0 6, c, p⟩ := rfl

/-- What `respond` writes is a completed command's response. -/
theorem respond_eq_answered (s : State) (res : Result) : s.respond res = answered s res.status res.payload := rfl

/-- A finished command answers a next state with its response in the latch. -/
theorem finish_eq (s : State) (res : Result) : s.finish res = .next (answered s res.status res.payload) := rfl

/-- A finished command that returned a payload that is no infinity or NaN. -/
theorem finish_ret (s : State) (p : Payload) (h : p.isSpecial = false) :
    s.finish (.ret p) = .next (answered s .ok p) := by
  simp [finish_eq, Result.status, Result.payload, h]

/-- A finished command that raised an error. -/
theorem finish_raise (s : State) (e : Err) : s.finish (.raise e) = .next (answered s e.status .none) := rfl

/-- Two results with the same status and payload finish alike, and only those. -/
theorem answered_inj (s : State) (c c' : Status) (p p' : Payload) :
    answered s c p = answered s c' p' ↔ c = c' ∧ p = p' := by
  simp [answered]

@[simp] theorem rejectCommand_eq (s : State) : s.rejectCommand = answered s .illegalCommand .none := rfl

@[simp] theorem acceptRequest_params (s : State) (r : Request) (rest : List HostEvent) :
    (s.acceptRequest r rest).params = s.params := rfl
@[simp] theorem acceptRequest_rsp (s : State) (r : Request) (rest : List HostEvent) :
    (s.acceptRequest r rest).rsp = s.rsp := rfl
@[simp] theorem acceptRequest_port (s : State) (r : Request) (rest : List HostEvent) :
    (s.acceptRequest r rest).port = r := rfl
@[simp] theorem acceptRequest_host (s : State) (r : Request) (rest : List HostEvent) :
    (s.acceptRequest r rest).host = rest := rfl

@[simp] theorem takeReset_params (s : State) (rest : List HostEvent) : (s.takeReset rest).params = s.params := rfl
@[simp] theorem takeReset_rsp (s : State) (rest : List HostEvent) : (s.takeReset rest).rsp = Latch.reset := rfl
@[simp] theorem takeReset_port (s : State) (rest : List HostEvent) : (s.takeReset rest).port = Request.idle := rfl
@[simp] theorem takeReset_host (s : State) (rest : List HostEvent) : (s.takeReset rest).host = rest := rfl

@[simp] theorem presentNext_params (s : State) (r : Request) : (s.presentNext r).params = s.params := rfl
@[simp] theorem presentNext_rsp (s : State) (r : Request) : (s.presentNext r).rsp = s.rsp := rfl
@[simp] theorem presentNext_port (s : State) (r : Request) : (s.presentNext r).port = s.port := rfl
@[simp] theorem presentNext_host (s : State) (r : Request) : (s.presentNext r).host = .present r :: s.host := rfl

@[simp] theorem onAB_params (s : State) (a b : Int) : (s.onAB a b).params = s.params := rfl
@[simp] theorem onAB_a (s : State) (a b : Int) : (s.onAB a b).port.a = a := rfl
@[simp] theorem onAB_b (s : State) (a b : Int) : (s.onAB a b).port.b = b := rfl
@[simp] theorem onAB_cmd (s : State) (a b : Int) : (s.onAB a b).port.cmd = s.port.cmd := rfl
@[simp] theorem onX_params (s : State) (x : List Byte) : (s.onX x).params = s.params := rfl
@[simp] theorem onX_x (s : State) (x : List Byte) : (s.onX x).port.x = x := rfl
@[simp] theorem onX_cmd (s : State) (x : List Byte) : (s.onX x).port.cmd = s.port.cmd := rfl
@[simp] theorem onTX_params (s : State) (t : Text) : (s.onTX t).params = s.params := rfl
@[simp] theorem onTX_tx (s : State) (t : Text) : (s.onTX t).port.tx = t := rfl
@[simp] theorem onTX_b (s : State) (t : Text) : (s.onTX t).port.b = s.port.b := rfl
@[simp] theorem onTX_cmd (s : State) (t : Text) : (s.onTX t).port.cmd = s.port.cmd := rfl

end Sys2Proof.Machine
end

