-- ==== Sys2Proof/Laws/Step.lean ====
section
/-! SUPPORT. What a command and a step can do: the inversion lemmas the provers cite. -/

namespace Sys2Proof.Machine

/-- Every command ends with a result, written to the latch and nowhere else (10_state.md rule R27). -/
theorem exec_finishes (i : Instr) (s : State) : ∃ res : Result, exec i s = s.finish res := by
  cases i <;> exact ⟨_, rfl⟩

/-- What a step can do: nothing to do, a reset, an illegal word, or a command. -/
theorem step_cases (s t : State) (h : step s = .next t) :
    (s.host = [] ∧ t = s) ∨
    (∃ d rest, s.host = .reset d :: rest ∧ t = s.takeReset rest) ∨
    (∃ r rest e, s.host = .present r :: rest ∧ decode r.cmd = .error e ∧
      t = answered (s.acceptRequest r rest) .illegalCommand .none) ∨
    ∃ r rest i res, s.host = .present r :: rest ∧ decode r.cmd = .ok i ∧
      exec i (s.acceptRequest r rest) = (s.acceptRequest r rest).finish res ∧
      t = answered (s.acceptRequest r rest) res.status res.payload := by
  unfold step at h
  split at h
  · rename_i hh
    cases h
    exact .inl ⟨hh, rfl⟩
  · rename_i d rest hh
    cases h
    exact .inr (.inl ⟨d, rest, hh, rfl⟩)
  · rename_i r rest hh
    unfold perform at h
    split at h
    · rename_i i hd
      obtain ⟨res, hres⟩ := exec_finishes i (s.acceptRequest r rest)
      rw [hres] at h
      cases h
      exact .inr (.inr (.inr ⟨r, rest, i, res, hh, hd, hres, rfl⟩))
    · rename_i e hd
      cases h
      exact .inr (.inr (.inl ⟨r, rest, e, hh, hd, rfl⟩))

theorem step_idle (s : State) (h : s.host = []) : step s = .next s := by
  simp [step, h]

theorem step_reset (s : State) (d : Option Request) (rest : List HostEvent) (h : s.host = .reset d :: rest) :
    step s = .next (s.takeReset rest) := by
  simp [step, h]

theorem step_present (s : State) (r : Request) (rest : List HostEvent) (h : s.host = .present r :: rest) :
    step s = perform (s.acceptRequest r rest) := by
  simp [step, h]

theorem perform_decoded (s : State) (i : Instr) (h : decode s.port.cmd = .ok i) : perform s = exec i s := by
  simp [perform, h]

theorem perform_illegal (s : State) (e : Illegal) (h : decode s.port.cmd = .error e) :
    perform s = .next (answered s .illegalCommand .none) := by
  simp [perform, h]

/-- Performing the request on the port always ends in one latch write. -/
theorem perform_finishes (s : State) : ∃ res : Result, perform s = s.finish res := by
  unfold perform
  split
  · exact exec_finishes _ _
  · exact ⟨.raise .illegalCommand, rfl⟩

end Sys2Proof.Machine
end

