-- ==== Sys2Proof/Tests/Slice0.lean ====
section
/-! SUPPORT. The model's own tests: the ill-formed terms that WellFormed refuses, the 31 command words written out from
30_encoding.md rules R50 and R57, at most two small steps a command with results from 95_test_vectors.md or the rules'
worked examples, and a witness for the hypotheses of every statement that has some. -/

open Sys2Proof Sys2Proof.Machine

namespace Sys2Proof.Tests

-- One theorem at a time: the many kernel evaluations below would otherwise each hold a thread of their own.
set_option Elab.async false

/-! ### Helpers -/

/-- A request with that command word and integer operands. -/
def reqAB (w : CmdWord) (a b : Int) : Request := { Request.idle with cmd := w, a := a, b := b }

/-- A request with that command word and byte operand. -/
def reqX (w : CmdWord) (x : List Byte) : Request := { Request.idle with cmd := w, x := x }

/-- A request with that command word and text operand. -/
def reqTX (w : CmdWord) (t : Text) : Request := { Request.idle with cmd := w, tx := t }

/-- A request with that command word, text operand and integer operand `B`. -/
def reqTXB (w : CmdWord) (t : Text) (b : Int) : Request := { Request.idle with cmd := w, tx := t, b := b }

/-- A request with that command word and binary64 operand. -/
def reqV (w : CmdWord) (v : Word64) : Request := { Request.idle with cmd := w, v := v }

/-- The latch after one step that performs a request, from reset. -/
def latchOf (r : Request) : Option Latch :=
  match step (State.reset.presentNext r) with
  | .next t => some t.rsp
  | _ => none

/-- The reset state with a request standing on its port. -/
def on (r : Request) : State := { State.reset with port := r }

/-- Characters by their codes. -/
def txt (l : List Nat) : Text := l.map (BitVec.ofNat 8)

/-! ### WellFormed refuses an ill-formed term, for each of its checks -/

theorem test_wf_reserved : Fields.reservedZero ⟨0x01#6, false, false, false, false, 0b000001#6⟩ = false := by decide

theorem test_wf_op_zero : Fields.opAssigned ⟨0x00#6, false, false, false, false, 0#6⟩ = false := by decide

theorem test_wf_op_high : Fields.opAssigned ⟨0x11#6, false, false, false, false, 0#6⟩ = false := by decide

theorem test_wf_modifiers : Fields.modifiersAllowed ⟨0x01#6, true, false, false, false, 0#6⟩ = false := by decide

theorem test_wf_truncate : Fields.truncateAllowed ⟨0x08#6, false, false, false, true, 0#6⟩ = false := by decide

theorem test_wf_legal : Fields.legal ⟨0x05#6, false, false, false, true, 0#6⟩ = true := by decide

theorem test_wf_text_max : Params.textMaxOk { Params.standard with textMax := 1152 } = false := by decide

theorem test_wf_bytes_max : Params.bytesMaxOk { Params.standard with bytesMax := 15 } = false := by decide

theorem test_wf_int_max : Params.intMaxBytesOk { Params.standard with intMaxBytes := 257 } = false := by decide

theorem test_wf_add_bits : Params.addBitsOk { Params.standard with addBits := 0 } = false := by decide

theorem test_wf_standard : Params.standard.wf = true := by decide

/-! ### Decoding: each word written bit by bit as `RSV`, `T`, `S`, `Y`, `E`, `OP` (30_encoding.md rule R50) -/

/-- A command word from its six fields, most significant first (30_encoding.md rule R50). -/
def word (rsv : BitVec 6) (t s y e : BitVec 1) (op : BitVec 6) : CmdWord := rsv ++ t ++ s ++ y ++ e ++ op

theorem test_decode_add : decode (word 0b000000#6 0#1 0#1 0#1 0#1 0b000001#6) = .ok .add := by rfl

theorem test_decode_sub : decode (word 0b000000#6 0#1 0#1 0#1 0#1 0b000010#6) = .ok .sub := by rfl

theorem test_decode_bin2dec : decode (word 0b000000#6 0#1 0#1 0#1 0#1 0b000011#6) = .ok .bin2dec := by rfl

theorem test_decode_dec2bin : decode (word 0b000000#6 0#1 0#1 0#1 0#1 0b000100#6) = .ok .dec2bin := by rfl

theorem test_decode_dec2binp : decode (word 0b000000#6 0#1 0#1 0#1 0#1 0b000101#6) = .ok .dec2binp := by rfl

theorem test_decode_dec2binpT : decode (word 0b000000#6 1#1 0#1 0#1 0#1 0b000101#6) = .ok .dec2binpT := by rfl

theorem test_decode_bin2txt : decode (word 0b000000#6 0#1 0#1 0#1 0#1 0b000110#6) = .ok .bin2txt := by rfl

theorem test_decode_bytes2bin : decode (word 0b000000#6 0#1 0#1 0#1 0#1 0b000111#6) = .ok .bytes2bin := by rfl

theorem test_decode_encint :
    decode (word 0b000000#6 0#1 0#1 0#1 0#1 0b001000#6) = .ok .encintBeU ∧
    decode (word 0b000000#6 0#1 0#1 0#1 1#1 0b001000#6) = .ok .encintLeU ∧
    decode (word 0b000000#6 0#1 0#1 1#1 0#1 0b001000#6) = .ok .encintBeSs ∧
    decode (word 0b000000#6 0#1 0#1 1#1 1#1 0b001000#6) = .ok .encintLeSs ∧
    decode (word 0b000000#6 0#1 1#1 0#1 0#1 0b001000#6) = .ok .encintBeS ∧
    decode (word 0b000000#6 0#1 1#1 0#1 1#1 0b001000#6) = .ok .encintLeS ∧
    decode (word 0b000000#6 0#1 1#1 1#1 0#1 0b001000#6) = .ok .encintBeYs ∧
    decode (word 0b000000#6 0#1 1#1 1#1 1#1 0b001000#6) = .ok .encintLeYs :=
  ⟨rfl, rfl, rfl, rfl, rfl, rfl, rfl, rfl⟩

theorem test_decode_decint :
    decode (word 0b000000#6 0#1 0#1 0#1 0#1 0b001001#6) = .ok .decintBeU ∧
    decode (word 0b000000#6 0#1 0#1 0#1 1#1 0b001001#6) = .ok .decintLeU ∧
    decode (word 0b000000#6 0#1 0#1 1#1 0#1 0b001001#6) = .ok .decintBeSs ∧
    decode (word 0b000000#6 0#1 0#1 1#1 1#1 0b001001#6) = .ok .decintLeSs ∧
    decode (word 0b000000#6 0#1 1#1 0#1 0#1 0b001001#6) = .ok .decintBeS ∧
    decode (word 0b000000#6 0#1 1#1 0#1 1#1 0b001001#6) = .ok .decintLeS ∧
    decode (word 0b000000#6 0#1 1#1 1#1 0#1 0b001001#6) = .ok .decintBeYs ∧
    decode (word 0b000000#6 0#1 1#1 1#1 1#1 0b001001#6) = .ok .decintLeYs :=
  ⟨rfl, rfl, rfl, rfl, rfl, rfl, rfl, rfl⟩

theorem test_decode_f6enc : decode (word 0b000000#6 0#1 0#1 0#1 0#1 0b001010#6) = .ok .f6enc := by rfl

theorem test_decode_f6dec : decode (word 0b000000#6 0#1 0#1 0#1 0#1 0b001011#6) = .ok .f6dec := by rfl

theorem test_decode_fdec : decode (word 0b000000#6 0#1 0#1 0#1 0#1 0b001100#6) = .ok .fdec := by rfl

theorem test_decode_fbinfrac : decode (word 0b000000#6 0#1 0#1 0#1 0#1 0b001101#6) = .ok .fbinfrac := by rfl

theorem test_decode_normbp : decode (word 0b000000#6 0#1 0#1 0#1 0#1 0b001110#6) = .ok .normbp := by rfl

theorem test_decode_guid2str : decode (word 0b000000#6 0#1 0#1 0#1 0#1 0b001111#6) = .ok .guid2str := by rfl

theorem test_decode_str2guid : decode (word 0b000000#6 0#1 0#1 0#1 0#1 0b010000#6) = .ok .str2guid := by rfl

/-- One illegal word for each of the four conditions of 30_encoding.md rule R58. -/
theorem test_decode_illegal :
    decode 0x0401#16 = .error .reservedBits ∧ decode 0x0000#16 = .error .unassignedOp ∧
    decode 0x0011#16 = .error .unassignedOp ∧ decode 0x0041#16 = .error .modifierBits ∧
    decode 0x0208#16 = .error .truncateBit :=
  ⟨rfl, rfl, rfl, rfl, rfl⟩

theorem test_decodeTableWord : decodeTableWord 16 0x0148 = some .encintLeS ∧ decodeTableWord 16 0x0141 = none := by
  decide

theorem test_withFetchWord :
    (match step (State.reset.withFetchWord 16 0x0004) with
      | .next t => some t.rsp
      | _ => none) = some ⟨true, 0x04#6, .ok, .text (txt [0x30])⟩ := by decide +kernel

/-! ### One step of each command -/

-- 95_test_vectors.md L2.ARITH.2
theorem test_add_wraps :
    latchOf (reqAB 0x0001#16 2147483647 1) = some ⟨true, 0x01#6, .ok, .int (-2147483648)⟩ := by decide +kernel

-- 95_test_vectors.md L2.ARITH.8
theorem test_add_range : latchOf (reqAB 0x0001#16 0 (-2147483649)) = some ⟨true, 0x01#6, .rangeError, .none⟩ := by
  decide +kernel

-- 40_bitwise_arith.md rule R102, worked example
theorem test_sub_wraps :
    latchOf (reqAB 0x0002#16 (-2147483648) 1) = some ⟨true, 0x02#6, .ok, .int 2147483647⟩ := by decide +kernel

-- 95_test_vectors.md L2.ARITH.11
theorem test_sub_order : latchOf (reqAB 0x0002#16 (-3) 5) = some ⟨true, 0x02#6, .ok, .int (-8)⟩ := by decide +kernel

-- 41_binary_string.md rule R121, worked example
theorem test_bin2dec :
    latchOf (reqTX 0x0003#16 (txt [0x30, 0x30, 0x30, 0x30, 0x31, 0x30, 0x31, 0x30])) =
      some ⟨true, 0x03#6, .ok, .int 10⟩ := by decide +kernel

-- 95_test_vectors.md L1.10
theorem test_bin2dec_empty : latchOf (reqTX 0x0003#16 []) = some ⟨true, 0x03#6, .ok, .int 0⟩ := by decide +kernel

-- 41_binary_string.md rule R122, worked example
theorem test_dec2bin :
    latchOf (reqAB 0x0004#16 10 0) = some ⟨true, 0x04#6, .ok, .text (txt [0x31, 0x30, 0x31, 0x30])⟩ := by
  decide +kernel

-- 41_binary_string.md rule R122, corner case 256
theorem test_dec2bin_groups :
    latchOf (reqAB 0x0004#16 256 0) =
      some ⟨true, 0x04#6, .ok, .text (txt [0x31, 0x30, 0x30, 0x30, 0x30, 0x30, 0x30, 0x30, 0x30])⟩ := by
  decide +kernel

-- 41_binary_string.md rule R123, worked examples
theorem test_dec2binp :
    latchOf (reqAB 0x0005#16 5 8) =
      some ⟨true, 0x05#6, .ok, .text (txt [0x30, 0x30, 0x30, 0x30, 0x30, 0x31, 0x30, 0x31])⟩ := by decide +kernel

theorem test_dec2binp_fit : latchOf (reqAB 0x0005#16 256 8) = some ⟨true, 0x05#6, .rangeError, .none⟩ := by
  decide +kernel

-- 41_binary_string.md rule R124, worked example
theorem test_dec2binpT :
    latchOf (reqAB 0x0205#16 0x1FF 4) = some ⟨true, 0x05#6, .ok, .text (txt [0x31, 0x31, 0x31, 0x31])⟩ := by
  decide +kernel

-- 41_binary_string.md rule R125, worked example with a short first chunk
theorem test_bin2txt :
    latchOf (reqTX 0x0006#16 (txt [0x31, 0x30, 0x31, 0x30, 0x30, 0x30, 0x30, 0x30, 0x31])) =
      some ⟨true, 0x06#6, .ok, .text [0x01#8, 0x41#8]⟩ := by decide +kernel

-- 41_binary_string.md rule R126, worked example
theorem test_bytes2bin :
    latchOf (reqX 0x0007#16 [0x3F#8, 0x80#8]) =
      some ⟨true, 0x07#6, .ok, .text (txt [0x30, 0x30, 0x31, 0x31, 0x31, 0x31, 0x31, 0x31,
        0x31, 0x30, 0x30, 0x30, 0x30, 0x30, 0x30, 0x30])⟩ := by decide +kernel

-- 42_endian_int.md rule R160, worked example
theorem test_encintBeU :
    latchOf (reqAB 0x0008#16 258 0) = some ⟨true, 0x08#6, .ok, .bytes [0x01#8, 0x02#8]⟩ := by decide +kernel

-- 42_endian_int.md rule R161, worked example
theorem test_encintLeU :
    latchOf (reqAB 0x0048#16 258 4) = some ⟨true, 0x08#6, .ok, .bytes [0x02#8, 0x01#8, 0#8, 0#8]⟩ := by decide +kernel

-- 95_test_vectors.md L1.4 and L1.4b
theorem test_encintBeSs :
    latchOf (reqAB 0x0088#16 255 2) = some ⟨true, 0x08#6, .ok, .bytes [0x01#8, 0x7F#8]⟩ := by decide +kernel

theorem test_encintLeSs :
    latchOf (reqAB 0x00C8#16 255 2) = some ⟨true, 0x08#6, .ok, .bytes [0x7F#8, 0x01#8]⟩ := by decide +kernel

-- 42_endian_int.md rule R164, worked example and the corner case 128
theorem test_encintBeS :
    latchOf (reqAB 0x0108#16 (-129) 0) = some ⟨true, 0x08#6, .ok, .bytes [0xFF#8, 0x7F#8]⟩ := by decide +kernel

theorem test_encintBeS_top_bit :
    latchOf (reqAB 0x0108#16 128 0) = some ⟨true, 0x08#6, .ok, .bytes [0x00#8, 0x80#8]⟩ := by decide +kernel

-- 42_endian_int.md rule R165, worked example
theorem test_encintLeS :
    latchOf (reqAB 0x0148#16 (-2) 4) = some ⟨true, 0x08#6, .ok, .bytes [0xFE#8, 0xFF#8, 0xFF#8, 0xFF#8]⟩ := by
  decide +kernel

-- 42_endian_int.md rules R166, R167, R176, R177, worked examples
theorem test_encintBeYs : latchOf (reqAB 0x0188#16 1 1) = some ⟨true, 0x08#6, .configurationError, .none⟩ := by
  decide +kernel

theorem test_encintLeYs : latchOf (reqAB 0x01C8#16 0 0) = some ⟨true, 0x08#6, .configurationError, .none⟩ := by
  decide +kernel

theorem test_decintBeYs : latchOf (reqX 0x0189#16 [0#8]) = some ⟨true, 0x09#6, .configurationError, .none⟩ := by
  decide +kernel

theorem test_decintLeYs : latchOf (reqX 0x01C9#16 []) = some ⟨true, 0x09#6, .configurationError, .none⟩ := by
  decide +kernel

-- 42_endian_int.md rules R170 to R175, worked examples
theorem test_decintBeU : latchOf (reqX 0x0009#16 [0x01#8, 0x02#8]) = some ⟨true, 0x09#6, .ok, .int 258⟩ := by
  decide +kernel

theorem test_decintLeU :
    latchOf (reqX 0x0049#16 [0x02#8, 0x01#8, 0#8, 0#8]) = some ⟨true, 0x09#6, .ok, .int 258⟩ := by decide +kernel

-- the corner case of rule R172: bit 7 is masked
theorem test_decintBeSs : latchOf (reqX 0x0089#16 [0x81#8, 0xFF#8]) = some ⟨true, 0x09#6, .ok, .int 255⟩ := by
  decide +kernel

theorem test_decintLeSs : latchOf (reqX 0x00C9#16 [0x7F#8, 0x01#8]) = some ⟨true, 0x09#6, .ok, .int 255⟩ := by
  decide +kernel

theorem test_decintBeS : latchOf (reqX 0x0109#16 [0xFF#8, 0x7F#8]) = some ⟨true, 0x09#6, .ok, .int (-129)⟩ := by
  decide +kernel

theorem test_decintLeS :
    latchOf (reqX 0x0149#16 [0xFE#8, 0xFF#8, 0xFF#8, 0xFF#8]) = some ⟨true, 0x09#6, .ok, .int (-2)⟩ := by
  decide +kernel

-- 43_float.md rule R194, worked example (1.5) and the corner case -0
theorem test_f6enc :
    latchOf (reqV 0x000A#16 0x3FF8000000000000#64) =
      some ⟨true, 0x0A#6, .ok, .bytes [0x01#8, 0x00#8, 0x33#8, 0x33#8, 0x33#8, 0x13#8]⟩ := by decide +kernel

theorem test_f6enc_neg_zero :
    latchOf (reqV 0x000A#16 0x8000000000000000#64) =
      some ⟨true, 0x0A#6, .ok, .bytes [0x00#8, 0x80#8, 0#8, 0#8, 0#8, 0#8]⟩ := by decide +kernel

-- 95_test_vectors.md L1.5: 1.5 and 0.001 (a negative exponent)
theorem test_f6dec :
    latchOf (reqX 0x000B#16 [0x01#8, 0x00#8, 0x33#8, 0x33#8, 0x33#8, 0x13#8]) =
      some ⟨true, 0x0B#6, .ok, .val (.fin (3221225470 / 2147483647))⟩ := by decide +kernel

theorem test_f6dec_neg_exponent :
    latchOf (reqX 0x000B#16 [0x02#8, 0x40#8, 0xCC#8, 0xCC#8, 0xCC#8, 0x0C#8]) =
      some ⟨true, 0x0B#6, .ok, .val (.fin (53687091 / 53687091175))⟩ := by decide +kernel

-- 95_test_vectors.md L1.1b and L1.3
theorem test_fdec_subnormal :
    latchOf (reqX 0x000C#16 [0x00#8, 0x00#8, 0x80#8, 0x3F#8]) =
      some ⟨true, 0x0C#6, .ok, .val (.fin (32831 * 2 ^ (-149 : Int)))⟩ := by decide +kernel

theorem test_fdec_infinity :
    latchOf (reqX 0x000C#16 [0xFF#8, 0x80#8, 0x00#8, 0x00#8]) =
      some ⟨true, 0x0C#6, .special, .val (.inf true)⟩ := by decide +kernel

-- 43_float.md rule R214, worked example (5.25) and the corner case -0
theorem test_fbinfrac :
    latchOf (reqV 0x000D#16 0x4015000000000000#64) =
      some ⟨true, 0x0D#6, .ok, .binfrac false (txt [0x31, 0x30, 0x31, 0x2E, 0x30, 0x31]) false⟩ := by decide +kernel

theorem test_fbinfrac_neg_zero :
    latchOf (reqV 0x000D#16 0x8000000000000000#64) =
      some ⟨true, 0x0D#6, .ok, .binfrac true (txt [0x30, 0x2E, 0x30]) false⟩ := by decide +kernel

-- 43_float.md rule R216, worked examples
theorem test_normbp :
    latchOf (reqTXB 0x000E#16 (txt [0x31, 0x30, 0x31, 0x2E, 0x30, 0x31]) 4) =
      some ⟨true, 0x0E#6, .ok, .norm false 2 (txt [0x30, 0x31, 0x30, 0x31])⟩ := by decide +kernel

theorem test_normbp_below_one :
    latchOf (reqTXB 0x000E#16 (txt [0x30, 0x2E, 0x30, 0x30, 0x31, 0x30, 0x31]) 4) =
      some ⟨true, 0x0E#6, .ok, .norm false (-3) (txt [0x30, 0x31, 0x30, 0x30])⟩ := by decide +kernel

/-- The bytes of the worked examples of 44_guid.md. -/
def guidExample : List Byte :=
  txt [0x00, 0x11, 0x22, 0x33, 0x44, 0x55, 0x66, 0x77, 0x88, 0x99, 0xAA, 0xBB, 0xCC, 0xDD, 0xEE, 0xFF]

/-- `"33221100-5544-7766-8899-AABBCCDDEEFF"`, the text of the worked example of 44_guid.md rule R241. -/
def guidExampleText : Text :=
  txt [0x33, 0x33, 0x32, 0x32, 0x31, 0x31, 0x30, 0x30, 0x2D, 0x35, 0x35, 0x34, 0x34, 0x2D, 0x37, 0x37, 0x36, 0x36,
    0x2D, 0x38, 0x38, 0x39, 0x39, 0x2D, 0x41, 0x41, 0x42, 0x42, 0x43, 0x43, 0x44, 0x44, 0x45, 0x45, 0x46, 0x46]

-- 44_guid.md rule R241, worked example
theorem test_guid2str :
    latchOf (reqX 0x000F#16 guidExample) = some ⟨true, 0x0F#6, .ok, .text guidExampleText⟩ := by decide +kernel

-- 44_guid.md rule R242, worked example: the last group in lowercase
theorem test_str2guid :
    latchOf (reqTX 0x0010#16 (guidExampleText.take 24 ++
      txt [0x61, 0x61, 0x62, 0x62, 0x63, 0x63, 0x64, 0x64, 0x65, 0x65, 0x66, 0x66])) =
      some ⟨true, 0x10#6, .ok, .bytes guidExample⟩ := by decide +kernel

-- 95_test_vectors.md L1.15: a '+' where the first hyphen belongs
theorem test_str2guid_hyphen :
    latchOf (reqTX 0x0010#16 (guidExampleText.set 8 0x2B#8)) = some ⟨true, 0x10#6, .invalidFormat, .none⟩ := by
  decide +kernel

-- 60_exceptions.md rule R303: `RSP.OP` records the presented field of an illegal word
theorem test_illegal_records_op : latchOf (reqAB 0x003F#16 1 1) = some ⟨true, 0x3F#6, .illegalCommand, .none⟩ := by
  decide +kernel

/-! ### Witnesses: a concrete state and operands that meet all the hypotheses of a statement -/

/-- `'0'` and `'1'` texts for the witnesses: `"101"`. -/
def bits101 : Text := txt [0x31, 0x30, 0x31]

/-- A state whose host presents a request and then another. -/
def twoRequests : State :=
  { State.reset with host := [.present (reqAB 0x0001#16 2 3), .present (reqTX 0x0003#16 bits101)] }

theorem witness_DecodeAndEncodeAgree : Instr.wf .dec2binpT = true ∧ encode .dec2binpT = 0x0205#16 := by decide

/-- Each of the four conditions at its boundary: `RSV` bit 10, `OP` 0x00, 0x11 and 0x3F, `E` on ADD, `T` on ADD and on
ENCINT; and the legal words next to them. -/
theorem witness_IllegalWordsAreReported :
    (State.reset.presentNext (reqAB 0x0401#16 0 0)).host = .present (reqAB 0x0401#16 0 0) :: [] ∧
    IsIllegalWord 0x0401#16 ∧ IsIllegalWord 0x0000#16 ∧ IsIllegalWord 0x0011#16 ∧ IsIllegalWord 0x003F#16 ∧
    IsIllegalWord 0x0041#16 ∧ IsIllegalWord 0x0201#16 ∧ IsIllegalWord 0x0208#16 ∧ ¬ IsIllegalWord 0x0001#16 ∧
    ¬ IsIllegalWord 0x0010#16 ∧ ¬ IsIllegalWord 0x01C8#16 ∧ ¬ IsIllegalWord 0x0205#16 := by
  refine ⟨rfl, ?_, ?_, ?_, ?_, ?_, ?_, ?_, ?_, ?_, ?_, ?_⟩ <;> (unfold IsIllegalWord; decide)

theorem witness_StepRunsDecodedCommand :
    twoRequests.host = .present (reqAB 0x0001#16 2 3) :: [.present (reqTX 0x0003#16 bits101)] ∧
    decode (reqAB 0x0001#16 2 3).cmd = .ok .add ∧ Instr.wf .add = true := ⟨rfl, rfl, rfl⟩

theorem witness_RequestEndsInOneLatchWrite :
    twoRequests.host = .present (reqAB 0x0001#16 2 3) :: .present (reqTX 0x0003#16 bits101) :: [] := by decide

theorem witness_LatchHoldsLastResponse :
    twoRequests.host = .present (reqAB 0x0001#16 2 3) :: .present (reqTX 0x0003#16 bits101) :: [] := by decide

/-- BIN2DEC reads `TX` alone: the two requests differ in all the others. -/
theorem witness_UnreadOperandsNeverMatter :
    (reqTX 0x0003#16 bits101).cmd = (on ⟨0x0003#16, 7, 8, 9#64, [1#8], bits101⟩).port.cmd ∧
    agreeOn (readsOf .bin2dec) (on ⟨0x0003#16, 7, 8, 9#64, [1#8], bits101⟩).port (reqTX 0x0003#16 bits101) := by
  unfold agreeOn
  decide

/-- Two states with different latches and futures that perform the same request. -/
theorem witness_ResponseDependsOnRequestOnly :
    State.reset.params = twoRequests.params ∧
    ({ State.reset with
        rsp := ⟨true, 0x09#6, .ok, .int 5⟩,
        host := [.present (reqAB 0x0001#16 2 3)] } : State).host = .present (reqAB 0x0001#16 2 3) :: [] ∧
    twoRequests.host = .present (reqAB 0x0001#16 2 3) :: [.present (reqTX 0x0003#16 bits101)] := by decide

theorem witness_IdleStepChangesNothing : State.reset.host = [] := by decide

/-- A reset between requests, of a state whose latch holds a response. -/
theorem witness_ResetLeavesTheEmptyLatch :
    ({ State.reset with rsp := ⟨true, 0x09#6, .ok, .int 5⟩, host := [.reset none] } : State).host =
      .reset none :: [] := by decide

/-- A state whose host resets the block during a request and then presents it again. -/
theorem witness_ResetAbandonsTheRequest :
    ({ State.reset with
        host := [.reset (some (reqAB 0x0001#16 2 3)), .present (reqAB 0x0001#16 2 3)] } : State).host =
      .reset (some (reqAB 0x0001#16 2 3)) :: .present (reqAB 0x0001#16 2 3) :: [] := by decide

theorem witness_HostReadsTheLatchAsWritten :
    (State.reset.presentNext (reqAB 0x0001#16 2 3)).host = .present (reqAB 0x0001#16 2 3) :: [] ∧
    step (State.reset.presentNext (reqAB 0x0001#16 2 3)) =
      .next { State.reset with rsp := ⟨true, 0x01#6, .ok, .int 5⟩, port := reqAB 0x0001#16 2 3 } ∧
    State.reset.safe = true ∧ State.reset.rsp.valid = false := by
  refine ⟨rfl, ?_, by decide +kernel, by decide⟩
  have h : latchOf (reqAB 0x0001#16 2 3) = some ⟨true, 0x01#6, .ok, .int 5⟩ := by decide +kernel
  unfold latchOf at h
  rfl

/-- A command that returns a payload, and FDEC that returns an infinity. -/
theorem witness_SpecialIsInfinityOrNan :
    latchOf (reqAB 0x0001#16 2 3) = some ⟨true, 0x01#6, .ok, .int 5⟩ ∧
    latchOf (reqX 0x000C#16 [0x7F#8, 0x80#8, 0#8, 0#8]) = some ⟨true, 0x0C#6, .special, .val (.inf false)⟩ := by
  decide +kernel

theorem witness_StepKeepsSafe :
    (State.reset.presentNext (reqX 0x000C#16 [0x7F#8, 0x80#8, 0#8, 0#8])).safe = true ∧
    latchOf (reqX 0x000C#16 [0x7F#8, 0x80#8, 0#8, 0#8]) = some ⟨true, 0x0C#6, .special, .val (.inf false)⟩ := by
  decide +kernel

/-- The two ends of the range at `W = 32`. -/
theorem witness_AddWraps :
    1 ≤ (on (reqAB 0x0001#16 (-2147483648) 2147483647)).params.addBits ∧
    -2 ^ ((on (reqAB 0x0001#16 (-2147483648) 2147483647)).params.addBits - 1) ≤
      (on (reqAB 0x0001#16 (-2147483648) 2147483647)).port.a ∧
    (on (reqAB 0x0001#16 (-2147483648) 2147483647)).port.a ≤ 2 ^ (Params.standard.addBits - 1) - 1 ∧
    -2 ^ (Params.standard.addBits - 1) ≤ (on (reqAB 0x0001#16 (-2147483648) 2147483647)).port.b ∧
    (on (reqAB 0x0001#16 (-2147483648) 2147483647)).port.b ≤
      2 ^ ((on (reqAB 0x0001#16 (-2147483648) 2147483647)).params.addBits - 1) - 1 := by decide

/-- A state of the narrowest adder, `W = 1`, with the two values of its range on the port. -/
def narrow : State :=
  { on (reqAB 0x0002#16 (-1) 0) with params := { Params.standard with addBits := 1 } }

theorem witness_SubWraps :
    1 ≤ narrow.params.addBits ∧ -2 ^ (narrow.params.addBits - 1) ≤ narrow.port.a ∧
    narrow.port.a ≤ 2 ^ (narrow.params.addBits - 1) - 1 ∧ -2 ^ (narrow.params.addBits - 1) ≤ narrow.port.b ∧
    narrow.port.b ≤ 2 ^ (narrow.params.addBits - 1) - 1 := by decide

/-- `A` at the top of the range and `B` at its bottom, which negates to itself. -/
theorem witness_AddAndSubLaws :
    1 ≤ State.reset.params.addBits ∧ -2 ^ (State.reset.params.addBits - 1) ≤ (2147483647 : Int) ∧
    (2147483647 : Int) ≤ 2 ^ (State.reset.params.addBits - 1) - 1 ∧
    -2 ^ (State.reset.params.addBits - 1) ≤ (-2147483648 : Int) ∧
    (-2147483648 : Int) ≤ 2 ^ (State.reset.params.addBits - 1) - 1 := by decide

/-- One value outside each of the four bounds. -/
theorem witness_ArithmeticRangeErrors :
    1 ≤ (on (reqAB 0x0001#16 0 0)).params.addBits ∧
    (on (reqAB 0x0001#16 (-2147483649) 0)).port.a < -2 ^ (Params.standard.addBits - 1) ∧
    2 ^ (Params.standard.addBits - 1) - 1 < (on (reqAB 0x0001#16 2147483648 0)).port.a ∧
    (on (reqAB 0x0001#16 0 (-2147483649))).port.b < -2 ^ (Params.standard.addBits - 1) ∧
    2 ^ (Params.standard.addBits - 1) - 1 < (on (reqAB 0x0001#16 0 2147483648)).port.b := by decide

/-- The longest bit-string and the empty one. -/
theorem witness_Bin2DecSumsTheBits :
    (on (reqTX 0x0003#16 (List.replicate 2048 0x31#8))).port.tx.length ≤ Params.standard.textMax ∧
    IsBitString (on (reqTX 0x0003#16 (List.replicate 2048 0x31#8))).port.tx ∧ IsBitString [] := by
  refine ⟨by decide +kernel, fun c hc => .inr (List.eq_of_mem_replicate hc), by simp [IsBitString]⟩

theorem witness_Bin2TxtCutsChunksFromTheRight :
    (on (reqTX 0x0006#16 (List.replicate 2048 0x31#8))).port.tx.length ≤ Params.standard.textMax ∧
    IsBitString (on (reqTX 0x0006#16 (List.replicate 2048 0x31#8))).port.tx := by
  refine ⟨by decide +kernel, fun c hc => .inr (List.eq_of_mem_replicate hc)⟩

/-- 0 and the greatest number. -/
theorem witness_Dec2BinWritesLeastText :
    (0 ≤ (on (reqAB 0x0004#16 0 0)).port.a ∧ (on (reqAB 0x0004#16 0 0)).port.a < 2 ^ Params.standard.textMax) ∧
    0 ≤ (on (reqAB 0x0004#16 (2 ^ 2048 - 1) 0)).port.a ∧
      (on (reqAB 0x0004#16 (2 ^ 2048 - 1) 0)).port.a < 2 ^ Params.standard.textMax := by decide +kernel

/-- `(0, 0)` and the greatest number at the greatest width. -/
theorem witness_Dec2BinpPadsToWidth :
    (0 ≤ (on (reqAB 0x0005#16 0 0)).port.a ∧ (on (reqAB 0x0005#16 0 0)).port.a < 2 ^ Params.standard.textMax ∧
      0 ≤ (on (reqAB 0x0005#16 0 0)).port.b ∧ (on (reqAB 0x0005#16 0 0)).port.b ≤ Params.standard.textMax ∧
      (on (reqAB 0x0005#16 0 0)).port.a < 2 ^ (on (reqAB 0x0005#16 0 0)).port.b.toNat) ∧
    (0 ≤ (on (reqAB 0x0005#16 (2 ^ 2048 - 1) 2048)).port.a ∧
      (on (reqAB 0x0005#16 (2 ^ 2048 - 1) 2048)).port.a < 2 ^ Params.standard.textMax ∧
      0 ≤ (on (reqAB 0x0005#16 (2 ^ 2048 - 1) 2048)).port.b ∧
      (on (reqAB 0x0005#16 (2 ^ 2048 - 1) 2048)).port.b ≤ Params.standard.textMax ∧
      (on (reqAB 0x0005#16 (2 ^ 2048 - 1) 2048)).port.a <
        2 ^ (on (reqAB 0x0005#16 (2 ^ 2048 - 1) 2048)).port.b.toNat) := by decide +kernel

/-- The greatest number at width 0. -/
theorem witness_Dec2BinpTKeepsLowBits :
    0 ≤ (on (reqAB 0x0205#16 (2 ^ 2048 - 1) 0)).port.a ∧
    (on (reqAB 0x0205#16 (2 ^ 2048 - 1) 0)).port.a < 2 ^ Params.standard.textMax ∧
    0 ≤ (on (reqAB 0x0205#16 (2 ^ 2048 - 1) 0)).port.b ∧
    (on (reqAB 0x0205#16 (2 ^ 2048 - 1) 0)).port.b ≤ Params.standard.textMax := by decide +kernel

/-- The longest byte operand. -/
theorem witness_Bytes2BinWritesEachBit :
    (on (reqX 0x0007#16 (List.replicate 256 0xFF#8))).port.x.length ≤ Params.standard.bytesMax ∧
    8 * (on (reqX 0x0007#16 (List.replicate 256 0xFF#8))).port.x.length ≤ Params.standard.textMax := by decide +kernel

/-- One operand outside each bound. -/
theorem witness_BinaryStringErrors :
    Params.standard.textMax < (on (reqTX 0x0003#16 (List.replicate 2049 0x30#8))).port.tx.length ∧
    ((on (reqTX 0x0003#16 [0x32#8])).port.tx.length ≤ Params.standard.textMax ∧
      ¬ IsBitString (on (reqTX 0x0003#16 [0x32#8])).port.tx) ∧
    (on (reqAB 0x0004#16 (-1) 0)).port.a < 0 ∧
    2 ^ Params.standard.textMax ≤ (on (reqAB 0x0004#16 (2 ^ 2048) 0)).port.a ∧
    (on (reqAB 0x0005#16 0 (-1))).port.b < 0 ∧
    (Params.standard.textMax : Int) < (on (reqAB 0x0005#16 0 2049)).port.b ∧
    2 ^ (on (reqAB 0x0005#16 256 8)).port.b.toNat ≤ (on (reqAB 0x0005#16 256 8)).port.a ∧
    Params.standard.bytesMax < (on (reqX 0x0007#16 (List.replicate 257 0#8))).port.x.length ∧
    Params.standard.textMax < 8 * (on (reqX 0x0007#16 (List.replicate 257 0#8))).port.x.length := by
  unfold IsBitString
  decide +kernel

/-- The greatest number, the longest byte sequence, the greatest width. -/
theorem witness_BinaryStringRoundTrips :
    State.reset.params.wf = true ∧ (0 : Int) ≤ 2 ^ 2048 - 1 ∧
    (2 ^ 2048 - 1 : Int) < 2 ^ State.reset.params.textMax ∧
    (List.replicate 256 0#8 : List Byte).length ≤ State.reset.params.bytesMax ∧
    8 * (List.replicate 256 0#8 : List Byte).length ≤ State.reset.params.textMax ∧
    (2048 : Int) ≤ State.reset.params.textMax ∧ (2 ^ 2048 - 1 : Int) < 2 ^ (2048 : Int).toNat := by decide +kernel

/-- The greatest number of each base at the greatest width, and `(0, 0)`. -/
theorem witness_UnsignedEncodeWritesDigits :
    1 ≤ State.reset.params.intMaxBytes ∧
    (0 ≤ (on (reqAB 0x0008#16 (256 ^ 8 - 1) 8)).port.a ∧ 0 ≤ (on (reqAB 0x0008#16 (256 ^ 8 - 1) 8)).port.b ∧
      (on (reqAB 0x0008#16 (256 ^ 8 - 1) 8)).port.b ≤ State.reset.params.intMaxBytes ∧
      (on (reqAB 0x0008#16 (256 ^ 8 - 1) 8)).port.a < 256 ^ State.reset.params.intMaxBytes) ∧
    (0 ≤ (on (reqAB 0x0088#16 (128 ^ 8 - 1) 0)).port.a ∧ 0 ≤ (on (reqAB 0x0088#16 (128 ^ 8 - 1) 0)).port.b ∧
      (on (reqAB 0x0088#16 (128 ^ 8 - 1) 0)).port.b ≤ State.reset.params.intMaxBytes ∧
      (on (reqAB 0x0088#16 (128 ^ 8 - 1) 0)).port.a < 128 ^ State.reset.params.intMaxBytes) := by decide +kernel

/-- The two ends of the signed range, at the ends of the width's range. -/
theorem witness_SignedEncodeWritesTwosComplement :
    (-2 ^ 31 ≤ (on (reqAB 0x0108#16 (-2147483648) 0)).port.a ∧
      (on (reqAB 0x0108#16 (-2147483648) 0)).port.a ≤ 2 ^ 31 - 1 ∧
      0 ≤ (on (reqAB 0x0108#16 (-2147483648) 0)).port.b ∧ (on (reqAB 0x0108#16 (-2147483648) 0)).port.b ≤ 4) ∧
    (-2 ^ 31 ≤ (on (reqAB 0x0108#16 2147483647 4)).port.a ∧
      (on (reqAB 0x0108#16 2147483647 4)).port.a ≤ 2 ^ 31 - 1 ∧
      0 ≤ (on (reqAB 0x0108#16 2147483647 4)).port.b ∧ (on (reqAB 0x0108#16 2147483647 4)).port.b ≤ 4) := by
  decide

/-- Eight bytes and none. -/
theorem witness_UnsignedDecodeSumsDigits :
    (on (reqX 0x0009#16 (List.replicate 8 0xFF#8))).port.x.length ≤ State.reset.params.bytesMax ∧
    (on (reqX 0x0009#16 (List.replicate 8 0xFF#8))).port.x.length ≤ State.reset.params.intMaxBytes ∧
    (on (reqX 0x0009#16 [])).port.x.length ≤ State.reset.params.intMaxBytes := by decide

/-- Four bytes and none. -/
theorem witness_SignedDecodeReadsTwosComplement :
    (on (reqX 0x0109#16 [0x80#8, 0#8, 0#8, 0#8])).port.x.length ≤ State.reset.params.bytesMax ∧
    (on (reqX 0x0109#16 [0x80#8, 0#8, 0#8, 0#8])).port.x.length ≤ 4 ∧ (on (reqX 0x0109#16 [])).port.x.length ≤ 4 := by
  decide

/-- One operand just outside each bound. -/
theorem witness_EncodeRangeErrors :
    (on (reqAB 0x0008#16 0 (-1))).port.b < 0 ∧ (on (reqAB 0x0008#16 (-1) 0)).port.a < 0 ∧
    (State.reset.params.intMaxBytes : Int) < (on (reqAB 0x0008#16 0 9)).port.b ∧
    ({ on (reqAB 0x0008#16 0 0) with params := { Params.standard with intMaxBytes := 0 } } : State).params.intMaxBytes
      = 0 ∧
    256 ^ State.reset.params.intMaxBytes ≤ (on (reqAB 0x0008#16 (256 ^ 8) 0)).port.a ∧
    128 ^ State.reset.params.intMaxBytes ≤ (on (reqAB 0x0088#16 (128 ^ 8) 0)).port.a ∧
    (on (reqAB 0x0108#16 (-2147483649) 0)).port.a < -2 ^ 31 ∧ 2 ^ 31 ≤ (on (reqAB 0x0108#16 2147483648 0)).port.a ∧
    4 < (on (reqAB 0x0108#16 0 5)).port.b := by decide

/-- One byte too many for each limit. -/
theorem witness_DecodeLengthErrors :
    State.reset.params.bytesMax < (on (reqX 0x0009#16 (List.replicate 257 0#8))).port.x.length ∧
    State.reset.params.intMaxBytes < (on (reqX 0x0009#16 (List.replicate 9 0#8))).port.x.length ∧
    4 < (on (reqX 0x0109#16 (List.replicate 5 0#8))).port.x.length := by decide +kernel

/-- ENCINT.LE.S of -2 in four bytes (42_endian_int.md rule R165). -/
theorem witness_EndianRoundTrip :
    State.reset.params.wf = true ∧
    (Instr.encintLeS, Instr.decintLeS) ∈ [(Instr.encintBeU, Instr.decintBeU), (.encintLeU, .decintLeU),
      (.encintBeSs, .decintBeSs), (.encintLeSs, .decintLeSs), (.encintBeS, .decintBeS), (.encintLeS, .decintLeS)] ∧
    exec .encintLeS (State.reset.onAB (-2) 4) =
      .next (answered (State.reset.onAB (-2) 4) .ok (.bytes [0xFE#8, 0xFF#8, 0xFF#8, 0xFF#8])) := by
  refine ⟨by decide, by decide, ?_⟩
  have h : encint true false true State.reset.params (State.reset.onAB (-2) 4).port =
      .ret (.bytes [0xFE#8, 0xFF#8, 0xFF#8, 0xFF#8]) := by decide +kernel
  change State.finish _ (encint true false true State.reset.params (State.reset.onAB (-2) 4).port) = _
  rw [h]
  rfl

/-- One pattern for each of the five cases, the fields at the ends of their ranges. -/
theorem witness_FdecReadsBinary32 :
    (on (reqX 0x000C#16 [0xFF#8, 0xFF#8, 0xFF#8, 0xFF#8])).port.x = bytesOf32 0xFFFFFFFF#32 ∧
    [0xFF800000#32, 0x80000000#32, 0x00000001#32, 0x00800000#32].all
      (fun u => (on (reqX 0x000C#16 (bytesOf32 u))).port.x == bytesOf32 u) = true ∧
    4 ≤ State.reset.params.bytesMax ∧
    (expField32 0xFFFFFFFF#32 = 255 ∧ fracField32 0xFFFFFFFF#32 ≠ 0) ∧
    (expField32 0xFF800000#32 = 255 ∧ fracField32 0xFF800000#32 = 0) ∧
    (expField32 0x80000000#32 = 0 ∧ fracField32 0x80000000#32 = 0) ∧
    (expField32 0x00000001#32 = 0 ∧ fracField32 0x00000001#32 ≠ 0) ∧
    (expField32 0x00800000#32 ≠ 0 ∧ expField32 0x00800000#32 ≠ 255) := by decide +kernel

theorem witness_FdecReadsBinary64 :
    (on (reqX 0x000C#16 [0x3F#8, 0xF8#8, 0#8, 0#8, 0#8, 0#8, 0#8, 0#8])).port.x = bytesOf64 0x3FF8000000000000#64 ∧
    [0x7FF0000000000001#64, 0x7FF0000000000000#64, 0x8000000000000000#64, 0x0000000000000001#64,
      0x7FEFFFFFFFFFFFFF#64].all (fun v => (on (reqX 0x000C#16 (bytesOf64 v))).port.x == bytesOf64 v) = true ∧
    8 ≤ State.reset.params.bytesMax ∧
    (expField64 0x7FF0000000000001#64 = 2047 ∧ fracField64 0x7FF0000000000001#64 ≠ 0) ∧
    (expField64 0x7FF0000000000000#64 = 2047 ∧ fracField64 0x7FF0000000000000#64 = 0) ∧
    (expField64 0x8000000000000000#64 = 0 ∧ fracField64 0x8000000000000000#64 = 0) ∧
    (expField64 0x0000000000000001#64 = 0 ∧ fracField64 0x0000000000000001#64 ≠ 0) ∧
    (expField64 0x7FEFFFFFFFFFFFFF#64 ≠ 0 ∧ expField64 0x7FEFFFFFFFFFFFFF#64 ≠ 2047) := by decide +kernel

/-- 1.5, and the least subnormal. -/
theorem witness_F6EncPacksSignExponentFraction :
    (expField64 (on (reqV 0x000A#16 0x3FF8000000000000#64)).port.v ≠ 2047 ∧
      magnitude64 (on (reqV 0x000A#16 0x3FF8000000000000#64)).port.v ≠ 0) ∧
    (expField64 (on (reqV 0x000A#16 0x0000000000000001#64)).port.v ≠ 2047 ∧
      magnitude64 (on (reqV 0x000A#16 0x0000000000000001#64)).port.v ≠ 0) := by decide +kernel

theorem witness_F6EncKeepsTheSignOfZero :
    expField64 (on (reqV 0x000A#16 0x8000000000000000#64)).port.v = 0 ∧
    fracField64 (on (reqV 0x000A#16 0x8000000000000000#64)).port.v = 0 := by decide

/-- Fraction bit 31 alone is ignored by default (fraction 0), and the fraction of 1.5 is not 0. -/
theorem witness_F6DecReadsSignExponentFraction :
    (on (reqX 0x000B#16 [0x01#8, 0x00#8, 0x33#8, 0x33#8, 0x33#8, 0x13#8])).port.x =
      [0x01#8, 0x00#8, 0x33#8, 0x33#8, 0x33#8, 0x13#8] ∧
    (on (reqX 0x000B#16 [0x00#8, 0x80#8, 0#8, 0#8, 0#8, 0x80#8])).port.x =
      [0x00#8, 0x80#8, 0#8, 0#8, 0#8, 0x80#8] ∧
    6 ≤ State.reset.params.bytesMax ∧ float6Fraction State.reset.params 0#8 0#8 0#8 0x80#8 = 0 ∧
    float6Fraction State.reset.params 0x33#8 0x33#8 0x33#8 0x13#8 ≠ 0 := by decide +kernel

/-- Both clauses: -0 and the least subnormal. -/
theorem witness_Float6RoundTripTolerance :
    (on (reqV 0x000A#16 0x8000000000000000#64)).params.wf = true ∧
    expField64 (on (reqV 0x000A#16 0x8000000000000000#64)).port.v ≠ 2047 ∧
    magnitude64 (on (reqV 0x000A#16 0x8000000000000000#64)).port.v = 0 ∧
    expField64 (on (reqV 0x000A#16 0x0000000000000001#64)).port.v ≠ 2047 ∧
    magnitude64 (on (reqV 0x000A#16 0x0000000000000001#64)).port.v ≠ 0 := by decide +kernel

/-- The greatest finite value and the least subnormal, whose fraction is cut. -/
theorem witness_FbinfracExpandsTheFraction :
    expField64 (on (reqV 0x000D#16 0x7FEFFFFFFFFFFFFF#64)).port.v ≠ 2047 ∧
    expField64 (on (reqV 0x000D#16 0x0000000000000001#64)).port.v ≠ 2047 := by decide

theorem witness_FbinfracTruncates :
    expField64 (on (reqV 0x000D#16 0x8000000000000001#64)).port.v ≠ 2047 := by decide

/-- A zero (`"0"`) and a text with a leading one (`"0.1"`), at the ends of the width's range. -/
theorem witness_NormbpFindsTheLeadingOne :
    (IsBinaryPoint (on (reqTXB 0x000E#16 [0x30#8] 0)).port.tx [0x30#8] [] ∧
      (∀ c ∈ ([0x30#8] ++ [] : Text), c = 0x30#8) ∧ 0 ≤ (on (reqTXB 0x000E#16 [0x30#8] 0)).port.b ∧
      (on (reqTXB 0x000E#16 [0x30#8] 0)).port.tx.length ≤ State.reset.params.textMax ∧
      (on (reqTXB 0x000E#16 [0x30#8] 0)).port.b ≤ State.reset.params.textMax) ∧
    (IsBinaryPoint (on (reqTXB 0x000E#16 [0x30#8, 0x2E#8, 0x31#8] 2048)).port.tx [0x30#8] [0x31#8] ∧
      (on (reqTXB 0x000E#16 [0x30#8, 0x2E#8, 0x31#8] 2048)).port.tx.length ≤ State.reset.params.textMax ∧
      0 ≤ (on (reqTXB 0x000E#16 [0x30#8, 0x2E#8, 0x31#8] 2048)).port.b ∧
      (on (reqTXB 0x000E#16 [0x30#8, 0x2E#8, 0x31#8] 2048)).port.b ≤ State.reset.params.textMax ∧
      ([0x30#8] ++ [0x31#8] : Text) = [0x30#8] ++ 0x31#8 :: [] ∧ ∀ c ∈ ([0x30#8] : Text), c = 0x30#8) := by
  unfold IsBinaryPoint IsBitString
  decide +kernel

theorem witness_NormbpBoundsTheValue :
    IsBinaryPoint (on (reqTXB 0x000E#16 [0x31#8, 0x2E#8] 2048)).port.tx [0x31#8] [] ∧
    (on (reqTXB 0x000E#16 [0x31#8, 0x2E#8] 2048)).port.tx.length ≤ State.reset.params.textMax ∧
    0 ≤ (on (reqTXB 0x000E#16 [0x31#8, 0x2E#8] 2048)).port.b ∧
    (on (reqTXB 0x000E#16 [0x31#8, 0x2E#8] 2048)).port.b ≤ State.reset.params.textMax := by
  unfold IsBinaryPoint IsBitString
  decide +kernel

theorem witness_NormbpOfFbinfracGivesTheFields :
    (on (reqV 0x000D#16 0x3FF8000000000000#64)).params.wf = true ∧
    expField64 (on (reqV 0x000D#16 0x3FF8000000000000#64)).port.v ≠ 0 ∧
    expField64 (on (reqV 0x000D#16 0x3FF8000000000000#64)).port.v ≠ 2047 ∧
    exec .fbinfrac (on (reqV 0x000D#16 0x3FF8000000000000#64)) =
      .next (answered (on (reqV 0x000D#16 0x3FF8000000000000#64)) .ok
        (.binfrac false (txt [0x31, 0x2E, 0x31]) false)) := by
  refine ⟨by decide, by decide, by decide, ?_⟩
  have h : fbinfracCmd (on (reqV 0x000D#16 0x3FF8000000000000#64)).port =
      .ret (.binfrac false (txt [0x31, 0x2E, 0x31]) false) := by decide +kernel
  change State.finish _ (fbinfracCmd (on (reqV 0x000D#16 0x3FF8000000000000#64)).port) = _
  rw [h]
  rfl

/-- One operand for each clause. -/
theorem witness_FloatErrors :
    expField64 (on (reqV 0x000A#16 0x7FF0000000000000#64)).port.v = 2047 ∧
    (on (reqX 0x000B#16 [0#8, 0#8, 0#8, 0#8, 0#8])).port.x.length ≠ 6 ∧
    State.reset.params.bytesMax < (on (reqX 0x000B#16 (List.replicate 257 0#8))).port.x.length ∧
    ((on (reqX 0x000C#16 [0#8, 0#8, 0#8, 0#8, 0#8])).port.x.length ≠ 4 ∧
      (on (reqX 0x000C#16 [0#8, 0#8, 0#8, 0#8, 0#8])).port.x.length ≠ 8) ∧
    State.reset.params.textMax < (on (reqTXB 0x000E#16 (List.replicate 2049 0x30#8) 0)).port.tx.length ∧
    (on (reqTXB 0x000E#16 [0x31#8] (-1))).port.b < 0 ∧
    (State.reset.params.textMax : Int) < (on (reqTXB 0x000E#16 [0x31#8] 2049)).port.b := by decide +kernel

/-- NORMBP's format clauses: the text `"."` has no integer digit, the text `"1"` matches. -/
theorem witness_FloatErrors_format :
    (∀ ip fp : Text, ¬ IsBinaryPoint (on (reqTXB 0x000E#16 [0x2E#8] 0)).port.tx ip fp) ∧
    ∃ ip fp : Text, IsBinaryPoint (on (reqTXB 0x000E#16 [0x31#8] (-1))).port.tx ip fp := by
  constructor
  · rintro ip fp ⟨hne, hi, -, h⟩
    cases ip with
    | nil => exact hne rfl
    | cons c cs =>
      have hc : c = 0x2E#8 := by
        rcases h with ⟨h, -⟩ | h
        · exact (List.cons.inj h).1.symm
        · exact (List.cons.inj h).1.symm
      have := hi c (by simp)
      rw [hc] at this
      exact absurd this (by decide)
  · refine ⟨[0x31#8], [], ?_⟩
    unfold IsBinaryPoint IsBitString
    decide

theorem witness_Guid2StrWritesThePairs :
    (on (reqX 0x000F#16 guidExample)).port.x.length = 16 ∧ 16 ≤ State.reset.params.bytesMax := by decide

theorem witness_Str2GuidReadsThePairs :
    IsGuidText (on (reqTX 0x0010#16 guidExampleText)).port.tx ∧ 36 ≤ State.reset.params.textMax := by
  unfold IsGuidText
  decide +kernel

/-- One operand for each clause. -/
theorem witness_GuidErrors :
    State.reset.params.bytesMax < (on (reqX 0x000F#16 (List.replicate 257 0#8))).port.x.length ∧
    (on (reqX 0x000F#16 (List.replicate 15 0#8))).port.x.length ≠ 16 ∧
    State.reset.params.textMax < (on (reqTX 0x0010#16 (List.replicate 2049 0x30#8))).port.tx.length ∧
    ((on (reqTX 0x0010#16 [])).port.tx.length ≤ State.reset.params.textMax ∧
      ¬ IsGuidText (on (reqTX 0x0010#16 [])).port.tx) := by
  unfold IsGuidText
  decide +kernel

theorem witness_GuidRoundTrips :
    State.reset.params.wf = true ∧ guidExample.length = 16 ∧
    exec .str2guid (State.reset.onTX guidExampleText) =
      .next (answered (State.reset.onTX guidExampleText) .ok (.bytes guidExample)) := by
  refine ⟨by decide, by decide, ?_⟩
  have h : str2guidCmd State.reset.params (State.reset.onTX guidExampleText).port = .ret (.bytes guidExample) := by
    decide +kernel
  change State.finish _ (str2guidCmd State.reset.params (State.reset.onTX guidExampleText).port) = _
  rw [h]
  rfl

end Sys2Proof.Tests
end

section
/-! SUPPORT. The response of each command as a function of the parameters and the request, and the payload kind it
may return (10_state.md rules R23, R26): the facts behind the family 10_state.md. -/

namespace Sys2Proof.Machine

/-! ### The response of a command -/

/-- The result a command ends with, from the parameters and the request alone (10_state.md rule R23). -/
def responseOf (i : Instr) (P : Params) (r : Request) : Result :=
  match i with
  | .add => arithCmd (fun _ => addW) P r
  | .sub => arithCmd (fun _ => subW) P r
  | .bin2dec => bin2decCmd P r
  | .dec2bin => dec2binCmd P r
  | .dec2binp => dec2binpCmd P r
  | .dec2binpT => dec2binpTCmd P r
  | .bin2txt => bin2txtCmd P r
  | .bytes2bin => bytes2binCmd P r
  | .encintBeU => encint false false false P r
  | .encintLeU => encint true false false P r
  | .encintBeSs => encint false true false P r
  | .encintLeSs => encint true true false P r
  | .encintBeS => encint false false true P r
  | .encintLeS => encint true false true P r
  | .encintBeYs => encint false true true P r
  | .encintLeYs => encint true true true P r
  | .decintBeU => decint false false false P r
  | .decintLeU => decint true false false P r
  | .decintBeSs => decint false true false P r
  | .decintLeSs => decint true true false P r
  | .decintBeS => decint false false true P r
  | .decintLeS => decint true false true P r
  | .decintBeYs => decint false true true P r
  | .decintLeYs => decint true true true P r
  | .f6enc => f6encCmd P r
  | .f6dec => f6decCmd P r
  | .fdec => fdecCmd P r
  | .fbinfrac => fbinfracCmd r
  | .normbp => normbpCmd P r
  | .guid2str => guid2strCmd P r
  | .str2guid => str2guidCmd P r

/-- Every command ends with its response, written to the latch. -/
theorem exec_eq_finish_responseOf (i : Instr) (s : State) :
    exec i s = s.finish (responseOf i s.params s.port) := by
  cases i <;> rfl

/-! ### What a result returns -/

/-- If the result returns a payload, that payload satisfies `Q`; an error satisfies every `Q`. -/
def Result.Returns (Q : Payload → Prop) (res : Result) : Prop := ∀ p, res = .ret p → Q p

@[simp] theorem returns_ret (Q : Payload → Prop) (p : Payload) : (Result.ret p).Returns Q ↔ Q p := by
  simp [Result.Returns]

@[simp] theorem returns_raise (Q : Payload → Prop) (e : Err) : (Result.raise e).Returns Q := by
  simp [Result.Returns]

theorem Result.Returns.mono {Q Q' : Payload → Prop} {res : Result} (h : res.Returns Q) (hQ : ∀ p, Q p → Q' p) :
    res.Returns Q' :=
  fun p hp => hQ p (h p hp)

/-- A check that raises before the rest of a command leaves open only what the rest returns. -/
theorem returns_check {Q : Payload → Prop} {c : Prop} [Decidable c] {e : Err} {res : Result} (h : res.Returns Q) :
    (if c then .raise e else res : Result).Returns Q := by
  split
  · exact returns_raise Q e
  · exact h

theorem withX_returns {Q : Payload → Prop} {P : Params} {r : Request} {f : List Byte → Result}
    (h : ∀ x, (f x).Returns Q) : (withX P r f).Returns Q :=
  returns_check (h _)

theorem withTX_returns {Q : Payload → Prop} {P : Params} {r : Request} {f : Text → Result}
    (h : ∀ t, (f t).Returns Q) : (withTX P r f).Returns Q :=
  returns_check (h _)

theorem withBits_returns {Q : Payload → Prop} {P : Params} {r : Request} {f : Text → Result}
    (h : ∀ t, (f t).Returns Q) : (withBits P r f).Returns Q := by
  refine withTX_returns fun t => ?_
  split
  · exact h t
  · exact returns_raise Q _

theorem withNumber_returns {Q : Payload → Prop} {P : Params} {r : Request} {f : Nat → Result}
    (h : ∀ u, (f u).Returns Q) : (withNumber P r f).Returns Q :=
  returns_check (h _)

theorem withWidth_returns {Q : Payload → Prop} {P : Params} {r : Request} {f : Nat → Result}
    (h : ∀ w, (f w).Returns Q) : (withWidth P r f).Returns Q :=
  returns_check (h _)

/-! ### The payload kinds (10_state.md rule R26) -/

/-- The payload kinds of 10_state.md rule R26 that a command may return: all but `NONE`. -/
inductive PayloadKind where
  | int
  | bytes
  | text
  | val
  | binfrac
  | norm

/-- The kind of a payload, none for `NONE`. -/
def Payload.kind (p : Payload) : Option PayloadKind :=
  match p with
  | .none => Option.none
  | .int _ => some .int
  | .bytes _ => some .bytes
  | .text _ => some .text
  | .val _ => some .val
  | .binfrac _ _ _ => some .binfrac
  | .norm _ _ _ => some .norm

theorem ne_none_of_kind {k : PayloadKind} {p : Payload} (h : p.kind = some k) : p ≠ .none := by
  rintro rfl
  cases h

/-- The kind each command returns: the column "produced by" of rule R26's table. -/
def resultKind (i : Instr) : PayloadKind :=
  match i with
  | .add | .sub | .bin2dec => .int
  | .decintBeU | .decintLeU | .decintBeSs | .decintLeSs | .decintBeS | .decintLeS | .decintBeYs | .decintLeYs => .int
  | .encintBeU | .encintLeU | .encintBeSs | .encintLeSs | .encintBeS | .encintLeS | .encintBeYs | .encintLeYs => .bytes
  | .f6enc | .str2guid => .bytes
  | .dec2bin | .dec2binp | .dec2binpT | .bin2txt | .bytes2bin | .guid2str => .text
  | .f6dec | .fdec => .val
  | .fbinfrac => .binfrac
  | .normbp => .norm

/-- A result that is an error or returns a payload of kind `k`. -/
def Result.ReturnsKind (k : PayloadKind) (res : Result) : Prop := res.Returns fun p => p.kind = some k

theorem returnsKind_ret {k : PayloadKind} {p : Payload} (h : p.kind = some k) : (Result.ret p).ReturnsKind k :=
  (returns_ret _ p).2 h

theorem arithCmd_returnsKind (f : (W : Nat) → BitVec W → BitVec W → BitVec W) (P : Params) (r : Request) :
    (arithCmd f P r).ReturnsKind .int :=
  returns_check <| returns_check <| returnsKind_ret rfl

theorem bin2decCmd_returnsKind (P : Params) (r : Request) : (bin2decCmd P r).ReturnsKind .int :=
  withBits_returns fun _ => returnsKind_ret rfl

theorem dec2binCmd_returnsKind (P : Params) (r : Request) : (dec2binCmd P r).ReturnsKind .text :=
  withNumber_returns fun _ => returnsKind_ret rfl

theorem dec2binpCmd_returnsKind (P : Params) (r : Request) : (dec2binpCmd P r).ReturnsKind .text :=
  withNumber_returns fun _ => withWidth_returns fun _ => returns_check <| returnsKind_ret rfl

theorem dec2binpTCmd_returnsKind (P : Params) (r : Request) : (dec2binpTCmd P r).ReturnsKind .text :=
  withNumber_returns fun _ => withWidth_returns fun _ => returnsKind_ret rfl

theorem bin2txtCmd_returnsKind (P : Params) (r : Request) : (bin2txtCmd P r).ReturnsKind .text :=
  withBits_returns fun _ => returnsKind_ret rfl

theorem bytes2binCmd_returnsKind (P : Params) (r : Request) : (bytes2binCmd P r).ReturnsKind .text :=
  withX_returns fun _ => returns_check <| returnsKind_ret rfl

theorem encint_returnsKind (E Y S : Bool) (P : Params) (r : Request) : (encint E Y S P r).ReturnsKind .bytes := by
  obtain ⟨d, hd⟩ | ⟨e, he⟩ := encint_cases E Y S P r
  · rw [hd]
    exact returnsKind_ret rfl
  · rw [he]
    exact returns_raise _ e

theorem decint_returnsKind (E Y S : Bool) (P : Params) (r : Request) : (decint E Y S P r).ReturnsKind .int :=
  returns_check <| withX_returns fun _ => returns_check <| returnsKind_ret rfl

theorem f6encCmd_returnsKind (P : Params) (r : Request) : (f6encCmd P r).ReturnsKind .bytes := by
  unfold f6encCmd
  cases binary64Decode r.v.toNat with
  | zero neg => exact returnsKind_ret rfl
  | fin q => exact returnsKind_ret rfl
  | inf neg => exact returns_raise _ _
  | nan => exact returns_raise _ _

theorem f6decCmd_returnsKind (P : Params) (r : Request) : (f6decCmd P r).ReturnsKind .val := by
  refine withX_returns fun x => returns_check ?_
  dsimp only
  split <;> exact returnsKind_ret rfl

theorem fdecCmd_returnsKind (P : Params) (r : Request) : (fdecCmd P r).ReturnsKind .val := by
  refine withX_returns fun x => ?_
  dsimp only
  split
  · exact returnsKind_ret rfl
  · split
    · exact returnsKind_ret rfl
    · exact returns_raise _ _

theorem fbinfracCmd_returnsKind (r : Request) : (fbinfracCmd r).ReturnsKind .binfrac := by
  unfold fbinfracCmd
  cases (binary64Decode r.v.toNat).valueOf with
  | none => exact returns_raise _ _
  | some q => exact returnsKind_ret rfl

theorem normPayload_kind (ip fp : Text) (M : Nat) : (normPayload ip fp M).kind = some .norm := by
  unfold normPayload
  split <;> rfl

theorem normbpCmd_returnsKind (P : Params) (r : Request) : (normbpCmd P r).ReturnsKind .norm := by
  refine withTX_returns fun t => ?_
  cases splitPoint t with
  | none => exact returns_raise _ _
  | some parts => exact withWidth_returns fun M => returnsKind_ret (normPayload_kind _ _ M)

theorem guid2strCmd_returnsKind (P : Params) (r : Request) : (guid2strCmd P r).ReturnsKind .text :=
  withX_returns fun _ => returns_check <| returnsKind_ret rfl

theorem str2guidCmd_returnsKind (P : Params) (r : Request) : (str2guidCmd P r).ReturnsKind .bytes :=
  withTX_returns fun _ => returns_check <| returns_check <| returns_check <| returnsKind_ret rfl

/-- Rule R26's table: a command that raises no error returns a payload of its own kind. -/
theorem responseOf_returnsKind (i : Instr) (P : Params) (r : Request) :
    (responseOf i P r).ReturnsKind (resultKind i) :=
  match i with
  | .add | .sub => arithCmd_returnsKind _ P r
  | .bin2dec => bin2decCmd_returnsKind P r
  | .dec2bin => dec2binCmd_returnsKind P r
  | .dec2binp => dec2binpCmd_returnsKind P r
  | .dec2binpT => dec2binpTCmd_returnsKind P r
  | .bin2txt => bin2txtCmd_returnsKind P r
  | .bytes2bin => bytes2binCmd_returnsKind P r
  | .encintBeU | .encintLeU | .encintBeSs | .encintLeSs | .encintBeS | .encintLeS | .encintBeYs | .encintLeYs =>
    encint_returnsKind _ _ _ P r
  | .decintBeU | .decintLeU | .decintBeSs | .decintLeSs | .decintBeS | .decintLeS | .decintBeYs | .decintLeYs =>
    decint_returnsKind _ _ _ P r
  | .f6enc => f6encCmd_returnsKind P r
  | .f6dec => f6decCmd_returnsKind P r
  | .fdec => fdecCmd_returnsKind P r
  | .fbinfrac => fbinfracCmd_returnsKind r
  | .normbp => normbpCmd_returnsKind P r
  | .guid2str => guid2strCmd_returnsKind P r
  | .str2guid => str2guidCmd_returnsKind P r

/-! ### What a performed request leaves behind -/

/-- No request returns `NONE`: the illegal word raises, and every command returns a payload of its kind. -/
theorem perform_finishes_returning (s : State) :
    ∃ res : Result, perform s = s.finish res ∧ res.Returns (· ≠ .none) := by
  cases hd : decode s.port.cmd with
  | error e => exact ⟨.raise .illegalCommand, perform_illegal s e hd, returns_raise _ _⟩
  | ok i =>
    have hkind := responseOf_returnsKind i s.params s.port
    exact ⟨responseOf i s.params s.port, (perform_decoded s i hd).trans (exec_eq_finish_responseOf i s),
      hkind.mono fun _ => ne_none_of_kind⟩

/-- The step that takes a request writes its whole response over the latch and changes nothing else of the state
that took it. -/
theorem step_present_answers (s : State) (r : Request) (rest : List HostEvent) (h : s.host = .present r :: rest) :
    ∃ res : Result, step s = .next (answered (s.acceptRequest r rest) res.status res.payload) ∧
      res.Returns (· ≠ .none) := by
  obtain ⟨res, hperform, hres⟩ := perform_finishes_returning (s.acceptRequest r rest)
  exact ⟨res, (step_present s r rest h).trans (hperform.trans (finish_eq _ res)), hres⟩

/-- A raised error is written as one of the five error codes with `NONE`. -/
theorem raise_status_payload (e : Err) :
    ((Result.raise e).status = .invalidLength ∨ (Result.raise e).status = .invalidFormat ∨
      (Result.raise e).status = .rangeError ∨ (Result.raise e).status = .configurationError ∨
      (Result.raise e).status = .illegalCommand) ∧ (Result.raise e).payload = .none := by
  cases e <;> simp [Result.status, Result.payload, Err.status]

/-- A returned payload is written with `OK` or `SPECIAL`. -/
theorem ret_status (p : Payload) : (Result.ret p).status = .ok ∨ (Result.ret p).status = .special := by
  cases hp : p.isSpecial <;> simp [Result.status, hp]

/-- A safe state whose latch no command has written holds the reset latch. -/
theorem rsp_eq_reset_of_safe (s : State) (hsafe : s.safe = true) (hvalid : s.rsp.valid = false) :
    s.rsp = Latch.reset := by
  simp only [State.safe, latchSafe, hvalid, Bool.and_eq_true, if_true, decide_eq_true_eq] at hsafe
  exact hsafe.2

/-! ### The statements -/

/-- Settles O7: the one write is `answered`, and its code and payload are those of a result that returns no `NONE`. -/
theorem requestEndsInOneLatchWrite : Obligations.RequestEndsInOneLatchWrite := by
  intro s r rest hhost
  obtain ⟨res, hstep, hres⟩ := step_present_answers s r rest hhost
  refine ⟨res.status, res.payload, hstep, ?_⟩
  cases res with
  | ret p => exact .inl ⟨ret_status p, hres p rfl⟩
  | raise e => exact .inr (raise_status_payload e)

/-- Settles O16: after a request the latch is the one `answered` wrote, before the first it is the reset latch. -/
theorem hostReadsTheLatchAsWritten : Obligations.HostReadsTheLatchAsWritten := by
  refine ⟨fun s t r rest hhost hstep => ?_, rfl, fun s hsafe hvalid => ?_⟩
  · obtain ⟨res, hanswer, -⟩ := step_present_answers s r rest hhost
    rw [hanswer] at hstep
    cases hstep
    exact ⟨rfl, rfl, rfl⟩
  · have hread : s.readRsp = Latch.reset := rsp_eq_reset_of_safe s hsafe hvalid
    rw [hread]
    exact ⟨rfl, rfl⟩

end Sys2Proof.Machine
end

section
/-! SUPPORT. Which command words are legal and what the block answers to the others (30_encoding.md rules R57 to R59):
a legal word's fields are some command's fields, so an illegal word is one that no command has. -/

namespace Sys2Proof

/-! ### The field decoder, a family of commands at a time (30_encoding.md rule R56) -/

theorem decodeFields_encint (f : Fields) (hrsv : f.rsv = 0#6) (hop : f.op = 0x08#6) (ht : f.t = false) :
    decodeFields f = .ok (encintOf f.e f.y f.s) := by
  simp [decodeFields, hrsv, hop, ht]

theorem decodeFields_decint (f : Fields) (hrsv : f.rsv = 0#6) (hop : f.op = 0x09#6) (ht : f.t = false) :
    decodeFields f = .ok (decintOf f.e f.y f.s) := by
  simp [decodeFields, hrsv, hop, ht]

theorem decodeFields_dec2binp (f : Fields) (hrsv : f.rsv = 0#6) (hop : f.op = 0x05#6)
    (hmods : f.e = false ∧ f.y = false ∧ f.s = false) :
    decodeFields f = .ok (if f.t = true then .dec2binpT else .dec2binp) := by
  simp [decodeFields, hrsv, hop, hmods]

theorem decodeFields_plain (f : Fields) (i : Instr) (hrsv : f.rsv = 0#6)
    (h8 : f.op ≠ 0x08#6) (h9 : f.op ≠ 0x09#6) (h5 : f.op ≠ 0x05#6) (hplain : plainOf f.op = some i)
    (hmods : f.e = false ∧ f.y = false ∧ f.s = false) (ht : f.t = false) :
    decodeFields f = .ok i := by
  simp [decodeFields, hrsv, h8, h9, h5, hplain, hmods, ht]

/-- Every assigned `OP` but those of DEC2BINP, ENCINT and DECINT selects a command by itself. -/
theorem exists_plainOf (op : Opcode) (hop : 0x01#6 ≤ op ∧ op ≤ 0x10#6)
    (h5 : op ≠ 0x05#6) (h8 : op ≠ 0x08#6) (h9 : op ≠ 0x09#6) : ∃ i, plainOf op = some i := by
  have hsome : ∀ o : Opcode, 0x01#6 ≤ o ∧ o ≤ 0x10#6 → o ≠ 0x05#6 → o ≠ 0x08#6 → o ≠ 0x09#6 →
      (plainOf o).isSome = true := by decide
  exact Option.isSome_iff_exists.1 (hsome op hop h5 h8 h9)

/-! ### Legal fields (30_encoding.md rule R58) -/

/-- The four checks of `Fields.legal`, as propositions about the fields. -/
theorem legal_iff (f : Fields) :
    f.legal = true ↔ f.rsv = 0#6 ∧ (0x01#6 ≤ f.op ∧ f.op ≤ 0x10#6) ∧
      (f.op = 0x08#6 ∨ f.op = 0x09#6 ∨ (f.e = false ∧ f.y = false ∧ f.s = false)) ∧
      (f.op = 0x05#6 ∨ f.t = false) := by
  simp [Fields.legal, Fields.reservedZero, Fields.opAssigned, Fields.modifiersAllowed, Fields.truncateAllowed,
    and_assoc, or_assoc]

/-- The field decoder rejects no legal fields. -/
theorem exists_decodeFields_of_legal (f : Fields) (h : f.legal = true) : ∃ i, decodeFields f = .ok i := by
  obtain ⟨hrsv, hassigned, hmods, htrunc⟩ := (legal_iff f).1 h
  by_cases h5 : f.op = 0x05#6
  · have hmods : f.e = false ∧ f.y = false ∧ f.s = false := by simpa [h5] using hmods
    exact ⟨_, decodeFields_dec2binp f hrsv h5 hmods⟩
  · have ht : f.t = false := htrunc.resolve_left h5
    by_cases h8 : f.op = 0x08#6
    · exact ⟨_, decodeFields_encint f hrsv h8 ht⟩
    · by_cases h9 : f.op = 0x09#6
      · exact ⟨_, decodeFields_decint f hrsv h9 ht⟩
      · obtain ⟨i, hplain⟩ := exists_plainOf f.op hassigned h5 h8 h9
        exact ⟨i, decodeFields_plain f i hrsv h8 h9 h5 hplain ((hmods.resolve_left h8).resolve_left h9) ht⟩

/-- Fields are legal exactly when they are those of one of the 31 commands. -/
theorem legal_iff_exists_fieldsOf (f : Fields) : f.legal = true ↔ ∃ i, fieldsOf i = f := by
  constructor
  · intro h
    obtain ⟨i, hi⟩ := exists_decodeFields_of_legal f h
    exact ⟨i, decodeFields_sound f i hi⟩
  · rintro ⟨i, rfl⟩
    exact fieldsOf_legal i

/-! ### Command words -/

theorem encode_eq_iff (i : Instr) (w : CmdWord) : encode i = w ↔ fieldsOf i = splitFields w := by
  constructor
  · rintro rfl
    exact (splitFields_joinFields _).symm
  · intro h
    rw [encode, h, joinFields_splitFields]

theorem decode_eq_ok_iff (w : CmdWord) (i : Instr) : decode w = .ok i ↔ encode i = w := by
  rw [encode_eq_iff]
  constructor
  · exact decodeFields_sound _ i
  · intro h
    rw [decode, ← h, decodeFields_fieldsOf]

/-- A word that is no command's word is decoded to an error. -/
theorem exists_decode_error (w : CmdWord) (h : ∀ i, encode i ≠ w) : ∃ e, decode w = .error e := by
  cases hd : decode w with
  | error e => exact ⟨e, rfl⟩
  | ok i => exact absurd ((decode_eq_ok_iff w i).1 hd) (h i)

end Sys2Proof

namespace Sys2Proof.Machine

/-- The four conditions of 30_encoding.md rule R58 on a word are, one by one, the failures of the four checks on its
fields. -/
theorem isIllegalWord_iff_not_legal (w : CmdWord) : IsIllegalWord w ↔ ¬ (splitFields w).legal = true := by
  rw [legal_iff, not_and_or, not_and_or, not_and_or, not_and_or]
  refine or_congr Iff.rfl (or_congr ?unassigned (or_congr ?modifiers ?truncate)) <;>
    simp only [splitFields, BitVec.le_def, ← BitVec.toNat_inj, BitVec.toNat_ofNat]
  case unassigned => omega
  case modifiers => grind
  case truncate => grind

/-- A word is illegal exactly when it is none of the 31 command words (30_encoding.md rule R58). -/
theorem isIllegalWord_iff_forall_encode_ne (w : CmdWord) : IsIllegalWord w ↔ ∀ i, encode i ≠ w := by
  simp only [isIllegalWord_iff_not_legal, legal_iff_exists_fieldsOf, not_exists, ne_eq, encode_eq_iff]

/-! ### What an error leaves behind -/

/-- A command whose response is an error changes the latch alone, to that error's code with `NONE`. -/
theorem exec_of_responseOf_raise (i : Instr) (s : State) (e : Err) (h : responseOf i s.params s.port = .raise e) :
    exec i s = .next (answered s e.status .none) := by
  rw [exec_eq_finish_responseOf, h, finish_raise]

/-- Signed and synchsafe together raise before any operand is checked (30_encoding.md rule R59). -/
theorem encint_signed_synchsafe (E : Bool) (P : Params) (r : Request) :
    encint E true true P r = .raise .configurationError :=
  if_pos ⟨rfl, rfl⟩

theorem decint_signed_synchsafe (E : Bool) (P : Params) (r : Request) :
    decint E true true P r = .raise .configurationError :=
  if_pos ⟨rfl, rfl⟩

/-! ### The statements -/

/-- Settles O4: an illegal word is no command's word, so the decoder rejects it and the step writes
`ILLEGAL_COMMAND`. -/
theorem illegalWordsAreReported : Obligations.IllegalWordsAreReported := by
  intro s r rest hhost
  have hwords := isIllegalWord_iff_forall_encode_ne r.cmd
  refine ⟨fun hillegal => ?_, hwords⟩
  obtain ⟨e, hdecode⟩ := exists_decode_error r.cmd (hwords.1 hillegal)
  calc step s = perform (s.acceptRequest r rest) := step_present s r rest hhost
    _ = .next (answered (s.acceptRequest r rest) .illegalCommand .none) := perform_illegal _ e hdecode

/-- Settles O1: each word of 30_encoding.md rule R57 is the join of its command's fields, on fixed words. -/
theorem commandWordsOfTable : Obligations.CommandWordsOfTable := by
  unfold Obligations.CommandWordsOfTable
  decide

/-- Settles O5: each of the four words is the word of its `.YS` command, whose response is the configuration error. -/
theorem signedSynchsafeIsConfigurationError : Obligations.SignedSynchsafeIsConfigurationError := by
  intro s
  exact ⟨⟨(decode_eq_ok_iff _ _).2 rfl, exec_of_responseOf_raise .encintBeYs s _ (encint_signed_synchsafe false _ _)⟩,
    ⟨(decode_eq_ok_iff _ _).2 rfl, exec_of_responseOf_raise .encintLeYs s _ (encint_signed_synchsafe true _ _)⟩,
    ⟨(decode_eq_ok_iff _ _).2 rfl, exec_of_responseOf_raise .decintBeYs s _ (decint_signed_synchsafe false _ _)⟩,
    ⟨(decode_eq_ok_iff _ _).2 rfl, exec_of_responseOf_raise .decintLeYs s _ (decint_signed_synchsafe true _ _)⟩⟩

end Sys2Proof.Machine
end

section
/-! SUPPORT. The five commands of 41_binary_string.md rule R127 on accepted operands, and the round trips they make:
a number's text has the number's value, and a byte sequence's chunks are its bytes. -/

namespace Sys2Proof.Machine

/-! ### Accepted operands -/

/-- A command whose response is a payload other than an infinity or a NaN changes the latch alone, to that payload
with `OK`. -/
theorem exec_of_responseOf_ret (i : Instr) (s : State) (p : Payload) (hspecial : p.isSpecial = false)
    (h : responseOf i s.params s.port = .ret p) : exec i s = .next (answered s .ok p) := by
  rw [exec_eq_finish_responseOf, h, finish_ret s p hspecial]

theorem exec_bin2dec_accepted (s : State) (hlen : s.port.tx.length ≤ s.params.textMax)
    (hbits : isBits s.port.tx = true) :
    exec .bin2dec s = .next (answered s .ok (.int (bitval s.port.tx))) :=
  exec_of_responseOf_ret .bin2dec s _ rfl (by rw [responseOf, bin2decCmd, withBits_eq _ _ _ hlen hbits])

theorem exec_bin2txt_accepted (s : State) (hlen : s.port.tx.length ≤ s.params.textMax)
    (hbits : isBits s.port.tx = true) :
    exec .bin2txt s = .next (answered s .ok (.text (chunkText s.port.tx))) :=
  exec_of_responseOf_ret .bin2txt s _ rfl (by rw [responseOf, bin2txtCmd, withBits_eq _ _ _ hlen hbits])

theorem exec_dec2bin_accepted (s : State) (h0 : 0 ≤ s.port.a) (h1 : s.port.a < 2 ^ s.params.textMax) :
    exec .dec2bin s = .next (answered s .ok (.text (decimalText s.port.a.toNat))) :=
  exec_of_responseOf_ret .dec2bin s _ rfl (by rw [responseOf, dec2binCmd, withNumber_eq _ _ _ h0 h1])

theorem exec_dec2binp_accepted (s : State) (h0 : 0 ≤ s.port.a) (h1 : s.port.a < 2 ^ s.params.textMax)
    (hw0 : 0 ≤ s.port.b) (hw1 : s.port.b ≤ s.params.textMax) (hfit : s.port.a.toNat < 2 ^ s.port.b.toNat) :
    exec .dec2binp s = .next (answered s .ok (.text (bits s.port.b.toNat s.port.a.toNat))) := by
  refine exec_of_responseOf_ret .dec2binp s _ rfl ?_
  rw [responseOf, dec2binpCmd, withNumber_eq _ _ _ h0 h1, withWidth_eq _ _ _ hw0 hw1, if_neg (Nat.not_le.2 hfit)]

theorem exec_bytes2bin_accepted (s : State) (hlen : s.port.x.length ≤ s.params.bytesMax)
    (htext : 8 * s.port.x.length ≤ s.params.textMax) :
    exec .bytes2bin s = .next (answered s .ok (.text (bytesText s.port.x))) := by
  refine exec_of_responseOf_ret .bytes2bin s _ rfl ?_
  rw [responseOf, bytes2binCmd, withX_eq _ _ _ hlen, if_neg (Nat.not_lt.2 htext)]

/-! ### Round trips (41_binary_string.md rule R127) -/

/-- BIN2DEC reads back a number from every bit-string that has the number's value. -/
theorem exec_bin2dec_onTX (s : State) (t : Text) (a : Int) (h0 : 0 ≤ a) (hlen : t.length ≤ s.params.textMax)
    (hbits : isBits t = true) (hval : bitval t = a.toNat) :
    exec .bin2dec (s.onTX t) = .next (answered (s.onTX t) .ok (.int a)) := by
  have hread := exec_bin2dec_accepted (s.onTX t) hlen hbits
  rwa [onTX_tx, hval, Int.toNat_of_nonneg h0] at hread

/-- BIN2TXT's chunks of BYTES2BIN's text are the bytes: as many of them, with the same base-256 value. -/
theorem chunkText_bytesText (x : List Byte) : chunkText (bytesText x) = x := by
  obtain ⟨-, hlength, hvalue⟩ := bytesText_spec x
  obtain ⟨hcount, hsum⟩ := chunkText_spec (bytesText x)
  exact byteSum_inj _ _ (by omega) (hsum.trans hvalue)

theorem one_le_textMax_of_wf (P : Params) (h : P.wf = true) : 1 ≤ P.textMax := by
  simp only [Params.wf, Params.textMaxOk, Bool.and_eq_true, decide_eq_true_eq] at h
  omega

theorem toNat_lt_two_pow (a : Int) (n : Nat) (h0 : 0 ≤ a) (h : a < 2 ^ n) : a.toNat < 2 ^ n :=
  (Int.toNat_lt h0).2 (by exact_mod_cast h)

/-! ### The statement -/

/-- Settles O31: the texts of DEC2BIN and DEC2BINP are bit-strings within capacity with the number's value, and the
chunks of BYTES2BIN's text are the bytes it was written from. -/
theorem binaryStringRoundTrips : Obligations.BinaryStringRoundTrips := by
  intro s hwf
  refine ⟨fun a b h0 h1 => ?dec2bin, fun x hx htext => ?bytes2bin, fun a w h0 h1 hw0 hw1 hfit => ?dec2binp⟩
  case dec2bin =>
    obtain ⟨hbits, hval, -, -⟩ := decimalText_spec a.toNat
    have hlen := decimalText_length a.toNat _ (one_le_textMax_of_wf _ hwf) (toNat_lt_two_pow a _ h0 h1)
    exact ⟨_, exec_dec2bin_accepted (s.onAB a b) h0 h1, exec_bin2dec_onTX s _ a h0 hlen.2 hbits hval⟩
  case bytes2bin =>
    obtain ⟨hbits, hlen, -⟩ := bytesText_spec x
    have hread := exec_bin2txt_accepted (s.onTX (bytesText x)) (hlen.trans_le htext) hbits
    rw [onTX_tx, chunkText_bytesText] at hread
    exact ⟨_, exec_bytes2bin_accepted (s.onX x) hx htext, hread⟩
  case dec2binp =>
    have hfit := toNat_lt_two_pow a _ h0 hfit
    have hlen : (bits w.toNat a.toNat).length ≤ s.params.textMax := by
      rw [bits_length]
      omega
    exact ⟨_, exec_dec2binp_accepted (s.onAB a w) h0 h1 hw0 hw1 hfit,
      exec_bin2dec_onTX s _ a h0 hlen (bits_isBits _ _) ((bitval_bits _ _).trans (Nat.mod_eq_of_lt hfit))⟩

end Sys2Proof.Machine
end

section
/-! SUPPORT. ENCINT and DECINT in one order and mode undo each other (42_endian_int.md rule R178): the bytes written hold
the number's digits or its two's-complement pattern without loss, and the length checks of DECINT let them through. -/

namespace Sys2Proof.Machine

/-! ### The width written loses nothing -/

/-- The digits of an unsigned number, at no less than its least width, are read back as the number. -/
theorem decBe_encBe_unsigned (Y : Bool) (x : Int) (w : Nat) (hx : 0 ≤ x) (hw : leastWidth Y false x ≤ w) :
    (decBe (radix Y) Y (encBe x w (radix Y) false) : Int) = x := by
  have hbase := radix_ge_two Y
  obtain ⟨-, hleast, -⟩ := ku_spec x.toNat (radix Y) hbase
  have hfit : x.toNat < radix Y ^ w := hleast.trans_le (Nat.pow_le_pow_right (by omega) hw)
  have hvalue : decBe (radix Y) Y (encBe x w (radix Y) false) = x.toNat :=
    (decBe_encBe x w Y false).trans (Nat.mod_eq_of_lt hfit)
  rw [hvalue, Int.toNat_of_nonneg hx]

/-- The two's-complement bytes of a number, at no less than its least width, are read back as the number. -/
theorem tcDecode_encBe_signed (x : Int) (w : Nat) (hw : leastWidth false true x ≤ w) :
    tcDecode (decBe (radix false) false (encBe x w (radix false) true)) w = x := by
  obtain ⟨hpos, hrange, -⟩ := ks_spec x
  have hpattern : decBe (radix false) false (encBe x w (radix false) true) = encValue x w true :=
    (decBe_encBe x w false true).trans (Nat.mod_eq_of_lt (encValue_signed_lt x w))
  rw [hpattern]
  exact tcDecode_pattern x w (hpos.trans hw) (InSignedBytes_mono _ _ x hw hrange)

/-- Both width limits are within the capacity of `X` in a legal build (42_endian_int.md rule R155). -/
theorem widthLimit_le_bytesMax (P : Params) (S : Bool) (hwf : P.wf = true) : widthLimit P S ≤ P.bytesMax := by
  simp only [Params.wf, Params.bytesMaxOk, Params.intMaxBytesOk, Bool.and_eq_true, decide_eq_true_eq] at hwf
  obtain ⟨⟨⟨-, hcapacity⟩, hint⟩, -⟩ := hwf
  cases S
  · exact hint
  · exact (show Config.signedMaxBytes ≤ 16 by decide).trans hcapacity

/-- DECINT of a request that carries the bytes ENCINT returned for another returns that one's number
(42_endian_int.md rule R178). -/
theorem decint_of_encint (E Y S : Bool) (P : Params) (r r' : Request) (hwf : P.wf = true)
    (henc : encint E Y S P r = .ret (.bytes r'.x)) : decint E Y S P r' = .ret (.int r.a) := by
  obtain ⟨hmode, -, hsign, hlimit, hbytes⟩ := encint_bytes E Y S P r r'.x henc
  have hwidth : leastWidth Y S r.a ≤ max (leastWidth Y S r.a) r.b.toNat := le_max_left _ _
  generalize max (leastWidth Y S r.a) r.b.toNat = w at hlimit hbytes hwidth
  have hlength : r'.x.length = w := by rw [hbytes, inOrder_length, encBe_length]
  have hlimit' : r'.x.length ≤ widthLimit P S := hlength.trans_le hlimit
  rw [decint_accepts E Y S P r' hmode (hlimit'.trans (widthLimit_le_bytesMax P S hwf)) hlimit', hlength, hbytes,
    inOrder_inOrder]
  cases S with
  | false =>
    have hx : 0 ≤ r.a := hsign.resolve_left Bool.false_ne_true
    rw [if_neg Bool.false_ne_true, decBe_encBe_unsigned Y r.a w hx hwidth]
  | true =>
    obtain rfl : Y = false := Bool.eq_false_iff.2 fun hY => hmode ⟨hY, rfl⟩
    rw [if_pos rfl, tcDecode_encBe_signed r.a w hwidth]

/-! ### The commands of one order and mode -/

/-- The modifier bits of the command word are the bits that ENCINT's and DECINT's common bodies take
(30_encoding.md rule R56). -/
theorem responseOf_encintOf (E Y S : Bool) : responseOf (encintOf E Y S) = encint E Y S := by
  unfold encintOf
  split <;> rfl

theorem responseOf_decintOf (E Y S : Bool) : responseOf (decintOf E Y S) = decint E Y S := by
  unfold decintOf
  split <;> rfl

/-- A command that answers a payload with `OK` returned that payload: no error has the code `OK`. -/
theorem responseOf_of_exec_ok (i : Instr) (s : State) (p : Payload) (h : exec i s = .next (answered s .ok p)) :
    responseOf i s.params s.port = .ret p := by
  rw [exec_eq_finish_responseOf, finish_eq, Host.Outcome.next.injEq, answered_inj] at h
  obtain ⟨hstatus, hpayload⟩ := h
  cases hres : responseOf i s.params s.port with
  | ret q =>
    rw [hres] at hpayload
    exact congrArg Result.ret hpayload
  | raise e =>
    rw [hres] at hstatus
    cases e <;> cases hstatus

/-- DECINT reads back the number whose bytes ENCINT answered, in every order and mode. -/
theorem exec_decintOf_of_encintOf (E Y S : Bool) (s : State) (a b : Int) (d : List Byte) (hwf : s.params.wf = true)
    (henc : exec (encintOf E Y S) (s.onAB a b) = .next (answered (s.onAB a b) .ok (.bytes d))) :
    exec (decintOf E Y S) (s.onX d) = .next (answered (s.onX d) .ok (.int a)) := by
  have hbytes := responseOf_of_exec_ok _ _ _ henc
  rw [responseOf_encintOf] at hbytes
  refine exec_of_responseOf_ret _ _ _ rfl ?_
  rw [responseOf_decintOf]
  exact decint_of_encint E Y S s.params (s.onAB a b).port (s.onX d).port hwf hbytes

/-! ### The statement -/

/-- Settles O39: each pair is ENCINT and DECINT with the same modifier bits, and the bytes of a width that ENCINT accepts
hold the number without loss. -/
theorem endianRoundTrip : Obligations.EndianRoundTrip := by
  intro s a b d hwf p hpair
  obtain ⟨E, Y, S, rfl⟩ : ∃ E Y S : Bool, p = (encintOf E Y S, decintOf E Y S) := by
    simp only [List.mem_cons, List.not_mem_nil, or_false] at hpair
    obtain rfl | rfl | rfl | rfl | rfl | rfl := hpair
    · exact ⟨false, false, false, rfl⟩
    · exact ⟨true, false, false, rfl⟩
    · exact ⟨false, true, false, rfl⟩
    · exact ⟨true, true, false, rfl⟩
    · exact ⟨false, false, true, rfl⟩
    · exact ⟨true, false, true, rfl⟩
  exact exec_decintOf_of_encintOf E Y S s a b d hwf

end Sys2Proof.Machine
end

section
/-! SUPPORT. F6DEC of F6ENC's bytes (43_float.md rule R196): the words F6ENC packs are read back without loss, so the
only error of the round trip is the floor taken of the fraction. -/

namespace Sys2Proof.Machine

/-! ### The value of `V` -/

theorem binary64Decode_zero (v : Word64) (hzero : magnitude64 v = 0) :
    binary64Decode v.toNat = .zero (v.getLsbD 63) := by
  obtain ⟨-, -, hdecode, -⟩ := binary64Decode_spec v
  obtain ⟨hexp, hfrac⟩ := (magnitude64_eq_zero v).1 hzero
  exact hdecode hexp hfrac

theorem binary64Decode_fin (v : Word64) (hfin : expField64 v ≠ 2047) (hne : magnitude64 v ≠ 0) :
    binary64Decode v.toNat = .fin (signValue (v.getLsbD 63) * magnitude64 v) := by
  obtain ⟨-, -, -, hdecode⟩ := binary64Decode_spec v
  refine hdecode hfin ?_
  rwa [← not_and_or, ← magnitude64_eq_zero]

/-! ### What F6ENC packs and what F6DEC reads -/

/-- A zero is packed with exponent 0 and fraction 0 (43_float.md rule R194). -/
theorem f6encCmd_zero (P : Params) (r : Request) (hzero : magnitude64 r.v = 0) :
    f6encCmd P r = .ret (.bytes (f6Pack P.f6ExpCoding (r.v.getLsbD 63) 0 0)) := by
  simp only [f6encCmd, binary64Decode_zero r.v hzero]

/-- A finite non-zero value is packed at the decimal exponent of its magnitude: no clamp acts on it
(43_float.md rule R194). -/
theorem f6encCmd_fin (P : Params) (r : Request) (hfin : expField64 r.v ≠ 2047) (hne : magnitude64 r.v ≠ 0) :
    ∃ e : Int, -16383 ≤ e ∧ e ≤ 16383 ∧ (10 : ℚ) ^ (e - 1) ≤ magnitude64 r.v ∧ magnitude64 r.v < (10 : ℚ) ^ e ∧
      f6encCmd P r =
        .ret (.bytes (f6Pack P.f6ExpCoding (r.v.getLsbD 63) e (f6Frac (magnitude64 r.v) e))) := by
  have hnonneg := magnitude64_nonneg r.v
  obtain ⟨hmin, hmax⟩ := floorLog10_bounds r.v hfin hne
  obtain ⟨hlow, hhigh⟩ := floorLog10_spec _ (hnonneg.lt_of_ne' hne)
  refine ⟨floorLog10 (magnitude64 r.v) + 1, by omega, by omega, by rwa [add_sub_cancel_right], hhigh, ?_⟩
  simp only [f6encCmd, binary64Decode_fin r.v hfin hne, abs_signValue_mul, abs_of_nonneg hnonneg,
    f6Clamp_eq _ (floorLog10 (magnitude64 r.v) + 1) (by omega) (by omega)]

/-- The magnitude a 6-byte float stands for (43_float.md rule R195). -/
def f6Magnitude (e : Int) (frac : Nat) : ℚ := 10 ^ e * frac / f6K

/-- Bit 31 of the fraction word is 0 in every packed float, so both readings of it agree (43_float.md rule R195). -/
theorem f6FracOf_of_lt (m : F6FracBit31) (frac : Nat) (h : frac < 2 ^ 31) : f6FracOf m frac = frac := by
  cases m
  · exact Nat.mod_eq_of_lt h
  · rfl

/-- F6DEC reads back the sign, exponent and fraction that were packed. -/
theorem f6decCmd_f6Pack (P : Params) (r : Request) (sgn : Bool) (e : Int) (frac : Nat)
    (hx : r.x = f6Pack P.f6ExpCoding sgn e frac) (hcap : 6 ≤ P.bytesMax)
    (hlow : -16383 ≤ e) (hhigh : e ≤ 16383) (hfrac : frac < 2 ^ 31) :
    f6decCmd P r = .ret (.val (if frac = 0 then .zero sgn else .fin (signValue sgn * f6Magnitude e frac))) := by
  have hlen : r.x.length = 6 := by rw [hx, f6Pack_length]
  obtain ⟨-, hfield⟩ := f6ExpField_spec P.f6ExpCoding e hlow hhigh
  have hword := f6Word16_f6Pack P.f6ExpCoding sgn e frac hlow hhigh
  have hsgn : (f6Word16 r.x).testBit 15 = sgn := by
    rw [hx, hword, Nat.testBit_eq_decide_div_mod_eq]
    cases sgn <;> simp <;> omega
  have hexp : f6ExpVal P.f6ExpCoding (f6Word16 r.x % 2 ^ 15) = e := by
    have hmod : f6Word16 r.x % 2 ^ 15 = f6ExpField P.f6ExpCoding e := by
      rw [hx, hword]
      cases sgn <;> simp <;> omega
    rw [hmod, f6ExpVal_f6ExpField _ e hlow hhigh]
  have hfracOf : f6FracOf P.f6FracBit31 (f6Word32 r.x) = frac := by
    rw [hx, f6Word32_f6Pack _ _ _ _ (by omega), f6FracOf_of_lt _ _ hfrac]
  rw [f6decCmd, withX_eq _ _ _ (hlen.trans_le hcap), if_neg (not_not.2 hlen)]
  simp only [hsgn, hexp, hfracOf]
  split
  · rfl
  · rw [signFactor_eq, f6Magnitude, mul_assoc, mul_div_assoc]

/-! ### The error of the fraction (43_float.md rule R196) -/

theorem f6K_cast : (f6K : ℚ) = 2 ^ 31 - 1 := by norm_num [f6K]

/-- The fraction is the floor of the scaled magnitude, so reading it back loses less than one unit `10^e / K`. -/
theorem f6Magnitude_f6Frac (q : ℚ) (e : Int) (h0 : 0 ≤ q) (h : q < 10 ^ e) :
    f6Magnitude e (f6Frac q e) ≤ q ∧ q - f6Magnitude e (f6Frac q e) < 10 ^ e / f6K := by
  have hpow : (0 : ℚ) < 10 ^ e := by positivity
  have hK : (0 : ℚ) < f6K := by norm_num [f6K]
  have hfloor : (f6Frac q e : Int) = ⌊q / 10 ^ e * f6K⌋ := by rw [f6K_cast, f6Frac_eq q e h0 h]
  have hcast : (f6Frac q e : ℚ) = (⌊q / 10 ^ e * f6K⌋ : Int) := by exact_mod_cast hfloor
  have hle : (f6Frac q e : ℚ) ≤ q / 10 ^ e * f6K := hcast ▸ Int.floor_le _
  have hlt : q / 10 ^ e * f6K < f6Frac q e + 1 := hcast ▸ Int.lt_floor_add_one _
  have hunit : q = 10 ^ e / f6K * (q / 10 ^ e * f6K) := by field_simp
  have hread : f6Magnitude e (f6Frac q e) = 10 ^ e / f6K * f6Frac q e := by rw [f6Magnitude]; ring
  have hpos : (0 : ℚ) < 10 ^ e / f6K := by positivity
  have hle' := mul_le_mul_of_nonneg_left hle hpos.le
  have hlt' := mul_lt_mul_of_pos_left hlt hpos
  rw [← hunit] at hle' hlt'
  rw [hread]
  exact ⟨hle', by linarith⟩

/-- Of the two powers of ten around a magnitude, the upper is at most ten times the magnitude. -/
theorem ten_zpow_le (q : ℚ) (e : Int) (hlow : (10 : ℚ) ^ (e - 1) ≤ q) : (10 : ℚ) ^ e ≤ 10 * q :=
  calc (10 : ℚ) ^ e = 10 * 10 ^ (e - 1) := by rw [zpow_sub_one₀ (by norm_num)]; ring
    _ ≤ 10 * q := by linarith

/-- A magnitude of at least `10^(e-1)` has a non-zero fraction: the scaled magnitude is at least `K / 10`. -/
theorem f6Frac_pos (q : ℚ) (e : Int) (hlow : (10 : ℚ) ^ (e - 1) ≤ q) (hhigh : q < 10 ^ e) : 0 < f6Frac q e := by
  have hpow : (0 : ℚ) < 10 ^ e := by positivity
  have hq : (0 : ℚ) ≤ q := le_trans (by positivity) hlow
  have htenth : 1 / 10 ≤ q / 10 ^ e := by
    rw [le_div_iff₀ hpow]
    linarith [ten_zpow_le q e hlow]
  have hfloor : 1 ≤ ⌊q / 10 ^ e * (2 ^ 31 - 1)⌋ := Int.le_floor.2 (by push_cast; linarith)
  rw [← f6Frac_eq q e hq hhigh] at hfloor
  omega

theorem f6Magnitude_pos (e : Int) (frac : Nat) (h : 0 < frac) : 0 < f6Magnitude e frac := by
  have hK : (0 : ℚ) < f6K := by norm_num [f6K]
  unfold f6Magnitude
  positivity

/-- A value of non-zero magnitude has the sign of its sign bit. -/
theorem signValue_mul_sign (neg : Bool) (q : ℚ) (h : 0 < q) :
    if neg then signValue neg * q < 0 else 0 < signValue neg * q := by
  cases neg <;> simp [signValue, h]

theorem six_le_bytesMax_of_wf (P : Params) (h : P.wf = true) : 6 ≤ P.bytesMax := by
  simp only [Params.wf, Params.bytesMaxOk, Bool.and_eq_true, decide_eq_true_eq] at h
  omega

/-! ### The commands -/

/-- F6DEC of packed bytes on the port answers the value that was packed. -/
theorem exec_f6dec_onX_f6Pack (s : State) (sgn : Bool) (e : Int) (frac : Nat) (hwf : s.params.wf = true)
    (hlow : -16383 ≤ e) (hhigh : e ≤ 16383) (hfrac : frac < 2 ^ 31) :
    exec .f6dec (s.onX (f6Pack s.params.f6ExpCoding sgn e frac)) =
      .next (answered (s.onX (f6Pack s.params.f6ExpCoding sgn e frac)) .ok
        (.val (if frac = 0 then .zero sgn else .fin (signValue sgn * f6Magnitude e frac)))) := by
  refine exec_of_responseOf_ret .f6dec _ _ ?notSpecial ?response
  case notSpecial => split <;> rfl
  case response => exact f6decCmd_f6Pack _ _ sgn e frac rfl (six_le_bytesMax_of_wf _ hwf) hlow hhigh hfrac

/-- Settles O45: the bytes read back are those of the floored fraction at the decimal exponent of the magnitude. -/
theorem float6RoundTripTolerance : Obligations.Float6RoundTripTolerance := by
  intro s hwf hfin
  by_cases hzero : magnitude64 s.port.v = 0
  · refine ⟨_, exec_of_responseOf_ret .f6enc s _ rfl (f6encCmd_zero _ _ hzero), fun _ => ?_,
      fun hne => absurd hzero hne⟩
    exact exec_f6dec_onX_f6Pack s _ 0 0 hwf (by norm_num) (by norm_num) (by norm_num)
  · obtain ⟨e, hmin, hmax, hlow, hhigh, hpack⟩ := f6encCmd_fin s.params s.port hfin hzero
    refine ⟨_, exec_of_responseOf_ret .f6enc s _ rfl hpack, fun h => absurd h hzero, fun _ => ?_⟩
    generalize magnitude64 s.port.v = q at *
    have hfrac := f6Frac_pos q e hlow hhigh
    have hbound : f6Frac q e < 2 ^ 31 := (f6Frac_le q e).trans_lt (by norm_num [f6K])
    have hmag := f6Magnitude_pos e _ hfrac
    obtain ⟨hle, herror⟩ := f6Magnitude_f6Frac q e (le_trans (by positivity) hlow) hhigh
    have hread := exec_f6dec_onX_f6Pack s (s.port.v.getLsbD 63) e (f6Frac q e) hwf hmin hmax hbound
    rw [if_neg hfrac.ne'] at hread
    refine ⟨_, e, hread, signValue_mul_sign _ _ hmag, ?_⟩
    rw [abs_signValue_mul, abs_of_pos hmag, ← f6K_cast]
    exact ⟨hle, hlow, hhigh, herror, div_le_div_of_nonneg_right (ten_zpow_le q e hlow) (by positivity)⟩

end Sys2Proof.Machine
end

section
/-! SUPPORT. FBINFRAC's text and the magnitude it was cut from (43_float.md rule R215): they differ by the remainder of
the doubling loop, in units of the last fraction digit. -/

namespace Sys2Proof.Machine

/-- The rational value of a finite binary64 pattern has its magnitude (43_float.md rule R202). -/
theorem valueOf_binary64Decode (v : Word64) (hfin : expField64 v ≠ 2047) :
    ∃ q, (binary64Decode v.toNat).valueOf = some q ∧ |q| = magnitude64 v := by
  by_cases hmag : magnitude64 v = 0
  · exact ⟨0, by rw [binary64Decode_zero v hmag]; rfl, by rw [hmag, abs_zero]⟩
  · exact ⟨_, by rw [binary64Decode_fin v hfin hmag]; rfl,
      by rw [abs_signValue_mul, abs_of_nonneg (magnitude64_nonneg v)]⟩

/-- FBINFRAC of a finite value writes out its magnitude (43_float.md rule R214). -/
theorem fbinfracCmd_finite (r : Request) (hfin : expField64 r.v ≠ 2047) :
    fbinfracCmd r = .ret (binfracPayload (r.v.getLsbD 63) (magnitude64 r.v)) := by
  obtain ⟨q, hvalue, hmag⟩ := valueOf_binary64Decode r.v hfin
  simp only [fbinfracCmd, hvalue, hmag]

/-- The doubling loop emits no digit only for a fraction of 0, within a positive bound. -/
theorem fracLoop_eq_nil (fuel : Nat) (hfuel : 0 < fuel) (f : ℚ) (h : (fracLoop fuel f).1 = []) : f = 0 := by
  obtain ⟨n, rfl⟩ := Nat.exists_eq_add_one_of_ne_zero hfuel.ne'
  by_contra hf
  simp only [fracLoop, if_neg hf] at h
  split at h <;> simp at h

/-- The text after the point: the digits emitted, or `"0"` when there are none (43_float.md rule R214). -/
def fracText (digits : Text) : Text := if digits = [] then [chr0] else digits

theorem binfracPayload_eq (neg : Bool) (q : ℚ) :
    binfracPayload neg q =
      .binfrac neg (integerText ⌊q⌋.toNat ++ 0x2E#8 :: fracText (fracLoop Config.fracCap (q - ⌊q⌋)).1)
        (decide ((fracLoop Config.fracCap (q - ⌊q⌋)).2 ≠ 0)) := by
  rw [binfracPayload, show q.floor = ⌊q⌋ from rfl, List.append_assoc]
  rfl

/-- A fraction is the value of the text written for it plus the remainder left, in units of the text's last digit. -/
theorem fracText_fracLoop (fuel : Nat) (hfuel : 0 < fuel) (f : ℚ) (h0 : 0 ≤ f) (h1 : f < 1) :
    isBits (fracText (fracLoop fuel f).1) = true ∧
      f * 2 ^ (fracText (fracLoop fuel f).1).length =
        bitval (fracText (fracLoop fuel f).1) + (fracLoop fuel f).2 := by
  obtain ⟨hbits, -, -, -, hvalue, -, -⟩ := fracLoop_spec fuel f h0 h1
  by_cases hnil : (fracLoop fuel f).1 = []
  · have hzero : f = 0 := fracLoop_eq_nil fuel hfuel f hnil
    rw [hnil, hzero] at hvalue
    rw [fracText, if_pos hnil]
    refine ⟨by decide, ?_⟩
    rw [hzero, zero_mul]
    simpa [bitval, bitDigit, chr0, chr1] using hvalue
  · rw [fracText, if_neg hnil]
    exact ⟨hbits, hvalue⟩

theorem integerText_ne_nil (u : Nat) : integerText u ≠ [] := by
  obtain ⟨-, -, hzero, hnonzero⟩ := integerText_spec u
  by_cases h : u = 0
  · simp [hzero h]
  · obtain ⟨t, ht⟩ := bits_bitWidth_head u h
    simp [hnonzero h, ht]

/-- The value of a binary-point text whose digits are the integer part of `q` and its fraction up to a remainder. -/
theorem pointValue_add_remainder (q rest : ℚ) (ip fp : Text) (hq : 0 ≤ q) (hip : bitval ip = ⌊q⌋.toNat)
    (hfp : (q - ⌊q⌋) * 2 ^ fp.length = bitval fp + rest) : pointValue ip fp + rest / 2 ^ fp.length = q := by
  have hcast : ((⌊q⌋.toNat : Nat) : ℚ) = ⌊q⌋ := by exact_mod_cast Int.toNat_of_nonneg (Int.floor_nonneg.2 hq)
  rw [pointValue, ← bitval_eq_bitSum, ← bitval_eq_bitSum, hip, hcast, add_assoc, ← add_div, ← hfp,
    mul_div_cancel_right₀ _ (by positivity), add_sub_cancel]

/-- Settles O47: the magnitude exceeds the text's value by the loop's remainder, which is below 1 in units of the last
digit, and the flag says whether it is 0. -/
theorem fbinfracTruncates : Obligations.FbinfracTruncates := by
  intro s hfin
  have hnonneg := magnitude64_nonneg s.port.v
  have hresponse := (fbinfracCmd_finite s.port hfin).trans (congrArg _ (binfracPayload_eq _ _))
  generalize magnitude64 s.port.v = q at *
  obtain ⟨-, -, hrest0, hrest1, -⟩ :=
    fracLoop_spec Config.fracCap (q - ⌊q⌋) (Int.fract_nonneg q) (Int.fract_lt_one q)
  obtain ⟨hbits, hvalue⟩ :=
    fracText_fracLoop Config.fracCap (by decide) (q - ⌊q⌋) (Int.fract_nonneg q) (Int.fract_lt_one q)
  generalize (fracLoop Config.fracCap (q - ⌊q⌋)).2 = rest at *
  generalize fracText (fracLoop Config.fracCap (q - ⌊q⌋)).1 = fp at *
  obtain ⟨hipBits, hipValue, -, -⟩ := integerText_spec ⌊q⌋.toNat
  have hsum := pointValue_add_remainder q rest (integerText ⌊q⌋.toNat) fp hnonneg hipValue hvalue
  have hunit : (0 : ℚ) < 2 ^ fp.length := by positivity
  have hexact : rest / 2 ^ fp.length = 0 ↔ rest = 0 := div_eq_zero_iff.trans (or_iff_left hunit.ne')
  have hpart0 : 0 ≤ rest / 2 ^ fp.length := div_nonneg hrest0 hunit.le
  have hpart1 : rest / 2 ^ fp.length < 1 / 2 ^ fp.length := div_lt_div_of_pos_right hrest1 hunit
  refine ⟨_, integerText ⌊q⌋.toNat, fp, _, _,
    exec_of_responseOf_ret .fbinfrac s _ rfl hresponse,
    ⟨integerText_ne_nil _, (isBits_iff _).1 hipBits, (isBits_iff _).1 hbits, .inr rfl⟩, ?_, ?_, ?_⟩
  · linarith
  · linarith
  · rw [decide_eq_false_iff_not, not_not, ← hexact]
    constructor <;> intro h <;> linarith

end Sys2Proof.Machine
end

section
/-! SUPPORT. GUID2STR and STR2GUID undo each other (44_guid.md rule R243): both write every place of their result once,
so a text is fixed by its hyphens and its pairs, and pair `j` holds byte `P[j]` in both directions. -/

namespace Sys2Proof.Machine

/-! ### Lists written place by place -/

/-- The list after writing each value at its place, in order. -/
def writeAll (l : List Byte) (ws : List (Nat × Byte)) : List Byte := ws.foldl (fun l w => l.set w.1 w.2) l

theorem getD_writeAll_of_not_mem (l : List Byte) (ws : List (Nat × Byte)) (i : Nat) (h : i ∉ ws.map Prod.fst) :
    (writeAll l ws).getD i 0#8 = l.getD i 0#8 := by
  induction ws generalizing l with
  | nil => rfl
  | cons w ws ih =>
    rw [List.map_cons, List.mem_cons, not_or] at h
    obtain ⟨hne, hrest⟩ := h
    calc (writeAll l (w :: ws)).getD i 0#8 = (l.set w.1 w.2).getD i 0#8 := ih _ hrest
      _ = l.getD i 0#8 := by simp [List.getD_eq_getElem?_getD, List.getElem?_set_ne (Ne.symm hne)]

/-- Writes to places that are all different are all found in the end. -/
theorem getD_writeAll_of_mem (l : List Byte) (ws : List (Nat × Byte)) (i : Nat) (v : Byte)
    (hnodup : (ws.map Prod.fst).Nodup) (hmem : (i, v) ∈ ws) (hi : i < l.length) :
    (writeAll l ws).getD i 0#8 = v := by
  induction ws generalizing l with
  | nil => cases hmem
  | cons w ws ih =>
    obtain ⟨hfresh, hnodup⟩ := List.nodup_cons.1 hnodup
    cases hmem with
    | head =>
      calc (writeAll l ((i, v) :: ws)).getD i 0#8 = (l.set i v).getD i 0#8 := getD_writeAll_of_not_mem _ ws i hfresh
        _ = v := by simp [List.getD_eq_getElem?_getD, hi]
    | tail _ hmem => exact ih (l.set w.1 w.2) hnodup hmem (by rwa [List.length_set])

theorem eq_of_getD_eq (l m : List Byte) (hlen : l.length = m.length)
    (h : ∀ i < l.length, l.getD i 0#8 = m.getD i 0#8) : l = m := by
  refine List.ext_getElem hlen fun i hl hm => ?_
  rw [← List.getD_eq_getElem l 0#8 hl, ← List.getD_eq_getElem m 0#8 hm, h i hl]

/-! ### The places of a GUID text (44_guid.md rule R240) -/

theorem guidByte_lt : ∀ j < 16, guidByte j < 16 := by decide

/-- Every place of the text is a hyphen's or one of the two of a pair. -/
theorem guid_place_cases : ∀ i < 36, i ∈ guidHyphens ∨ ∃ j < 16, i = guidOff j ∨ i = guidOff j + 1 := by decide

theorem guidOff_place : ∀ j < 16, (guidOff j < 36 ∧ guidOff j ∉ guidHyphens) ∧
    (guidOff j + 1 < 36 ∧ guidOff j + 1 ∉ guidHyphens) := by decide

/-- A property of places that holds at the hyphens and at both places of each pair holds at all 36. -/
theorem forall_guid_place {Q : Nat → Prop} (hhyphen : ∀ i ∈ guidHyphens, Q i)
    (hpair : ∀ j < 16, Q (guidOff j) ∧ Q (guidOff j + 1)) : ∀ i < 36, Q i := by
  intro i hi
  obtain hmem | ⟨j, hj, rfl | rfl⟩ := guid_place_cases i hi
  · exact hhyphen i hmem
  · exact (hpair j hj).1
  · exact (hpair j hj).2

theorem guidHyphensOk_iff (t : Text) : guidHyphensOk t = true ↔ ∀ i ∈ guidHyphens, t.getD i 0#8 = chrDash := by
  simp only [guidHyphensOk, List.all_eq_true, beq_iff_eq]

/-- The digit check of rule R242, pair by pair. -/
theorem guidDigitsOk_iff (t : Text) : guidDigitsOk t = true ↔
    ∀ j < 16, isHex (t.getD (guidOff j) 0#8) = true ∧ isHex (t.getD (guidOff j + 1) 0#8) = true := by
  simp only [guidDigitsOk, List.all_eq_true, List.mem_range, Bool.or_eq_true, List.contains_iff_mem]
  constructor
  · intro h j hj
    obtain ⟨⟨hlt, hnot⟩, hlt', hnot'⟩ := guidOff_place j hj
    exact ⟨(h _ hlt).resolve_left hnot, (h _ hlt').resolve_left hnot'⟩
  · exact fun h => forall_guid_place (fun i hi => .inl hi) fun j hj => (h j hj).imp .inr .inr

/-! ### What GUID2STR and STR2GUID write, place by place -/

/-- The two writes of each pair, in GUID2STR's order (44_guid.md rule R241). -/
def guidTextWrites (x : List Byte) : List (Nat × Byte) :=
  (List.range 16).flatMap fun j =>
    [(guidOff j, hexU ((x.getD (guidByte j) 0#8).toNat / 16)),
      (guidOff j + 1, hexU ((x.getD (guidByte j) 0#8).toNat % 16))]

theorem guidText_eq_writeAll (x : List Byte) : guidText x = writeAll guidFrame (guidTextWrites x) := by
  rw [writeAll, guidTextWrites, List.foldl_flatMap]
  rfl

theorem guidTextWrites_places (x : List Byte) :
    (guidTextWrites x).map Prod.fst = (List.range 16).flatMap fun j => [guidOff j, guidOff j + 1] :=
  List.map_flatMap

theorem guidTextWrites_nodup (x : List Byte) : ((guidTextWrites x).map Prod.fst).Nodup := by
  rw [guidTextWrites_places]
  decide

theorem guidText_hyphen (x : List Byte) : ∀ i ∈ guidHyphens, (guidText x).getD i 0#8 = chrDash := by
  intro i hi
  have hunwritten : i ∉ (guidTextWrites x).map Prod.fst := by
    rw [guidTextWrites_places]
    revert i
    decide
  have hframe : ∀ i ∈ guidHyphens, guidFrame.getD i 0#8 = chrDash := by decide
  rw [guidText_eq_writeAll, getD_writeAll_of_not_mem _ _ i hunwritten, hframe i hi]

/-- Pair `j` of the text holds the two digits of byte `P[j]`, high nibble first (44_guid.md rule R241). -/
theorem guidText_pair (x : List Byte) (j : Nat) (hj : j < 16) :
    (guidText x).getD (guidOff j) 0#8 = hexU ((x.getD (guidByte j) 0#8).toNat / 16) ∧
      (guidText x).getD (guidOff j + 1) 0#8 = hexU ((x.getD (guidByte j) 0#8).toNat % 16) := by
  obtain ⟨⟨hlt, -⟩, hlt', -⟩ := guidOff_place j hj
  rw [guidText_eq_writeAll]
  constructor
  · exact getD_writeAll_of_mem _ _ _ _ (guidTextWrites_nodup x)
      (List.mem_flatMap.2 ⟨j, List.mem_range.2 hj, .head _⟩) hlt
  · exact getD_writeAll_of_mem _ _ _ _ (guidTextWrites_nodup x)
      (List.mem_flatMap.2 ⟨j, List.mem_range.2 hj, .tail _ (.head _)⟩) hlt'

/-- The one write of each pair, in STR2GUID's order (44_guid.md rule R242). -/
def guidBytesWrites (t : Text) : List (Nat × Byte) :=
  (List.range 16).map fun j => (guidByte j,
    BitVec.ofNat 8 (16 * hexVal (t.getD (guidOff j) 0#8) + hexVal (t.getD (guidOff j + 1) 0#8)))

theorem guidBytes_eq_writeAll (t : Text) :
    guidBytes t = writeAll (List.replicate 16 0#8) (guidBytesWrites t) := by
  rw [writeAll, guidBytesWrites, List.foldl_map]
  rfl

theorem guidBytesWrites_nodup (t : Text) : ((guidBytesWrites t).map Prod.fst).Nodup := by
  have hplaces : (guidBytesWrites t).map Prod.fst = (List.range 16).map guidByte := List.map_map
  rw [hplaces]
  decide

/-- Byte `P[j]` is the value of the digits of pair `j` (44_guid.md rule R242). -/
theorem guidBytes_byte (t : Text) (j : Nat) (hj : j < 16) :
    (guidBytes t).getD (guidByte j) 0#8 =
      BitVec.ofNat 8 (16 * hexVal (t.getD (guidOff j) 0#8) + hexVal (t.getD (guidOff j + 1) 0#8)) := by
  rw [guidBytes_eq_writeAll]
  refine getD_writeAll_of_mem _ _ _ _ (guidBytesWrites_nodup t) ?written ?inside
  case written => exact List.mem_map.2 ⟨j, List.mem_range.2 hj, rfl⟩
  case inside =>
    rw [List.length_replicate]
    exact guidByte_lt j hj

/-! ### The two directions of rule R243 -/

theorem nibbles_lt (b : Byte) : b.toNat / 16 < 16 ∧ b.toNat % 16 < 16 := by
  have := b.isLt
  omega

theorem toNat_ofNibbles (high low : Nat) (hhigh : high < 16) (hlow : low < 16) :
    (BitVec.ofNat 8 (16 * high + low)).toNat = 16 * high + low := by
  rw [BitVec.toNat_ofNat]
  omega

/-- STR2GUID accepts what GUID2STR writes. -/
theorem guidText_accepted (x : List Byte) : guidHyphensOk (guidText x) = true ∧ guidDigitsOk (guidText x) = true := by
  refine ⟨(guidHyphensOk_iff _).2 (guidText_hyphen x), (guidDigitsOk_iff _).2 fun j hj => ?_⟩
  obtain ⟨hhigh, hlow⟩ := guidText_pair x j hj
  obtain ⟨hlt, hlt'⟩ := nibbles_lt (x.getD (guidByte j) 0#8)
  rw [hhigh, hlow]
  exact ⟨isHex_hexU _ hlt, isHex_hexU _ hlt'⟩

/-- The byte read from pair `j` of the text is the byte the pair was written from. -/
theorem guidBytes_guidText_byte (x : List Byte) (j : Nat) (hj : j < 16) :
    (guidBytes (guidText x)).getD (guidByte j) 0#8 = x.getD (guidByte j) 0#8 := by
  obtain ⟨hhigh, hlow⟩ := guidText_pair x j hj
  obtain ⟨hlt, hlt'⟩ := nibbles_lt (x.getD (guidByte j) 0#8)
  rw [guidBytes_byte _ j hj, hhigh, hlow, hexVal_hexU _ hlt, hexVal_hexU _ hlt', Nat.div_add_mod,
    BitVec.ofNat_toNat, BitVec.setWidth_eq]

theorem guidBytes_guidText (x : List Byte) (hx : x.length = 16) : guidBytes (guidText x) = x := by
  refine eq_of_getD_eq _ _ ((guidBytes_length _).trans hx.symm) fun i hi => ?_
  rw [guidBytes_length] at hi
  have h := guidBytes_guidText_byte x (guidByte i) (guidByte_lt i hi)
  rwa [guidByte_involution i hi] at h

/-- Pair `j` written again from the bytes read is the pair in uppercase. -/
theorem guidText_guidBytes_pair (t : Text) (ht : guidDigitsOk t = true) (j : Nat) (hj : j < 16) :
    (guidText (guidBytes t)).getD (guidOff j) 0#8 = upcase (t.getD (guidOff j) 0#8) ∧
      (guidText (guidBytes t)).getD (guidOff j + 1) 0#8 = upcase (t.getD (guidOff j + 1) 0#8) := by
  obtain ⟨hhex, hhex'⟩ := (guidDigitsOk_iff t).1 ht j hj
  obtain ⟨hlt, hupper⟩ := hexU_hexVal _ hhex
  obtain ⟨hlt', hupper'⟩ := hexU_hexVal _ hhex'
  obtain ⟨hhigh, hlow⟩ := guidText_pair (guidBytes t) j hj
  rw [guidBytes_byte t j hj, toNat_ofNibbles _ _ hlt hlt'] at hhigh hlow
  rw [hhigh, hlow, ← hupper, ← hupper']
  exact ⟨congrArg hexU (by omega), congrArg hexU (by omega)⟩

theorem guidText_guidBytes (t : Text) (hlen : t.length = 36) (hhyphens : guidHyphensOk t = true)
    (hdigits : guidDigitsOk t = true) : guidText (guidBytes t) = t.map upcase := by
  refine eq_of_getD_eq _ _ (by rw [guidText_length, List.length_map, hlen]) ?_
  rw [guidText_length]
  have hmap (i : Nat) : (t.map upcase).getD i 0#8 = upcase (t.getD i 0#8) := List.getD_map t 0#8 upcase
  refine forall_guid_place (fun i hi => ?hyphen) fun j hj => ?pair
  case hyphen => rw [guidText_hyphen _ i hi, hmap, (guidHyphensOk_iff t).1 hhyphens i hi, upcase_dash]
  case pair =>
    rw [hmap, hmap]
    exact guidText_guidBytes_pair t hdigits j hj

/-! ### The commands -/

theorem exec_guid2str_onX (s : State) (x : List Byte) (hcap : 16 ≤ s.params.bytesMax) (hx : x.length = 16) :
    exec .guid2str (s.onX x) = .next (answered (s.onX x) .ok (.text (guidText x))) := by
  refine exec_of_responseOf_ret .guid2str (s.onX x) _ rfl ?_
  rw [responseOf, guid2strCmd, withX_eq _ _ _ (hx.trans_le hcap), onX_x, if_neg (not_not.2 hx)]

theorem exec_str2guid_onTX (s : State) (t : Text) (hcap : 36 ≤ s.params.textMax) (hlen : t.length = 36)
    (hhyphens : guidHyphensOk t = true) (hdigits : guidDigitsOk t = true) :
    exec .str2guid (s.onTX t) = .next (answered (s.onTX t) .ok (.bytes (guidBytes t))) := by
  refine exec_of_responseOf_ret .str2guid (s.onTX t) _ rfl ?_
  rw [responseOf, str2guidCmd, withTX_eq _ _ _ (hlen.trans_le hcap), onTX_tx, if_neg (not_not.2 hlen),
    if_neg (Bool.not_eq_false _ ▸ hhyphens), if_neg (Bool.not_eq_false _ ▸ hdigits)]

/-- STR2GUID returns only after its three checks, and then the bytes of the text (44_guid.md rule R242). -/
theorem of_str2guidCmd_ret (P : Params) (r : Request) (p : Payload) (h : str2guidCmd P r = .ret p) :
    r.tx.length = 36 ∧ guidHyphensOk r.tx = true ∧ guidDigitsOk r.tx = true ∧ p = .bytes (guidBytes r.tx) := by
  rw [str2guidCmd, withTX] at h
  split at h
  · cases h
  split at h
  · cases h
  next hlen =>
  split at h
  · cases h
  next hhyphens =>
  split at h
  · cases h
  next hdigits =>
  cases h
  exact ⟨not_not.1 hlen, Bool.eq_true_of_not_eq_false hhyphens, Bool.eq_true_of_not_eq_false hdigits, rfl⟩

/-- A legal build holds a GUID in `X` and its text in `TX` (00_scope.md rule R5). -/
theorem guid_capacity_of_wf (P : Params) (h : P.wf = true) : 16 ≤ P.bytesMax ∧ 36 ≤ P.textMax := by
  simp only [Params.wf, Params.textMaxOk, Params.bytesMaxOk, Bool.and_eq_true, decide_eq_true_eq] at h
  omega

/-! ### The statement -/

/-- Settles O55: GUID2STR's text passes STR2GUID's checks and pair `j` stands for byte `P[j]` both ways; a text that
STR2GUID returned for has passed them. -/
theorem guidRoundTrips : Obligations.GuidRoundTrips := by
  intro s hwf
  obtain ⟨hbytesMax, htextMax⟩ := guid_capacity_of_wf _ hwf
  refine ⟨fun x hx => ?toText, fun t x hread => ?toBytes⟩
  case toText =>
    obtain ⟨hhyphens, hdigits⟩ := guidText_accepted x
    have hread := exec_str2guid_onTX s (guidText x) htextMax (guidText_length x) hhyphens hdigits
    rw [guidBytes_guidText x hx] at hread
    exact ⟨guidText x, exec_guid2str_onX s x hbytesMax hx, hread⟩
  case toBytes =>
    obtain ⟨hlen, hhyphens, hdigits, hbytes⟩ := of_str2guidCmd_ret _ _ _ (responseOf_of_exec_ok .str2guid _ _ hread)
    rw [onTX_tx] at hlen hhyphens hdigits hbytes
    obtain rfl : x = guidBytes t := Payload.bytes.inj hbytes
    rw [← guidText_guidBytes t hlen hhyphens hdigits]
    exact exec_guid2str_onX s (guidBytes t) hbytesMax (guidBytes_length t)

end Sys2Proof.Machine
end

section
/-! SUPPORT. The status a command ends with (60_exceptions.md rules R300, R301): the values of the status codes, and
which commands can end with `SPECIAL`. -/

namespace Sys2Proof.Machine

/-! ### The status codes (60_exceptions.md rule R300) -/

theorem status_isError_iff (c : Status) : c.isError = true ↔ 2 ≤ c.bits.toNat := by
  cases c <;> decide

/-- The reserved value 7 is no status code's. -/
theorem status_bits_ne_reserved (c : Status) : c.bits ≠ 7#3 := by
  cases c <;> decide

/-! ### The payloads reported as `SPECIAL` (60_exceptions.md rule R301) -/

theorem isSpecial_iff (p : Payload) : p.isSpecial = true ↔ (∃ neg, p = .val (.inf neg)) ∨ p = .val .nan := by
  constructor
  · intro h
    unfold Payload.isSpecial at h
    split at h
    case h_1 neg => exact .inl ⟨neg, rfl⟩
    case h_2 => exact .inr rfl
    case h_3 => cases h
  · rintro (⟨neg, rfl⟩ | rfl) <;> rfl

theorem kind_of_isSpecial {p : Payload} (h : p.isSpecial = true) : p.kind = some .val := by
  obtain ⟨neg, rfl⟩ | rfl := (isSpecial_iff p).1 h <;> rfl

theorem ret_status_eq_special_iff (p : Payload) : (Result.ret p).status = .special ↔ p.isSpecial = true := by
  cases hp : p.isSpecial <;> simp [Result.status, hp]

/-! ### The commands that can return one -/

theorem resultKind_eq_val_iff (i : Instr) : resultKind i = .val ↔ i = .f6dec ∨ i = .fdec := by
  cases i <;> simp [resultKind]

/-- The 6-byte float has no infinity and no NaN: F6DEC returns a zero or a finite value (43_float.md rule R195). -/
theorem f6decCmd_returns_not_special (P : Params) (r : Request) :
    (f6decCmd P r).Returns fun p => p.isSpecial = false := by
  refine withX_returns fun x => returns_check ?_
  dsimp only
  split <;> exact (returns_ret _ _).2 rfl

/-- Only FDEC returns an infinity or a NaN: of the two commands that return a value, F6DEC returns neither. -/
theorem responseOf_returns_special_only_fdec (i : Instr) (P : Params) (r : Request) :
    (responseOf i P r).Returns fun p => p.isSpecial = true → i = .fdec := by
  intro p hret hspecial
  have hkind : some (resultKind i) = some .val :=
    (responseOf_returnsKind i P r p hret).symm.trans (kind_of_isSpecial hspecial)
  obtain rfl | rfl := (resultKind_eq_val_iff i).1 (Option.some.inj hkind)
  · have hplain : p.isSpecial = false := f6decCmd_returns_not_special P r p hret
    rw [hplain] at hspecial
    cases hspecial
  · rfl

/-! ### The statements -/

/-- Settles O56: the table is read off the encoding, code by code, and a latch holds one of its codes. -/
theorem statusCodesOfTable : Obligations.StatusCodesOfTable :=
  ⟨rfl, rfl, rfl, rfl, rfl, rfl, rfl, status_isError_iff, fun s => status_bits_ne_reserved s.rsp.code⟩

/-- Settles O17: a returned payload's status asks whether it is special, which only FDEC's can be; an error's payload
is `NONE`. -/
theorem specialIsInfinityOrNan : Obligations.SpecialIsInfinityOrNan := by
  intro i s
  refine ⟨_, _, (exec_eq_finish_responseOf i s).trans (finish_eq s _), ?_⟩
  simp only [← isSpecial_iff]
  cases hres : responseOf i s.params s.port with
  | ret p =>
    exact ⟨fun _ => ⟨ret_status_eq_special_iff p, (ret_status p).resolve_right⟩,
      responseOf_returns_special_only_fdec i _ _ p hres⟩
  | raise e =>
    exact ⟨fun hne => absurd rfl hne, fun hspecial => nomatch hspecial⟩

end Sys2Proof.Machine
end

section
/-! SUPPORT. A request has one response for a build's parameters, whatever the block did before it (10_state.md rule
R23), so a reset that abandons a request loses only its response (70_reset_and_hazards.md rule R331). -/

namespace Sys2Proof.Machine

/-! ### The response of a request (10_state.md rule R23) -/

/-- One result serves every state with these parameters and this request on its port: the decoder reads the command
word, and a command the parameters and the request. -/
theorem exists_result_forall_perform (P : Params) (r : Request) :
    ∃ res : Result, ∀ s : State, s.params = P → s.port = r → perform s = s.finish res := by
  cases hd : decode r.cmd with
  | error e =>
    refine ⟨.raise .illegalCommand, ?_⟩
    rintro s rfl rfl
    exact perform_illegal s e hd
  | ok i =>
    refine ⟨responseOf i P r, ?_⟩
    rintro s rfl rfl
    exact (perform_decoded s i hd).trans (exec_eq_finish_responseOf i s)

/-- The latch a request leaves is fixed by the parameters and the request, whatever state takes it. -/
theorem exists_latch_forall_step_present (P : Params) (r : Request) :
    ∃ l : Latch, ∀ (s : State) (rest : List HostEvent), s.params = P → s.host = .present r :: rest →
      ∃ t : State, step s = .next t ∧ t.rsp = l := by
  obtain ⟨res, hperform⟩ := exists_result_forall_perform P r
  refine ⟨⟨true, r.cmd.extractLsb' 0 6, res.status, res.payload⟩, fun s rest hparams hhost => ?_⟩
  exact ⟨(s.acceptRequest r rest).respond res,
    (step_present s r rest hhost).trans (hperform (s.acceptRequest r rest) hparams rfl), rfl⟩

/-! ### The statement -/

/-- Settles O15: the reset keeps the parameters, so the request presented again leaves the latch it would have left in
the state before the reset. -/
theorem resetAbandonsTheRequest : Obligations.ResetAbandonsTheRequest := by
  intro s r rest hhost
  have hreset : step s = .next (s.takeReset (.present r :: rest)) := step_reset s (some r) _ hhost
  obtain ⟨l, hlatch⟩ := exists_latch_forall_step_present s.params r
  obtain ⟨u, hu, hul⟩ := hlatch (s.takeReset (.present r :: rest)) rest rfl rfl
  obtain ⟨v, hv, hvl⟩ := hlatch { s with host := .present r :: rest } rest rfl rfl
  exact ⟨_, u, v, hreset, rfl, hu, hv, hul.trans hvl.symm⟩

end Sys2Proof.Machine
end

section
/-! SUPPORT. What a step does with each host action, and what a command's response may depend on (10_state.md sections
1 to 3, 20_memory.md section 4, 70_reset_and_hazards.md section 1): the parameters and the operands that the command
reads. -/

namespace Sys2Proof.Machine

/-! ### A response depends on the operands its command reads (30_encoding.md rule R60) -/

section
variable {P : Params} {r r' : Request}

theorem arithCmd_congr (f : (W : Nat) → BitVec W → BitVec W → BitVec W) (ha : r.a = r'.a) (hb : r.b = r'.b) :
    arithCmd f P r = arithCmd f P r' := by
  simp only [arithCmd, ha, hb]

theorem withX_congr (f : List Byte → Result) (hx : r.x = r'.x) : withX P r f = withX P r' f := by
  simp only [withX, hx]

theorem withTX_congr (f : Text → Result) (htx : r.tx = r'.tx) : withTX P r f = withTX P r' f := by
  simp only [withTX, htx]

theorem withWidth_congr (f : Nat → Result) (hb : r.b = r'.b) : withWidth P r f = withWidth P r' f := by
  simp only [withWidth, hb]

theorem withNumber_congr (f : Nat → Result) (ha : r.a = r'.a) : withNumber P r f = withNumber P r' f := by
  simp only [withNumber, ha]

theorem encint_congr (E Y S : Bool) (ha : r.a = r'.a) (hb : r.b = r'.b) : encint E Y S P r = encint E Y S P r' := by
  simp only [encint, ha, hb]

theorem decint_congr (E Y S : Bool) (hx : r.x = r'.x) : decint E Y S P r = decint E Y S P r' := by
  simp only [decint, withX_congr _ hx]

theorem f6encCmd_congr (hv : r.v = r'.v) : f6encCmd P r = f6encCmd P r' := by
  simp only [f6encCmd, hv]

theorem fbinfracCmd_congr (hv : r.v = r'.v) : fbinfracCmd r = fbinfracCmd r' := by
  simp only [fbinfracCmd, hv]

theorem normbpCmd_congr (htx : r.tx = r'.tx) (hb : r.b = r'.b) : normbpCmd P r = normbpCmd P r' := by
  simp only [normbpCmd, withWidth_congr _ hb, withTX_congr _ htx]

/-- Requests that agree on the operands a command reads get the same response from it. -/
theorem responseOf_congr (i : Instr) (h : agreeOn (readsOf i) r r') : responseOf i P r = responseOf i P r' := by
  obtain ⟨ha, hb, hv, hx, htx⟩ := h
  cases i with
  | add | sub => exact arithCmd_congr _ (ha (by decide)) (hb (by decide))
  | bin2dec | bin2txt | str2guid =>
    simp only [responseOf, bin2decCmd, bin2txtCmd, str2guidCmd, withBits, withTX_congr _ (htx (by decide))]
  | dec2bin => simp only [responseOf, dec2binCmd, withNumber_congr _ (ha (by decide))]
  | dec2binp | dec2binpT =>
    simp only [responseOf, dec2binpCmd, dec2binpTCmd, withWidth_congr _ (hb (by decide)),
      withNumber_congr _ (ha (by decide))]
  | bytes2bin | f6dec | fdec | guid2str =>
    simp only [responseOf, bytes2binCmd, f6decCmd, fdecCmd, guid2strCmd, withX_congr _ (hx (by decide))]
  | encintBeU | encintLeU | encintBeSs | encintLeSs | encintBeS | encintLeS =>
    exact encint_congr _ _ _ (ha (by decide)) (hb (by decide))
  | decintBeU | decintLeU | decintBeSs | decintLeSs | decintBeS | decintLeS =>
    exact decint_congr _ _ _ (hx (by decide))
  | encintBeYs | encintLeYs => exact (encint_signed_synchsafe _ P r).trans (encint_signed_synchsafe _ P r').symm
  | decintBeYs | decintLeYs => exact (decint_signed_synchsafe _ P r).trans (decint_signed_synchsafe _ P r').symm
  | f6enc => exact f6encCmd_congr (hv (by decide))
  | fbinfrac => exact fbinfracCmd_congr (hv (by decide))
  | normbp => exact normbpCmd_congr (htx (by decide)) (hb (by decide))

end

/-! ### The statements -/

/-- Settles O3: decoding inverts encoding on the words and the commands, each well formed. -/
theorem decodeAndEncodeAgree : Obligations.DecodeAndEncodeAgree :=
  fun w i _ => decode_eq_ok_iff w i

/-- Settles O10: the response is a function of the parameters and of the operands the command reads. -/
theorem unreadOperandsNeverMatter : Obligations.UnreadOperandsNeverMatter := by
  intro i s r _ hagree
  refine ⟨_, _, (exec_eq_finish_responseOf i s).trans (finish_eq s _), ?_⟩
  rw [exec_eq_finish_responseOf, finish_eq, responseOf_congr i hagree]

/-- Settles O11: the parameters and the request fix the latch that the step leaves. -/
theorem responseDependsOnRequestOnly : Obligations.ResponseDependsOnRequestOnly := by
  intro s s' r rest rest' hparams hhost hhost'
  obtain ⟨l, hlatch⟩ := exists_latch_forall_step_present s.params r
  obtain ⟨t, ht, htl⟩ := hlatch s rest rfl hhost
  obtain ⟨t', ht', htl'⟩ := hlatch s' rest' hparams.symm hhost'
  exact ⟨t, t', ht, ht', htl.trans htl'.symm⟩

/-- Settles O2: each word is the word of its command. -/
theorem writtenWordsDecode : Obligations.WrittenWordsDecode := by
  simp only [Obligations.WrittenWordsDecode, decode_eq_ok_iff]
  decide

/-- Settles O6: taking the request and performing it is the step, and performing it is its command. -/
theorem stepRunsDecodedCommand : Obligations.StepRunsDecodedCommand := by
  intro s r rest i hhost hdecode _
  exact (step_present s r rest hhost).trans (perform_decoded (s.acceptRequest r rest) i hdecode)

/-- Settles O8: an idle step, a reset and a performed request each answer a state with these parameters and the
host's later actions. -/
theorem everyStepCompletes : Obligations.EveryStepCompletes := by
  intro s
  cases hhost : s.host with
  | nil => exact ⟨s, step_idle s hhost, rfl, hhost⟩
  | cons event rest =>
    cases event with
    | reset during => exact ⟨_, step_reset s during rest hhost, rfl, rfl⟩
    | present r =>
      obtain ⟨res, hstep, -⟩ := step_present_answers s r rest hhost
      exact ⟨_, hstep, rfl, rfl⟩

/-- Settles O9: every command ends in the one latch write of its result. -/
theorem commandsChangeOnlyTheLatch : Obligations.CommandsChangeOnlyTheLatch := by
  intro i s
  obtain ⟨res, hres⟩ := exec_finishes i s
  exact ⟨res.status, res.payload, hres⟩

/-- Settles O12: the first step keeps the parameters, so the second request leaves the latch it would have left alone. -/
theorem latchHoldsLastResponse : Obligations.LatchHoldsLastResponse := by
  intro s r1 r2 rest hhost
  obtain ⟨t, hst, htparams, hthost⟩ := everyStepCompletes s
  rw [hhost, List.tail_cons] at hthost
  obtain ⟨u, htu, -, huhost⟩ := everyStepCompletes t
  rw [hthost, List.tail_cons] at huhost
  obtain ⟨l, hlatch⟩ := exists_latch_forall_step_present s.params r2
  obtain ⟨u', htu', hul⟩ := hlatch t rest htparams hthost
  obtain ⟨v, hv, hvl⟩ := hlatch { s with host := .present r2 :: rest } rest rfl rfl
  obtain rfl : u' = u := Host.Outcome.next.inj (htu'.symm.trans htu)
  exact ⟨t, u', v, hst, htu, hv, hul.trans hvl.symm, huhost⟩

/-- Settles O13: with no host action the step is the idle one. -/
theorem idleStepChangesNothing : Obligations.IdleStepChangesNothing :=
  step_idle

/-- Settles O14: a reset action is taken whole, whatever request it falls into. -/
theorem resetLeavesTheEmptyLatch : Obligations.ResetLeavesTheEmptyLatch :=
  ⟨rfl, rfl, fun s during rest hhost => ⟨_, step_reset s during rest hhost, rfl, rfl, rfl⟩⟩

/-- Settles O19: the default parameters are legal and the latch is the reset latch. -/
theorem resetIsSafe : Obligations.ResetIsSafe := by
  unfold Obligations.ResetIsSafe
  decide

end Sys2Proof.Machine
end

section
/-! SUPPORT. ADD and SUB on words (40_bitwise_arith.md): in range each is the sum or the difference of the operands'
words, so its laws are those of the words. -/

namespace Sys2Proof.Machine

theorem inAddRange_false_iff (W : Nat) (z : Int) :
    inAddRange W z = false ↔ z < -2 ^ (W - 1) ∨ 2 ^ (W - 1) - 1 < z := by
  rw [← Bool.not_eq_true, inAddRange_iff, not_and_or, not_le, not_le]

/-! ### The commands on words -/

theorem exec_add_inRange (s : State) (ha : inAddRange s.params.addBits s.port.a = true)
    (hb : inAddRange s.params.addBits s.port.b = true) :
    exec .add s = .next (answered s .ok
      (.int (BitVec.ofInt s.params.addBits s.port.a + BitVec.ofInt s.params.addBits s.port.b).toInt)) := by
  refine exec_of_responseOf_ret .add s _ rfl ?_
  rw [responseOf, arithCmd_inRange _ _ _ ha hb, addW_eq_add]

theorem exec_sub_inRange (s : State) (ha : inAddRange s.params.addBits s.port.a = true)
    (hb : inAddRange s.params.addBits s.port.b = true) :
    exec .sub s = .next (answered s .ok
      (.int (BitVec.ofInt s.params.addBits s.port.a - BitVec.ofInt s.params.addBits s.port.b).toInt)) := by
  refine exec_of_responseOf_ret .sub s _ rfl ?_
  rw [responseOf, arithCmd_inRange _ _ _ ha hb, subW_eq_sub]

theorem exec_add_onAB (s : State) (a b : Int) (ha : inAddRange s.params.addBits a = true)
    (hb : inAddRange s.params.addBits b = true) :
    exec .add (s.onAB a b) = .next (answered (s.onAB a b) .ok
      (.int (BitVec.ofInt s.params.addBits a + BitVec.ofInt s.params.addBits b).toInt)) :=
  exec_add_inRange (s.onAB a b) ha hb

theorem exec_sub_onAB (s : State) (a b : Int) (ha : inAddRange s.params.addBits a = true)
    (hb : inAddRange s.params.addBits b = true) :
    exec .sub (s.onAB a b) = .next (answered (s.onAB a b) .ok
      (.int (BitVec.ofInt s.params.addBits a - BitVec.ofInt s.params.addBits b).toInt)) :=
  exec_sub_inRange (s.onAB a b) ha hb

/-- A number in the adder's range is read back from its word. -/
theorem toInt_ofInt_of_inRange (W : Nat) (hW : 1 ≤ W) (z : Int) (h : inAddRange W z = true) :
    (BitVec.ofInt W z).toInt = z := by
  rw [toInt_ofInt_eq_wrapInt W hW, wrapInt_of_inRange W hW z h]

/-- Wrapping keeps the word, and gives a number in the adder's range. -/
theorem ofInt_wrapInt (W : Nat) (hW : 1 ≤ W) (z : Int) :
    BitVec.ofInt W (wrapInt W z) = BitVec.ofInt W z ∧ inAddRange W (wrapInt W z) = true := by
  rw [← toInt_ofInt_eq_wrapInt W hW]
  exact ⟨BitVec.ofInt_toInt, inAddRange_toInt hW _⟩

/-! ### The statements -/

/-- Settles O20: the word of the sum is the sum of the words, and its signed reading wraps the sum. -/
theorem addWraps : Obligations.AddWraps := by
  intro s hW ha ha' hb hb'
  rw [exec_add_inRange s ((inAddRange_iff _ _).2 ⟨ha, ha'⟩) ((inAddRange_iff _ _).2 ⟨hb, hb'⟩), ← BitVec.ofInt_add,
    toInt_ofInt_eq_wrapInt _ hW]

/-- Settles O21: the word of the difference is the difference of the words, and its signed reading wraps it. -/
theorem subWraps : Obligations.SubWraps := by
  intro s hW ha ha' hb hb'
  rw [exec_sub_inRange s ((inAddRange_iff _ _).2 ⟨ha, ha'⟩) ((inAddRange_iff _ _).2 ⟨hb, hb'⟩), BitVec.sub_eq_add_neg,
    ← BitVec.ofInt_neg, ← BitVec.ofInt_add, ← sub_eq_add_neg, toInt_ofInt_eq_wrapInt _ hW]

/-- Settles O23: on words subtraction undoes addition, addition is commutative and subtraction adds the negation. -/
theorem addAndSubLaws : Obligations.AddAndSubLaws := by
  intro s a b hW ha ha' hb hb'
  have hA : inAddRange s.params.addBits a = true := (inAddRange_iff _ _).2 ⟨ha, ha'⟩
  have hB : inAddRange s.params.addBits b = true := (inAddRange_iff _ _).2 ⟨hb, hb'⟩
  obtain ⟨hneg, hnegRange⟩ := ofInt_wrapInt s.params.addBits hW (-b)
  refine ⟨_, _, exec_add_onAB s a b hA hB, ?undo, ?comm, exec_sub_onAB s a b hA hB, ?negation⟩
  case undo =>
    rw [exec_sub_onAB s _ b (inAddRange_toInt hW _) hB, BitVec.ofInt_toInt, BitVec.add_sub_cancel,
      toInt_ofInt_of_inRange _ hW a hA]
  case comm => rw [exec_add_onAB s b a hB hA, BitVec.add_comm]
  case negation => rw [exec_add_onAB s a _ hA hnegRange, hneg, BitVec.ofInt_neg, BitVec.sub_eq_add_neg]

/-- Settles O22: an operand out of range raises before any word is computed. -/
theorem arithmeticRangeErrors : Obligations.ArithmeticRangeErrors := by
  intro s _ hrange
  have hout : inAddRange s.params.addBits s.port.a = false ∨ inAddRange s.params.addBits s.port.b = false := by
    simpa only [inAddRange_false_iff, or_assoc] using hrange
  exact ⟨exec_of_responseOf_raise .add s _ (arithCmd_outOfRange _ _ _ hout),
    exec_of_responseOf_raise .sub s _ (arithCmd_outOfRange _ _ _ hout)⟩

end Sys2Proof.Machine
end

section
/-! SUPPORT. The commands of 41_binary_string.md on accepted operands, text by text, and the errors of the others. -/

namespace Sys2Proof.Machine

theorem isBits_false_iff (t : Text) : isBits t = false ↔ ¬ IsBitString t := by
  rw [← isBits_iff, Bool.not_eq_true]

/-! ### DEC2BINP.T -/

theorem exec_dec2binpT_accepted (s : State) (h0 : 0 ≤ s.port.a) (h1 : s.port.a < 2 ^ s.params.textMax)
    (hw0 : 0 ≤ s.port.b) (hw1 : s.port.b ≤ s.params.textMax) :
    exec .dec2binpT s =
      .next (answered s .ok (.text (bits s.port.b.toNat (s.port.a.toNat % 2 ^ s.port.b.toNat)))) := by
  refine exec_of_responseOf_ret .dec2binpT s _ rfl ?_
  rw [responseOf, dec2binpTCmd, withNumber_eq _ _ _ h0 h1, withWidth_eq _ _ _ hw0 hw1]

/-! ### BYTES2BIN, character by character (41_binary_string.md rule R126) -/

theorem bitChar_eq_one_iff (d : Nat) : bitChar d = 0x31#8 ↔ d % 2 = 1 := by
  unfold bitChar
  split <;> simp [*, chr0, chr1]

/-- Character `j` of an `n`-character bit-string is the bit of weight `2^(n-1-j)`. -/
theorem bits_getD (n u j : Nat) (h : j < n) : (bits n u).getD j 0#8 = bitChar (u / 2 ^ (n - 1 - j)) := by
  induction n generalizing j with
  | zero => omega
  | succ n ih =>
    cases j with
    | zero => rfl
    | succ j =>
      rw [bits, List.getD_cons_succ, ih j (by omega)]
      congr 3
      omega

/-- The eight characters of byte `i` start at `8 * i`. -/
theorem bytesText_getD (x : List Byte) (i j : Nat) (hi : i < x.length) (hj : j < 8) :
    (bytesText x).getD (8 * i + j) 0#8 = bitChar ((x.getD i 0#8).toNat / 2 ^ (7 - j)) := by
  induction x generalizing i with
  | nil => cases hi
  | cons b bs ih =>
    have hcons : bytesText (b :: bs) = bits 8 b.toNat ++ bytesText bs := rfl
    rw [hcons]
    cases i with
    | zero =>
      rw [mul_zero, zero_add, List.getD_append _ _ _ _ (by rwa [bits_length]), bits_getD _ _ _ hj,
        List.getD_cons_zero]
    | succ i =>
      have hplace : 8 * (i + 1) + j - 8 = 8 * i + j := by omega
      rw [List.getD_append_right _ _ _ _ (by rw [bits_length]; omega), bits_length, hplace,
        ih i (Nat.lt_of_succ_lt_succ hi), List.getD_cons_succ]

/-! ### Checks that raise -/

theorem withBits_long (P : Params) (r : Request) (f : Text → Result) (h : P.textMax < r.tx.length) :
    withBits P r f = .raise .invalidLength :=
  withTX_long _ _ _ h

theorem withNumber_raise (P : Params) (r : Request) (f : Nat → Result) (hf : f r.a.toNat = .raise .rangeError) :
    withNumber P r f = .raise .rangeError := by
  rw [withNumber, hf, ite_self]

theorem withWidth_raise (P : Params) (r : Request) (f : Nat → Result) (hf : f r.b.toNat = .raise .rangeError) :
    withWidth P r f = .raise .rangeError := by
  rw [withWidth, hf, ite_self]

/-- A number over the width asked for is refused, whether or not the number and the width are in range
(41_binary_string.md rule R123). -/
theorem dec2binpCmd_unfit (P : Params) (r : Request) (h : 2 ^ r.b.toNat ≤ r.a) :
    dec2binpCmd P r = .raise .rangeError := by
  have hfit : 2 ^ r.b.toNat ≤ r.a.toNat := by
    have hcast : (2 ^ r.b.toNat : Int) = ((2 ^ r.b.toNat : Nat) : Int) := by push_cast; rfl
    omega
  exact withNumber_raise _ _ _ (withWidth_raise _ _ _ (if_pos hfit))

/-- Both limits of BYTES2BIN raise the one error (41_binary_string.md rule R126). -/
theorem bytes2binCmd_long (P : Params) (r : Request) (h : P.bytesMax < r.x.length ∨ P.textMax < 8 * r.x.length) :
    bytes2binCmd P r = .raise .invalidLength := by
  by_cases hx : P.bytesMax < r.x.length
  · exact withX_long _ _ _ hx
  · rw [bytes2binCmd, withX_eq _ _ _ (Nat.not_lt.1 hx), if_pos (h.resolve_left hx)]

/-! ### The statements -/

/-- Settles O24: the value of an accepted text is the sum of its bits. -/
theorem bin2DecSumsTheBits : Obligations.Bin2DecSumsTheBits := by
  intro s hlen hbits
  rw [exec_bin2dec_accepted s hlen ((isBits_iff _).2 hbits), bitval_eq_bitSum]

/-- Settles O25: the number's text has the number's value, and starts with `'1'` unless it is `"0"`. -/
theorem dec2BinWritesLeastText : Obligations.Dec2BinWritesLeastText := by
  intro s h0 h1
  obtain ⟨hbits, hvalue, hzero, hhead⟩ := decimalText_spec s.port.a.toNat
  refine ⟨_, exec_dec2bin_accepted s h0 h1, (isBits_iff _).1 hbits, ?_, fun ha => hzero (by omega), fun ha => ?_⟩
  · rw [← bitval_eq_bitSum, hvalue, Int.toNat_of_nonneg h0]
  · obtain ⟨t, ht⟩ := hhead (by omega)
    rw [ht]
    rfl

/-- Settles O26: the text has the width asked for, and a number that fits loses no bit in it. -/
theorem dec2BinpPadsToWidth : Obligations.Dec2BinpPadsToWidth := by
  intro s h0 h1 hw0 hw1 hfit
  have hfit := toNat_lt_two_pow _ _ h0 hfit
  refine ⟨_, exec_dec2binp_accepted s h0 h1 hw0 hw1 hfit, (isBits_iff _).1 (bits_isBits _ _), ?_, ?_⟩
  · rw [bits_length, Int.toNat_of_nonneg hw0]
  · rw [← bitval_eq_bitSum, bitval_bits, Nat.mod_eq_of_lt hfit, Int.toNat_of_nonneg h0]

/-- Settles O27: the text has the width asked for, and the value of the bits kept. -/
theorem dec2BinpTKeepsLowBits : Obligations.Dec2BinpTKeepsLowBits := by
  intro s h0 h1 hw0 hw1
  refine ⟨_, exec_dec2binpT_accepted s h0 h1 hw0 hw1, (isBits_iff _).1 (bits_isBits _ _), ?_, ?_⟩
  · rw [bits_length, Int.toNat_of_nonneg hw0]
  · rw [← bitval_eq_bitSum, bitval_bits, Nat.mod_mod, Int.natCast_mod, Int.toNat_of_nonneg h0]
    push_cast
    rfl

/-- Settles O28: the chunks are the base-256 digits of the text's value. -/
theorem bin2TxtCutsChunksFromTheRight : Obligations.Bin2TxtCutsChunksFromTheRight := by
  intro s hlen hbits
  obtain ⟨hcount, hsum⟩ := chunkText_spec s.port.tx
  exact ⟨_, exec_bin2txt_accepted s hlen ((isBits_iff _).2 hbits), hcount, hsum.trans (bitval_eq_bitSum _)⟩

/-- Settles O29: each byte's eight characters are its bits, from weight `2^7` down. -/
theorem bytes2BinWritesEachBit : Obligations.Bytes2BinWritesEachBit := by
  intro s hlen htext
  obtain ⟨hbits, hlength, -⟩ := bytesText_spec s.port.x
  refine ⟨_, exec_bytes2bin_accepted s hlen htext, hlength, (isBits_iff _).1 hbits, fun i hi j hj => ?_⟩
  rw [bytesText_getD _ i j hi hj, bitChar_eq_one_iff, BitVec.getLsbD, Nat.testBit_eq_decide_div_mod_eq,
    decide_eq_true_eq]

/-- Settles O30: each check of the family raises its error before the text is written; those after it that could act
raise the same one. -/
theorem binaryStringErrors : Obligations.BinaryStringErrors := by
  intro s
  refine ⟨fun hlen => ?length, fun hlen hbits => ?format, fun hnumber => ?number, fun hwidth => ?width,
    fun hfit => ?fit, fun hlen => ?bytes⟩
  case length =>
    have hdec : bin2decCmd s.params s.port = .raise .invalidLength := withBits_long _ _ _ hlen
    have htxt : bin2txtCmd s.params s.port = .raise .invalidLength := withBits_long _ _ _ hlen
    exact ⟨exec_of_responseOf_raise .bin2dec s _ hdec, exec_of_responseOf_raise .bin2txt s _ htxt⟩
  case format =>
    have hbits := (isBits_false_iff _).2 hbits
    have hdec : bin2decCmd s.params s.port = .raise .invalidFormat := withBits_bad _ _ _ hlen hbits
    have htxt : bin2txtCmd s.params s.port = .raise .invalidFormat := withBits_bad _ _ _ hlen hbits
    exact ⟨exec_of_responseOf_raise .bin2dec s _ hdec, exec_of_responseOf_raise .bin2txt s _ htxt⟩
  case number =>
    have hleast : dec2binCmd s.params s.port = .raise .rangeError := withNumber_bad _ _ _ hnumber
    have hpad : dec2binpCmd s.params s.port = .raise .rangeError := withNumber_bad _ _ _ hnumber
    have hcut : dec2binpTCmd s.params s.port = .raise .rangeError := withNumber_bad _ _ _ hnumber
    exact ⟨exec_of_responseOf_raise .dec2bin s _ hleast, exec_of_responseOf_raise .dec2binp s _ hpad,
      exec_of_responseOf_raise .dec2binpT s _ hcut⟩
  case width =>
    have hpad : dec2binpCmd s.params s.port = .raise .rangeError :=
      withNumber_raise _ _ _ (withWidth_bad _ _ _ hwidth)
    have hcut : dec2binpTCmd s.params s.port = .raise .rangeError :=
      withNumber_raise _ _ _ (withWidth_bad _ _ _ hwidth)
    exact ⟨exec_of_responseOf_raise .dec2binp s _ hpad, exec_of_responseOf_raise .dec2binpT s _ hcut⟩
  case fit => exact exec_of_responseOf_raise .dec2binp s _ (dec2binpCmd_unfit _ _ hfit)
  case bytes => exact exec_of_responseOf_raise .bytes2bin s _ (bytes2binCmd_long _ _ hlen)

end Sys2Proof.Machine
end

section
/-! SUPPORT. ENCINT and DECINT on accepted operands, the operands they refuse, and the two byte orders
(42_endian_int.md), each for every order `E` and mode `Y`, `S` at once. -/

namespace Sys2Proof.Machine

/-! ### The bytes ENCINT writes -/

theorem exec_encintOf_accepted (E Y S : Bool) (s : State) (hmode : ¬(Y = true ∧ S = true)) (hb : 0 ≤ s.port.b)
    (ha : S = true ∨ 0 ≤ s.port.a)
    (hwidth : max (leastWidth Y S s.port.a) s.port.b.toNat ≤ widthLimit s.params S) :
    exec (encintOf E Y S) s = .next (answered s .ok
      (.bytes (inOrder E (encBe s.port.a (max (leastWidth Y S s.port.a) s.port.b.toNat) (radix Y) S)))) := by
  refine exec_of_responseOf_ret _ s _ rfl ?_
  rw [responseOf_encintOf, encint_accepts E Y S _ _ hmode hb ha hwidth]

theorem encValue_unsigned (x : Int) (w : Nat) : encValue x w false = x.toNat := rfl

/-- A leading digit of 0 is written only to fill the width asked for (42_endian_int.md rules R153, R156). -/
theorem encBe_head_ne_zero (Y : Bool) (x : Int) (w : Nat) (hw : 1 < w) (hleast : w = leastWidth Y false x) :
    (encBe x w (radix Y) false).getD 0 0#8 ≠ 0#8 := by
  have hbase := radix_ge_two Y
  have hbase' := radix_le Y
  obtain ⟨n, rfl⟩ : ∃ n, w = n + 1 := ⟨w - 1, by omega⟩
  obtain ⟨-, hlt, hmin⟩ := ku_spec x.toNat (radix Y) hbase
  have hku : ku x.toNat (radix Y) = n + 1 := hleast.symm
  rw [hku] at hlt hmin
  have hpow : 0 < radix Y ^ n := Nat.pow_pos (by omega)
  have hpos : 0 < x.toNat / radix Y ^ n := Nat.div_pos (hmin n (by omega) (Nat.lt_succ_self n)) hpow
  have hdigit : x.toNat / radix Y ^ n < radix Y := Nat.div_lt_of_lt_mul (by rwa [← pow_succ])
  have hhead : (encBe x (n + 1) (radix Y) false).getD 0 0#8 = BitVec.ofNat 8 (x.toNat / radix Y ^ n) := by
    rw [encBe_eq, List.range_succ_eq_map, List.map_cons, List.getD_cons_zero, encValue_unsigned, Nat.add_sub_cancel,
      Nat.sub_zero, Nat.mod_eq_of_lt hdigit]
  rw [hhead, ne_eq, ← BitVec.toNat_inj, BitVec.toNat_ofNat, BitVec.toNat_ofNat]
  omega

/-- At the greater of its least width and the width asked for, a number's bytes are its digits, no more of them than
needed (42_endian_int.md rule R155). -/
theorem isDigitsOf_encBe (Y : Bool) (x m : Int) (hx : 0 ≤ x) (hm : 0 ≤ m) :
    IsDigitsOf (radix Y) (encBe x (max (leastWidth Y false x) m.toNat) (radix Y) false) x m := by
  have hbase := radix_ge_two Y
  obtain ⟨hone, hfit, -⟩ := ku_spec x.toNat (radix Y) hbase
  have hleast : leastWidth Y false x = ku x.toNat (radix Y) := rfl
  have hfits : x.toNat < radix Y ^ max (leastWidth Y false x) m.toNat :=
    hfit.trans_le (Nat.pow_le_pow_right (by omega) (le_max_left _ _))
  refine ⟨?sum, encBe_lt x _ _ _ (by omega) (radix_le Y), ?nonempty, ?width, fun hlen hspare => ?head⟩
  case sum =>
    rw [digitSum_encBe x _ _ _ (by omega) (radix_le Y), encValue_unsigned, Nat.mod_eq_of_lt hfits,
      Int.toNat_of_nonneg hx]
  case nonempty =>
    rw [encBe_length]
    omega
  case width =>
    rw [encBe_length]
    omega
  case head =>
    rw [encBe_length] at hlen hspare
    exact encBe_head_ne_zero Y x _ hlen (by omega)

/-- Accepted, the unsigned and synchsafe forms write the digits, in the order of the form (rules R160 to R163). -/
theorem exec_encint_unsigned (Y : Bool) (s : State) (hlimit : 1 ≤ s.params.intMaxBytes) (ha : 0 ≤ s.port.a)
    (hb : 0 ≤ s.port.b) (hb' : s.port.b ≤ s.params.intMaxBytes)
    (hfit : s.port.a < (radix Y : Int) ^ s.params.intMaxBytes) :
    ∃ d : List Byte, exec (encintOf false Y false) s = .next (answered s .ok (.bytes d)) ∧
      exec (encintOf true Y false) s = .next (answered s .ok (.bytes d.reverse)) ∧
      IsDigitsOf (radix Y) d s.port.a s.port.b := by
  have hleast : leastWidth Y false s.port.a ≤ s.params.intMaxBytes :=
    ku_le _ _ _ (radix_ge_two Y) hlimit ((Int.toNat_lt ha).2 (by exact_mod_cast hfit))
  have hwidth : max (leastWidth Y false s.port.a) s.port.b.toNat ≤ widthLimit s.params false :=
    max_le hleast (Int.toNat_le.2 hb')
  exact ⟨_, exec_encintOf_accepted false Y false s (by simp) hb (.inr ha) hwidth,
    exec_encintOf_accepted true Y false s (by simp) hb (.inr ha) hwidth, isDigitsOf_encBe Y _ _ ha hb⟩

/-- At no less than its least width, a number's two's-complement bytes have the number as their signed value
(42_endian_int.md rules R156, R157). -/
theorem signedSum_encBe (x : Int) (w : Nat) (hw : ks x ≤ w) : signedSum (encBe x w (radix false) true) = x := by
  have hread := tcDecode_encBe_signed x w hw
  have hsum := tcDecode_decBe (encBe x w (radix false) true)
  rw [encBe_length] at hsum
  exact hsum.symm.trans hread

theorem ks_le (x : Int) (n : Nat) (hn : 1 ≤ n) (h : InSignedBytes n x) : ks x ≤ n := by
  obtain ⟨-, -, hmin⟩ := ks_spec x
  by_contra hlt
  exact hmin n hn (Nat.not_le.1 hlt) h

/-! ### The operands ENCINT refuses (42_endian_int.md rules R155, R159) -/

theorem exec_encintOf_refused (E Y S : Bool) (s : State) (hmode : ¬(Y = true ∧ S = true))
    (h : s.port.b < 0 ∨ (S = false ∧ s.port.a < 0) ∨
      widthLimit s.params S < max (leastWidth Y S s.port.a) s.port.b.toNat) :
    exec (encintOf E Y S) s = .next (answered s .rangeError .none) := by
  refine exec_of_responseOf_raise _ s .rangeError ?_
  rw [responseOf_encintOf, encint, if_neg hmode]
  by_cases hb : s.port.b < 0
  · exact if_pos hb
  · rw [if_neg hb]
    by_cases ha : S = false ∧ s.port.a < 0
    · exact if_pos ha
    · rw [if_neg ha]
      exact if_pos ((h.resolve_left hb).resolve_left ha)

theorem one_le_leastWidth (Y S : Bool) (x : Int) : 1 ≤ leastWidth Y S x := by
  cases S
  · exact (ku_spec x.toNat (radix Y) (radix_ge_two Y)).1
  · exact (ks_spec x).1

/-- A number of more than `n` digits needs more than `n` bytes. -/
theorem lt_leastWidth_unsigned (Y : Bool) (x : Int) (n : Nat) (h : (radix Y : Int) ^ n ≤ x) :
    n < leastWidth Y false x := by
  obtain ⟨-, hfit, -⟩ := ku_spec x.toNat (radix Y) (radix_ge_two Y)
  have hlow : radix Y ^ n ≤ x.toNat := Int.le_toNat (le_trans (by positivity) h) |>.2 (by exact_mod_cast h)
  have hbase : 0 < radix Y := (Nat.zero_lt_succ 1).trans_le (radix_ge_two Y)
  by_contra hle
  exact absurd (hlow.trans_lt hfit) (Nat.not_lt.2 (Nat.pow_le_pow_right hbase (Nat.not_lt.1 hle)))

/-- A number outside the signed range of `n` bytes needs more than `n`. -/
theorem lt_leastWidth_signed (x : Int) (n : Nat) (h : ¬ InSignedBytes n x) : n < leastWidth false true x := by
  obtain ⟨-, hfit, -⟩ := ks_spec x
  by_contra hle
  exact h (InSignedBytes_mono _ _ x (Nat.not_lt.1 hle) hfit)

/-! ### DECINT -/

theorem exec_decintOf_accepted (E Y S : Bool) (s : State) (hmode : ¬(Y = true ∧ S = true))
    (hlen : s.port.x.length ≤ s.params.bytesMax) (hlimit : s.port.x.length ≤ widthLimit s.params S) :
    exec (decintOf E Y S) s = .next (answered s .ok
      (.int (if S then tcDecode (decBe (radix Y) Y (inOrder E s.port.x)) s.port.x.length
        else decBe (radix Y) Y (inOrder E s.port.x)))) := by
  refine exec_of_responseOf_ret _ s _ rfl ?_
  rw [responseOf_decintOf, decint_accepts E Y S _ _ hmode hlen hlimit]

theorem exec_decintOf_unsigned (E Y : Bool) (s : State) (hlen : s.port.x.length ≤ s.params.bytesMax)
    (hlimit : s.port.x.length ≤ s.params.intMaxBytes) :
    exec (decintOf E Y false) s =
      .next (answered s .ok (.int (digitSum (radix Y) ((inOrder E s.port.x).map (digitOf Y))))) := by
  rw [exec_decintOf_accepted E Y false s (by simp) hlen hlimit, if_neg Bool.false_ne_true, decBe_eq_digitSum]

theorem exec_decintOf_signed (E : Bool) (s : State) (hlen : s.port.x.length ≤ s.params.bytesMax)
    (hlimit : s.port.x.length ≤ 4) :
    exec (decintOf E false true) s = .next (answered s .ok (.int (signedSum (inOrder E s.port.x)))) := by
  rw [exec_decintOf_accepted E false true s (by simp) hlen hlimit, if_pos rfl, ← tcDecode_decBe, inOrder_length]
  rfl

theorem exec_decintOf_long (E Y S : Bool) (s : State) (hmode : ¬(Y = true ∧ S = true))
    (h : s.params.bytesMax < s.port.x.length ∨ widthLimit s.params S < s.port.x.length) :
    exec (decintOf E Y S) s = .next (answered s .invalidLength .none) := by
  refine exec_of_responseOf_raise _ s .invalidLength ?_
  rw [responseOf_decintOf, decint_long E Y S _ _ hmode h]

/-! ### The two byte orders (42_endian_int.md rule R151) -/

/-- Whether ENCINT accepts its operands, and the bytes it writes but for their order, do not depend on the order. -/
theorem encint_orders (Y S : Bool) (P : Params) (r : Request) :
    (∃ d, ∀ E, encint E Y S P r = .ret (.bytes (inOrder E d))) ∨ ∃ e, ∀ E, encint E Y S P r = .raise e := by
  by_cases hmode : Y = true ∧ S = true
  · exact .inr ⟨_, fun E => if_pos hmode⟩
  by_cases hb : r.b < 0
  · exact .inr ⟨_, fun E => (if_neg hmode).trans (if_pos hb)⟩
  by_cases ha : S = false ∧ r.a < 0
  · exact .inr ⟨_, fun E => (if_neg hmode).trans ((if_neg hb).trans (if_pos ha))⟩
  by_cases hwidth : max (leastWidth Y S r.a) r.b.toNat > widthLimit P S
  · exact .inr ⟨_, fun E => (if_neg hmode).trans ((if_neg hb).trans ((if_neg ha).trans (if_pos hwidth)))⟩
  · exact .inl ⟨_, fun E => (if_neg hmode).trans ((if_neg hb).trans ((if_neg ha).trans (if_neg hwidth)))⟩

/-- DECINT reads bytes in little-endian order as it reads the reversed bytes in big-endian order. -/
theorem decint_le_eq_be_reverse (Y S : Bool) (P : Params) (r r' : Request) (hx : r'.x = r.x.reverse) :
    decint true Y S P r = decint false Y S P r' := by
  simp only [decint, withX, hx, List.length_reverse, inOrder, if_true, Bool.false_eq_true, if_false]

theorem err_status_isError (e : Err) : e.status.isError = true := by
  cases e <;> rfl

/-! ### The statements -/

/-- Settles O32: the width written is the greater of the least width and the one asked for. -/
theorem unsignedEncodeWritesDigits : Obligations.UnsignedEncodeWritesDigits := by
  intro s hlimit ha hb hb'
  exact ⟨exec_encint_unsigned false s hlimit ha hb hb', exec_encint_unsigned true s hlimit ha hb hb'⟩

/-- Settles O33: a number in the range of four bytes needs at most four, and at its least width or more its
two's-complement bytes hold it. -/
theorem signedEncodeWritesTwosComplement : Obligations.SignedEncodeWritesTwosComplement := by
  intro s ha ha' hb hb'
  obtain ⟨hone, -, hmin⟩ := ks_spec s.port.a
  have hleast : ks s.port.a ≤ 4 := ks_le _ 4 (by norm_num) ⟨by omega, by omega⟩
  have hwidth : max (leastWidth false true s.port.a) s.port.b.toNat ≤ widthLimit s.params true :=
    max_le hleast (Int.toNat_le.2 hb')
  refine ⟨_, exec_encintOf_accepted false false true s (by simp) hb (.inl rfl) hwidth,
    exec_encintOf_accepted true false true s (by simp) hb (.inl rfl) hwidth,
    signedSum_encBe _ _ (le_max_left _ _), ?_⟩
  have hks : leastWidth false true s.port.a = ks s.port.a := rfl
  simp only [inOrder, Bool.false_eq_true, if_false, encBe_length, hks]
  exact ⟨by omega, by omega, by omega, fun hlen hspare => hmin _ (by omega) (by omega)⟩

/-- Settles O34: the bytes in the order of the form, each masked under synchsafe, are the digits summed. -/
theorem unsignedDecodeSumsDigits : Obligations.UnsignedDecodeSumsDigits := by
  intro s hlen hlimit
  have hmask (E : Bool) : exec (decintOf E true false) s = .next (answered s .ok
      (.int (digitSum 128 ((inOrder E s.port.x).map fun b => b.toNat % 128)))) := by
    rw [exec_decintOf_unsigned E true s hlen hlimit, funext digitOf_true]
    rfl
  exact ⟨exec_decintOf_unsigned false false s hlen hlimit, exec_decintOf_unsigned true false s hlen hlimit,
    hmask false, hmask true⟩

/-- Settles O35: the two's-complement stage reads the signed value of the bytes in the order of the form. -/
theorem signedDecodeReadsTwosComplement : Obligations.SignedDecodeReadsTwosComplement := by
  intro s hlen hlimit
  exact ⟨exec_decintOf_signed false s hlen hlimit, exec_decintOf_signed true s hlen hlimit⟩

/-- Settles O36: each bound is one of ENCINT's checks, or makes the width needed exceed the limit. -/
theorem encodeRangeErrors : Obligations.EncodeRangeErrors := by
  intro s
  have hall : ∀ i ∈ [Instr.encintBeU, .encintLeU, .encintBeSs, .encintLeSs, .encintBeS, .encintLeS],
      ∃ E Y S, ¬(Y = true ∧ S = true) ∧ encintOf E Y S = i := by decide
  have hunsigned : ∀ i ∈ [Instr.encintBeU, .encintLeU, .encintBeSs, .encintLeSs],
      ∃ E Y, encintOf E Y false = i := by decide
  refine ⟨fun hb i hi => ?_, fun ha i hi => ?_, fun hb i hi => ?_, fun hlimit i hi => ?_, fun ha => ?_, fun ha => ?_,
    fun hout => ?_⟩
  · obtain ⟨E, Y, S, hmode, rfl⟩ := hall i hi
    exact exec_encintOf_refused E Y S s hmode (.inl hb)
  · obtain ⟨E, Y, rfl⟩ := hunsigned i hi
    exact exec_encintOf_refused E Y false s (by simp) (.inr (.inl ⟨rfl, ha⟩))
  · obtain ⟨E, Y, rfl⟩ := hunsigned i hi
    exact exec_encintOf_refused E Y false s (by simp) (.inr (.inr (lt_max_of_lt_right (Int.lt_toNat.2 hb))))
  · obtain ⟨E, Y, rfl⟩ := hunsigned i hi
    have hwidth : widthLimit s.params false < leastWidth Y false s.port.a :=
      hlimit.trans_lt (one_le_leastWidth Y false s.port.a)
    exact exec_encintOf_refused E Y false s (by simp) (.inr (.inr (lt_max_of_lt_left hwidth)))
  · have hrefused (E : Bool) := exec_encintOf_refused E false false s (by simp)
      (.inr (.inr (lt_max_of_lt_left (lt_leastWidth_unsigned false _ _ ha))))
    exact List.forall_mem_cons.2 ⟨hrefused false, List.forall_mem_singleton.2 (hrefused true)⟩
  · have hrefused (E : Bool) := exec_encintOf_refused E true false s (by simp)
      (.inr (.inr (lt_max_of_lt_left (lt_leastWidth_unsigned true _ _ ha))))
    exact List.forall_mem_cons.2 ⟨hrefused false, List.forall_mem_singleton.2 (hrefused true)⟩
  · have hwidth : 4 < max (leastWidth false true s.port.a) s.port.b.toNat := by
      by_cases hb : 4 < s.port.b
      · exact lt_max_of_lt_right (Int.lt_toNat.2 hb)
      · refine lt_max_of_lt_left (lt_leastWidth_signed _ 4 fun hin => ?_)
        obtain ⟨hlow, hhigh⟩ := hin
        omega
    have hrefused (E : Bool) := exec_encintOf_refused E false true s (by simp) (.inr (.inr hwidth))
    exact List.forall_mem_cons.2 ⟨hrefused false, List.forall_mem_singleton.2 (hrefused true)⟩

/-- Settles O37: the capacity of `X` and the width limit of the mode raise the one error. -/
theorem decodeLengthErrors : Obligations.DecodeLengthErrors := by
  intro s
  have hall : ∀ i ∈ [Instr.decintBeU, .decintLeU, .decintBeSs, .decintLeSs, .decintBeS, .decintLeS],
      ∃ E Y S, ¬(Y = true ∧ S = true) ∧ decintOf E Y S = i := by decide
  have hunsigned : ∀ i ∈ [Instr.decintBeU, .decintLeU, .decintBeSs, .decintLeSs],
      ∃ E Y, decintOf E Y false = i := by decide
  refine ⟨fun hlen i hi => ?_, fun hlen i hi => ?_, fun hlen => ?_⟩
  · obtain ⟨E, Y, S, hmode, rfl⟩ := hall i hi
    exact exec_decintOf_long E Y S s hmode (.inl hlen)
  · obtain ⟨E, Y, rfl⟩ := hunsigned i hi
    exact exec_decintOf_long E Y false s (by simp) (.inr hlen)
  · have hlong (E : Bool) := exec_decintOf_long E false true s (by simp) (.inr hlen)
    exact List.forall_mem_cons.2 ⟨hlong false, List.forall_mem_singleton.2 (hlong true)⟩

/-- Settles O38: each pair is one mode in the two orders. -/
theorem littleEndianIsBigEndianReversed : Obligations.LittleEndianIsBigEndianReversed := by
  intro s
  refine ⟨fun p hp => ?encode, fun p hp => ?decode⟩
  case encode =>
    have hmodes : ∀ p ∈ [(Instr.encintBeU, Instr.encintLeU), (.encintBeSs, .encintLeSs), (.encintBeS, .encintLeS)],
        ∃ Y S, (encintOf false Y S, encintOf true Y S) = p := by decide
    obtain ⟨Y, S, rfl⟩ := hmodes p hp
    obtain ⟨d, hd⟩ | ⟨e, he⟩ := encint_orders Y S s.params s.port
    · have hbytes (E : Bool) : exec (encintOf E Y S) s = .next (answered s .ok (.bytes (inOrder E d))) :=
        exec_of_responseOf_ret _ s _ rfl (by rw [responseOf_encintOf, hd])
      exact .inl ⟨d, hbytes false, hbytes true⟩
    · have hraise (E : Bool) : exec (encintOf E Y S) s = .next (answered s e.status .none) :=
        exec_of_responseOf_raise _ s e (by rw [responseOf_encintOf, he])
      exact .inr ⟨e.status, err_status_isError e, hraise false, hraise true⟩
  case decode =>
    have hmodes : ∀ p ∈ [(Instr.decintBeU, Instr.decintLeU), (.decintBeSs, .decintLeSs), (.decintBeS, .decintLeS)],
        ∃ Y S, (decintOf false Y S, decintOf true Y S) = p := by decide
    obtain ⟨Y, S, rfl⟩ := hmodes p hp
    refine ⟨_, _, (exec_eq_finish_responseOf _ s).trans (finish_eq s _), ?_⟩
    rw [exec_eq_finish_responseOf, finish_eq, responseOf_decintOf, responseOf_decintOf,
      decint_le_eq_be_reverse Y S s.params s.port (s.onX s.port.x.reverse).port rfl]
    rfl

end Sys2Proof.Machine
end

section
/-! SUPPORT. The float commands on the bytes of a pattern and of a 6-byte float (43_float.md sections 1 and 2), and the
errors of the float commands. -/

namespace Sys2Proof.Machine

/-! ### FDEC (43_float.md rules R200 to R203) -/

/-- A command whose response is an infinity or a NaN changes the latch alone, to that payload with `SPECIAL`. -/
theorem exec_of_responseOf_special (i : Instr) (s : State) (p : Payload) (hspecial : p.isSpecial = true)
    (h : responseOf i s.params s.port = .ret p) : exec i s = .next (answered s .special p) := by
  rw [exec_eq_finish_responseOf, h, finish_eq, (ret_status_eq_special_iff p).2 hspecial]
  rfl

theorem decBe_bytesOf32 (u : BitVec 32) : decBe 256 false (bytesOf32 u) = u.toNat := by
  have hlt := u.isLt
  simp only [bytesOf32, decBe, digitOf_false, BitVec.extractLsb'_toNat, Nat.shiftRight_eq_div_pow, List.length_cons,
    List.length_nil]
  omega

theorem decBe_bytesOf64 (v : Word64) : decBe 256 false (bytesOf64 v) = v.toNat := by
  have hlt := v.isLt
  simp only [bytesOf64, decBe, digitOf_false, BitVec.extractLsb'_toNat, Nat.shiftRight_eq_div_pow, List.length_cons,
    List.length_nil]
  omega

theorem fdecCmd_bytesOf32 (P : Params) (r : Request) (u : BitVec 32) (hx : r.x = bytesOf32 u) (hcap : 4 ≤ P.bytesMax) :
    fdecCmd P r = .ret (.val (binary32Decode u.toNat)) := by
  have hlen : r.x.length = 4 := by rw [hx]; rfl
  rw [fdecCmd, withX_eq _ _ _ (hlen.trans_le hcap)]
  dsimp only
  rw [if_pos hlen, hx, decBe_bytesOf32]

theorem fdecCmd_bytesOf64 (P : Params) (r : Request) (v : Word64) (hx : r.x = bytesOf64 v) (hcap : 8 ≤ P.bytesMax) :
    fdecCmd P r = .ret (.val (binary64Decode v.toNat)) := by
  have hlen : r.x.length = 8 := by rw [hx]; rfl
  rw [fdecCmd, withX_eq _ _ _ (hlen.trans_le hcap)]
  dsimp only
  rw [if_neg (by omega), if_pos hlen, hx, decBe_bytesOf64]

theorem fdecCmd_long (P : Params) (r : Request)
    (h : P.bytesMax < r.x.length ∨ (r.x.length ≠ 4 ∧ r.x.length ≠ 8)) : fdecCmd P r = .raise .invalidLength := by
  by_cases hx : P.bytesMax < r.x.length
  · exact withX_long _ _ _ hx
  · obtain ⟨h4, h8⟩ := h.resolve_left hx
    rw [fdecCmd, withX_eq _ _ _ (Nat.not_lt.1 hx)]
    dsimp only
    rw [if_neg h4, if_neg h8]

/-! ### F6ENC and F6DEC (43_float.md rules R191 to R195) -/

theorem exists_bytes_f6Pack (c : F6ExpCoding) (sgn : Bool) (e : Int) (frac : Nat) :
    ∃ b0 b1 b2 b3 b4 b5 : Byte, f6Pack c sgn e frac = [b0, b1, b2, b3, b4, b5] :=
  ⟨_, _, _, _, _, _, rfl⟩

/-- Exponent 0 has the field 0 under both codings. -/
theorem f6Pack_zero (c : F6ExpCoding) (sgn : Bool) :
    f6Pack c sgn 0 0 = [0#8, if sgn then 0x80#8 else 0#8, 0#8, 0#8, 0#8, 0#8] := by
  cases c <;> cases sgn <;> rfl

theorem f6Word16_testBit (b0 b1 : Byte) : (b0.toNat + 256 * b1.toNat).testBit 15 = b1.getLsbD 7 := by
  have hlt0 := b0.isLt
  have hlt1 := b1.isLt
  rw [BitVec.getLsbD, Nat.testBit_eq_decide_div_mod_eq, Nat.testBit_eq_decide_div_mod_eq, decide_eq_decide]
  omega

theorem f6FracOf_float6Word (P : Params) (b2 b3 b4 b5 : Byte) :
    f6FracOf P.f6FracBit31 (float6Word b2 b3 b4 b5) = float6Fraction P b2 b3 b4 b5 := by
  unfold f6FracOf float6Fraction
  cases P.f6FracBit31 <;> simp

/-- F6DEC of six bytes, in the spec's own words for its sign, exponent and fraction. -/
theorem f6decCmd_bytes (P : Params) (r : Request) (b0 b1 b2 b3 b4 b5 : Byte) (hx : r.x = [b0, b1, b2, b3, b4, b5])
    (hcap : 6 ≤ P.bytesMax) :
    f6decCmd P r =
      if float6Fraction P b2 b3 b4 b5 = 0 then .ret (.val (.zero (b1.getLsbD 7)))
      else .ret (.val (.fin (signValue (b1.getLsbD 7) * 10 ^ float6Exponent P b0 b1 *
        float6Fraction P b2 b3 b4 b5 / (2 ^ 31 - 1)))) := by
  have hlen : r.x.length = 6 := by rw [hx]; rfl
  have hsgn : (f6Word16 r.x).testBit 15 = b1.getLsbD 7 := by rw [hx]; exact f6Word16_testBit b0 b1
  have hexp : f6ExpVal P.f6ExpCoding (f6Word16 r.x % 2 ^ 15) = float6Exponent P b0 b1 := by
    rw [hx]
    exact f6ExpVal_spec _ _ (Nat.mod_lt _ (by norm_num))
  have hfrac : f6FracOf P.f6FracBit31 (f6Word32 r.x) = float6Fraction P b2 b3 b4 b5 := by
    rw [hx]
    exact f6FracOf_float6Word P b2 b3 b4 b5
  rw [f6decCmd, withX_eq _ _ _ (hlen.trans_le hcap), if_neg (not_not.2 hlen)]
  simp only [hsgn, hexp, hfrac, f6K_cast, signFactor_eq]

theorem f6decCmd_long (P : Params) (r : Request) (h : P.bytesMax < r.x.length ∨ r.x.length ≠ 6) :
    f6decCmd P r = .raise .invalidLength := by
  by_cases hx : P.bytesMax < r.x.length
  · exact withX_long _ _ _ hx
  · rw [f6decCmd, withX_eq _ _ _ (Nat.not_lt.1 hx), if_pos (h.resolve_left hx)]

/-! ### Values of `V` that are refused (43_float.md rule R193) -/

/-- An all-ones exponent field is an infinity or a NaN, which has no rational value. -/
theorem binary64Decode_not_finite (v : Word64) (h : expField64 v = 2047) :
    binary64Decode v.toNat = .nan ∨ ∃ neg, binary64Decode v.toNat = .inf neg := by
  obtain ⟨hnan, hinf, -, -⟩ := binary64Decode_spec v
  by_cases hfrac : fracField64 v = 0
  · exact .inr ⟨_, hinf h hfrac⟩
  · exact .inl (hnan h hfrac)

theorem f6encCmd_not_finite (P : Params) (r : Request) (h : expField64 r.v = 2047) :
    f6encCmd P r = .raise .rangeError := by
  obtain hv | ⟨neg, hv⟩ := binary64Decode_not_finite r.v h <;> simp only [f6encCmd, hv]

theorem fbinfracCmd_not_finite (r : Request) (h : expField64 r.v = 2047) : fbinfracCmd r = .raise .rangeError := by
  obtain hv | ⟨neg, hv⟩ := binary64Decode_not_finite r.v h <;> simp only [fbinfracCmd, hv, Val.valueOf]

/-! ### NORMBP's checks (43_float.md rule R216) -/

theorem normbpCmd_badFormat (P : Params) (r : Request) (hlen : r.tx.length ≤ P.textMax)
    (hformat : ∀ ip fp : Text, ¬ IsBinaryPoint r.tx ip fp) : normbpCmd P r = .raise .invalidFormat := by
  rw [normbpCmd, withTX_eq _ _ _ hlen, (splitPoint_none_iff _).2 hformat]

theorem normbpCmd_of_isBinaryPoint (P : Params) (r : Request) (ip fp : Text) (hlen : r.tx.length ≤ P.textMax)
    (hformat : IsBinaryPoint r.tx ip fp) :
    normbpCmd P r = withWidth P r fun M => .ret (normPayload ip fp M) := by
  rw [normbpCmd, withTX_eq _ _ _ hlen, (splitPoint_iff _ _ _).2 hformat]

/-! ### The statements -/

/-- Settles O40: the four bytes are read as the pattern, which falls in one of the five cases. -/
theorem fdecReadsBinary32 : Obligations.FdecReadsBinary32 := by
  intro s u hx hcap
  have hresponse := fdecCmd_bytesOf32 s.params s.port u hx hcap
  obtain ⟨hnan, hinf, hzero, hsub, hnormal⟩ := binary32Decode_spec u
  refine ⟨fun he hf => ?_, fun he hf => ?_, fun he hf => ?_, fun he hf => ?_, fun he hf => ?_⟩
  · rw [hnan he hf] at hresponse
    exact exec_of_responseOf_special .fdec s _ rfl hresponse
  · rw [hinf he hf] at hresponse
    exact exec_of_responseOf_special .fdec s _ rfl hresponse
  · rw [hzero he hf] at hresponse
    exact exec_of_responseOf_ret .fdec s _ rfl hresponse
  · rw [hsub he hf] at hresponse
    exact exec_of_responseOf_ret .fdec s _ rfl hresponse
  · rw [hnormal he hf] at hresponse
    exact exec_of_responseOf_ret .fdec s _ rfl hresponse

/-- Settles O41: the eight bytes are read as the pattern; a finite non-zero one has its sign times its magnitude. -/
theorem fdecReadsBinary64 : Obligations.FdecReadsBinary64 := by
  intro s v hx hcap
  have hresponse := fdecCmd_bytesOf64 s.params s.port v hx hcap
  obtain ⟨hnan, hinf, hzero, hfin⟩ := binary64Decode_spec v
  refine ⟨fun he hf => ?_, fun he hf => ?_, fun he hf => ?_, fun he hf => ?_, fun he he' => ?_⟩
  · rw [hnan he hf] at hresponse
    exact exec_of_responseOf_special .fdec s _ rfl hresponse
  · rw [hinf he hf] at hresponse
    exact exec_of_responseOf_special .fdec s _ rfl hresponse
  · rw [hzero he hf] at hresponse
    exact exec_of_responseOf_ret .fdec s _ rfl hresponse
  · rw [hfin (by omega) (.inr hf), magnitude64, if_pos he, ← mul_assoc] at hresponse
    exact exec_of_responseOf_ret .fdec s _ rfl hresponse
  · rw [hfin he' (.inl he), magnitude64, if_neg he, ← mul_assoc] at hresponse
    exact exec_of_responseOf_ret .fdec s _ rfl hresponse

/-- Settles O42: the two words packed are the sign with the exponent's field, and the floored fraction. -/
theorem f6EncPacksSignExponentFraction : Obligations.F6EncPacksSignExponentFraction := by
  intro s hfin hne
  obtain ⟨e, hmin, hmax, hlow, hhigh, hpack⟩ := f6encCmd_fin s.params s.port hfin hne
  obtain ⟨hfield, -⟩ := f6ExpField_spec s.params.f6ExpCoding e hmin hmax
  have hfrac := f6Frac_eq (magnitude64 s.port.v) e (magnitude64_nonneg _) hhigh
  have hbound : f6Frac (magnitude64 s.port.v) e < 2 ^ 32 := (f6Frac_le _ e).trans_lt (by norm_num [f6K])
  have hword16 := f6Word16_f6Pack s.params.f6ExpCoding (s.port.v.getLsbD 63) e (f6Frac (magnitude64 s.port.v) e)
    hmin hmax
  have hword32 := f6Word32_f6Pack s.params.f6ExpCoding (s.port.v.getLsbD 63) e _ hbound
  obtain ⟨b0, b1, b2, b3, b4, b5, hbytes⟩ := exists_bytes_f6Pack s.params.f6ExpCoding (s.port.v.getLsbD 63) e
    (f6Frac (magnitude64 s.port.v) e)
  rw [hbytes] at hpack hword16 hword32
  refine ⟨e, b0, b1, b2, b3, b4, b5, exec_of_responseOf_ret .f6enc s _ rfl hpack, hlow, hhigh, ?_, ?_⟩
  · calc ((b0.toNat + 256 * b1.toNat : Nat) : Int)
        = (((if s.port.v.getLsbD 63 then 2 ^ 15 else 0) + f6ExpField s.params.f6ExpCoding e : Nat) : Int) :=
          congrArg Nat.cast hword16
      _ = (if s.port.v.getLsbD 63 then 2 ^ 15 else 0) + expFieldSpec s.params.f6ExpCoding e := by
          rw [← hfield]
          push_cast
          rfl
  · exact (congrArg Nat.cast hword32).trans hfrac

/-- Settles O43: a zero is packed with exponent 0 and fraction 0. -/
theorem f6EncKeepsTheSignOfZero : Obligations.F6EncKeepsTheSignOfZero := by
  intro s hexp hfrac
  have hpack := f6encCmd_zero s.params s.port ((magnitude64_eq_zero _).2 ⟨hexp, hfrac⟩)
  rw [f6Pack_zero] at hpack
  exact exec_of_responseOf_ret .f6enc s _ rfl hpack

/-- Settles O44: the sign, exponent and fraction read are the spec's. -/
theorem f6DecReadsSignExponentFraction : Obligations.F6DecReadsSignExponentFraction := by
  intro s b0 b1 b2 b3 b4 b5 hx hcap
  have hresponse := f6decCmd_bytes s.params s.port b0 b1 b2 b3 b4 b5 hx hcap
  exact ⟨fun hzero => exec_of_responseOf_ret .f6dec s _ rfl (hresponse.trans (if_pos hzero)),
    fun hne => exec_of_responseOf_ret .f6dec s _ rfl (hresponse.trans (if_neg hne))⟩

/-- Settles O51: each check raises its error, NORMBP's in the order length, format, width. -/
theorem floatErrors : Obligations.FloatErrors := by
  intro s
  refine ⟨fun hexp => ?_, fun hlen => ?_, fun hlen => ?_, fun hlen => ?_, fun hlen hformat => ?_,
    fun hlen hformat hwidth => ?_⟩
  · exact ⟨exec_of_responseOf_raise .f6enc s _ (f6encCmd_not_finite _ _ hexp),
      exec_of_responseOf_raise .fbinfrac s _ (fbinfracCmd_not_finite _ hexp)⟩
  · exact exec_of_responseOf_raise .f6dec s _ (f6decCmd_long _ _ hlen)
  · exact exec_of_responseOf_raise .fdec s _ (fdecCmd_long _ _ hlen)
  · have hresponse : normbpCmd s.params s.port = .raise .invalidLength := withTX_long _ _ _ hlen
    exact exec_of_responseOf_raise .normbp s _ hresponse
  · exact exec_of_responseOf_raise .normbp s _ (normbpCmd_badFormat _ _ hlen hformat)
  · obtain ⟨ip, fp, hpoint⟩ := hformat
    exact exec_of_responseOf_raise .normbp s _
      ((normbpCmd_of_isBinaryPoint _ _ ip fp hlen hpoint).trans (withWidth_bad _ _ _ hwidth))

end Sys2Proof.Machine
end

section
/-! SUPPORT. FBINFRAC's text digit by digit, and NORMBP's result as a bound on the text's value (43_float.md section 3):
the value is one and the digits after the leading one, scaled, so the mantissa's width decides what is lost. -/

namespace Sys2Proof.Machine

/-! ### FBINFRAC's text (43_float.md rule R214) -/

/-- A number below `2^n` needs at most `n` characters. -/
theorem integerText_length (u n : Nat) (hn : 1 ≤ n) (h : u < 2 ^ n) : (integerText u).length ≤ n := by
  obtain ⟨-, hvalue, hzero, hnonzero⟩ := integerText_spec u
  by_cases hu : u = 0
  · rw [hzero hu]
    exact hn
  · obtain ⟨t, ht⟩ := bits_bitWidth_head u hu
    rw [hnonzero hu, ht] at hvalue ⊢
    exact length_le_of_head t n (hvalue.trans_lt h)

theorem integerText_head (u : Nat) : integerText u = [0x30#8] ∨ (integerText u).getD 0 0#8 = 0x31#8 := by
  obtain ⟨-, -, hzero, hnonzero⟩ := integerText_spec u
  by_cases hu : u = 0
  · exact .inl (hzero hu)
  · obtain ⟨t, ht⟩ := bits_bitWidth_head u hu
    rw [hnonzero hu, ht]
    exact .inr rfl

theorem toNat_floor_lt_two_pow (q : ℚ) (n : Nat) (h : q < 2 ^ n) : ⌊q⌋.toNat < 2 ^ n := by
  have hfloor : ⌊q⌋ < ((2 ^ n : Nat) : Int) := Int.floor_lt.2 (by exact_mod_cast h)
  have hpos : 0 < 2 ^ n := Nat.two_pow_pos n
  omega

/-- The integer part of a finite magnitude has at most 1024 characters (43_float.md rule R202). -/
theorem integerText_magnitude64_length (v : Word64) (hfin : expField64 v ≠ 2047) :
    (integerText ⌊magnitude64 v⌋.toNat).length ≤ 1024 := by
  obtain ⟨N, hN⟩ : ∃ N : Nat, N = 1024 := ⟨1024, rfl⟩
  rw [← hN]
  exact integerText_length _ N (by omega) (toNat_floor_lt_two_pow _ N (magnitude64_lt v N hN hfin))

/-- The fraction's text has a digit, is cut only at the bound, and ends with the last `'1'` when nothing is left. -/
theorem fracText_fracLoop_digits (fuel : Nat) (hfuel : 0 < fuel) (f : ℚ) (h0 : 0 ≤ f) (h1 : f < 1) :
    1 ≤ (fracText (fracLoop fuel f).1).length ∧ (fracText (fracLoop fuel f).1).length ≤ fuel ∧
      ((fracLoop fuel f).2 ≠ 0 → (fracText (fracLoop fuel f).1).length = fuel) ∧
      ((fracLoop fuel f).2 = 0 → fracText (fracLoop fuel f).1 = [0x30#8] ∨
        (fracText (fracLoop fuel f).1).getD ((fracText (fracLoop fuel f).1).length - 1) 0#8 = 0x31#8) := by
  obtain ⟨-, hlen, -, -, hvalue, hcut, hlast⟩ := fracLoop_spec fuel f h0 h1
  by_cases hnil : (fracLoop fuel f).1 = []
  · have hrest : (fracLoop fuel f).2 = 0 := by
      rw [hnil, fracLoop_eq_nil fuel hfuel f hnil, zero_mul] at hvalue
      rw [fracLoop_eq_nil fuel hfuel f hnil]
      simpa [bitval] using hvalue.symm
    rw [fracText, if_pos hnil]
    exact ⟨le_rfl, hfuel, fun hne => absurd hrest hne, fun _ => .inl rfl⟩
  · rw [fracText, if_neg hnil]
    refine ⟨List.length_pos_iff.2 hnil, hlen, hcut, fun hrest => .inr ?_⟩
    rw [List.getD_eq_getElem?_getD, ← List.getLast?_eq_getElem?, (hlast hrest).resolve_left hnil]
    rfl

/-! ### The value of a binary-point text (43_float.md rule R213) -/

theorem pointValue_eq_bitval_div (ip fp : Text) : pointValue ip fp = (bitval (ip ++ fp) : ℚ) / 2 ^ fp.length := by
  rw [pointValue, ← bitval_eq_bitSum, ← bitval_eq_bitSum, bitval_append]
  push_cast
  field_simp

/-- A text has the value 0 exactly when it has no `'1'`. -/
theorem bitval_eq_zero_iff (t : Text) : bitval t = 0 ↔ chr1 ∉ t := by
  induction t with
  | nil => simp [bitval]
  | cons c cs ih =>
    rw [bitval, Nat.add_eq_zero_iff, ih, List.mem_cons, not_or, bitDigit]
    refine and_congr_left fun _ => ?_
    split
    next hone => simp [hone]
    next hne => simp [Ne.symm hne]

theorem chr1_not_mem_zeros (t : Text) (h : ∀ c ∈ t, c = chr0) : chr1 ∉ t :=
  fun hmem => absurd (h chr1 hmem) (by decide)

/-- A number is the power of two of its leading one, times one and the digits after it. -/
theorem pointValue_of_leading_one (ip fp zeros tail : Text) (h : ip ++ fp = zeros ++ chr1 :: tail)
    (hz : ∀ c ∈ zeros, c = chr0) :
    pointValue ip fp =
      (1 + (bitval tail : ℚ) / 2 ^ tail.length) * 2 ^ ((ip.length : Int) - 1 - zeros.length) := by
  have hlen : ip.length + fp.length = zeros.length + (tail.length + 1) := by
    simpa only [List.length_append, List.length_cons] using congrArg List.length h
  have hexp : (ip.length : Int) - 1 - zeros.length = (tail.length : Int) - fp.length := by omega
  have hdigits : bitval (ip ++ fp) = 2 ^ tail.length + bitval tail := by
    rw [h, bitval_append, (bitval_eq_zero_iff zeros).2 (chr1_not_mem_zeros zeros hz), bitval]
    simp [bitDigit]
  rw [pointValue_eq_bitval_div, hdigits, hexp, zpow_sub₀ (by norm_num), zpow_natCast, zpow_natCast]
  push_cast
  field_simp

/-- The leading one of a text is in one place. -/
theorem leading_one_unique (zeros zeros' tail tail' : Text) (hz : ∀ c ∈ zeros, c = chr0)
    (hz' : ∀ c ∈ zeros', c = chr0) (h : zeros ++ chr1 :: tail = zeros' ++ chr1 :: tail') : tail = tail' := by
  induction zeros generalizing zeros' with
  | nil =>
    cases zeros' with
    | nil => exact (List.cons.inj h).2
    | cons c cs => exact absurd ((List.cons.inj h).1.trans (hz' c List.mem_cons_self)) (by decide)
  | cons c cs ih =>
    cases zeros' with
    | nil => exact absurd ((List.cons.inj h).1.symm.trans (hz c List.mem_cons_self)) (by decide)
    | cons c' cs' =>
      exact ih cs' (fun a ha => hz a (List.mem_cons_of_mem _ ha)) (fun a ha => hz' a (List.mem_cons_of_mem _ ha))
        (List.cons.inj h).2

/-! ### The mantissa (43_float.md rule R216) -/

theorem bitval_append_zeros (t : Text) (n : Nat) : bitval (t ++ List.replicate n chr0) = bitval t * 2 ^ n := by
  have hzeros : bitval (List.replicate n chr0) = 0 :=
    (bitval_eq_zero_iff _).2 (chr1_not_mem_zeros _ fun _ => List.eq_of_mem_replicate)
  rw [bitval_append, hzeros, List.length_replicate, add_zero]

/-- The mantissa and the digits dropped make up the digits after the leading one, and the digits dropped are less than
one unit of the mantissa's last digit. -/
theorem fitMantissa_value (M : Nat) (tail : Text) :
    (bitval tail : ℚ) / 2 ^ tail.length =
        (bitval (fitMantissa M tail) : ℚ) / 2 ^ M + (bitval (tail.drop M) : ℚ) / 2 ^ tail.length ∧
      (bitval (tail.drop M) : ℚ) / 2 ^ tail.length < 1 / 2 ^ M := by
  unfold fitMantissa
  split
  next hcut =>
    have hlen : (tail.drop M).length = tail.length - M := List.length_drop
    have hpow : (2 : ℚ) ^ tail.length = 2 ^ M * 2 ^ (tail.length - M) := two_pow_split _ _ _ (by omega)
    have hsum : bitval tail = bitval (tail.take M) * 2 ^ (tail.length - M) + bitval (tail.drop M) := by
      rw [← hlen, ← bitval_append, List.take_append_drop]
    have hdropped : (bitval (tail.drop M) : ℚ) < 2 ^ (tail.length - M) := by
      exact_mod_cast hlen ▸ bitval_lt (tail.drop M)
    constructor
    · rw [hsum, hpow]
      push_cast
      field_simp
    · rw [hpow, div_lt_div_iff₀ (by positivity) (by positivity), one_mul, mul_comm]
      exact mul_lt_mul_of_pos_left hdropped (by positivity)
  next hpad =>
    have hpow : (2 : ℚ) ^ M = 2 ^ tail.length * 2 ^ (M - tail.length) := two_pow_split _ _ _ (by omega)
    have hnil : tail.drop M = [] := List.drop_of_length_le (by omega)
    rw [bitval_append_zeros, hnil, bitval, hpow]
    push_cast
    refine ⟨?_, ?_⟩
    · field_simp
      ring
    · simp only [zero_div]
      positivity

theorem isBits_fitMantissa (M : Nat) (tail : Text) (h : isBits tail = true) : isBits (fitMantissa M tail) = true := by
  rw [isBits, List.all_eq_true] at h ⊢
  intro c hc
  rw [fitMantissa_eq] at hc
  obtain hmem | hmem := List.mem_append.1 (List.mem_of_mem_take hc)
  · exact h c hmem
  · rw [List.eq_of_mem_replicate hmem]
    rfl

/-! ### NORMBP's result -/

theorem exec_normbp_accepted (s : State) (ip fp : Text) (hpoint : IsBinaryPoint s.port.tx ip fp)
    (hlen : s.port.tx.length ≤ s.params.textMax) (hw0 : 0 ≤ s.port.b) (hw1 : s.port.b ≤ s.params.textMax) :
    exec .normbp s = .next (answered s .ok (normPayload ip fp s.port.b.toNat)) := by
  refine exec_of_responseOf_ret .normbp s _ ?_ ?_
  · rw [← Bool.not_eq_true]
    intro hspecial
    exact nomatch (normPayload_kind ip fp _).symm.trans (kind_of_isSpecial hspecial)
  · rw [responseOf, normbpCmd_of_isBinaryPoint _ _ ip fp hlen hpoint, withWidth_eq _ _ _ hw0 hw1]

/-- One and the mantissa, at the exponent of the leading one, bound the text's value, and reach it when every digit
dropped is `'0'` (43_float.md rule R217). -/
theorem norm_bounds (M : Nat) (tail : Text) (e : Int) :
    (1 + (bitval (fitMantissa M tail) : ℚ) / 2 ^ M) * 2 ^ e ≤ (1 + (bitval tail : ℚ) / 2 ^ tail.length) * 2 ^ e ∧
      (1 + (bitval tail : ℚ) / 2 ^ tail.length) * 2 ^ e <
        (1 + ((bitval (fitMantissa M tail) : ℚ) + 1) / 2 ^ M) * 2 ^ e ∧
      ((1 + (bitval (fitMantissa M tail) : ℚ) / 2 ^ M) * 2 ^ e =
        (1 + (bitval tail : ℚ) / 2 ^ tail.length) * 2 ^ e ↔ chr1 ∉ tail.drop M) := by
  obtain ⟨hsum, hunit⟩ := fitMantissa_value M tail
  have hpow : (0 : ℚ) < 2 ^ e := by positivity
  have hlen : (2 : ℚ) ^ tail.length ≠ 0 := by positivity
  have hdropped : (0 : ℚ) ≤ (bitval (tail.drop M) : ℚ) / 2 ^ tail.length := by positivity
  rw [hsum]
  refine ⟨mul_le_mul_of_nonneg_right (by linarith) hpow.le, mul_lt_mul_of_pos_right ?_ hpow, ?_⟩
  · rw [add_div]
    linarith
  · rw [mul_left_inj' hpow.ne', ← bitval_eq_zero_iff]
    constructor
    · intro heq
      have hzero : (bitval (tail.drop M) : ℚ) / 2 ^ tail.length = 0 := by linarith
      exact_mod_cast (div_eq_zero_iff.1 hzero).resolve_right hlen
    · intro hzero
      rw [hzero]
      simp

theorem zpow_two_unique (q : ℚ) (a b : Int) (ha : (2 : ℚ) ^ a ≤ q) (ha' : q < 2 ^ (a + 1)) (hb : (2 : ℚ) ^ b ≤ q)
    (hb' : q < 2 ^ (b + 1)) : a = b := by
  have hab : a < b + 1 := (zpow_lt_zpow_iff_right₀ (by norm_num : (1 : ℚ) < 2)).1 (ha.trans_lt hb')
  have hba : b < a + 1 := (zpow_lt_zpow_iff_right₀ (by norm_num : (1 : ℚ) < 2)).1 (hb.trans_lt ha')
  omega

/-- A number of the form `(1 + x) * 2^e` with `x` from 0 up to 1 is between two powers of two. -/
theorem one_add_mul_zpow_bounds (x : ℚ) (e : Int) (h0 : 0 ≤ x) (h1 : x < 1) :
    (2 : ℚ) ^ e ≤ (1 + x) * 2 ^ e ∧ (1 + x) * 2 ^ e < 2 ^ (e + 1) := by
  have hpow : (0 : ℚ) < 2 ^ e := by positivity
  rw [zpow_add_one₀ (by norm_num)]
  constructor <;> nlinarith

/-- Exponent and mantissa of an `M`-digit normal form are found from its bounds alone: the exponent by the powers of two
around the value, the mantissa as the integer between the bounds. -/
theorem norm_fields_unique (M m n : Nat) (e k : Int) (hm : m < 2 ^ M) (hn : n < 2 ^ M)
    (hlow : (1 + (m : ℚ) / 2 ^ M) * 2 ^ e ≤ (1 + (n : ℚ) / 2 ^ M) * 2 ^ k)
    (hhigh : (1 + (n : ℚ) / 2 ^ M) * 2 ^ k < (1 + ((m : ℚ) + 1) / 2 ^ M) * 2 ^ e) : e = k ∧ m = n := by
  have hunit : (0 : ℚ) < 2 ^ M := by positivity
  have hfraction : ∀ u : Nat, u < 2 ^ M → 0 ≤ (u : ℚ) / 2 ^ M ∧ (u : ℚ) / 2 ^ M < 1 := fun u hu =>
    ⟨by positivity, (div_lt_one hunit).2 (by exact_mod_cast hu)⟩
  have hmpow := (one_add_mul_zpow_bounds _ e (hfraction m hm).1 (hfraction m hm).2).1
  obtain ⟨hklow, hkhigh⟩ := one_add_mul_zpow_bounds _ k (hfraction n hn).1 (hfraction n hn).2
  have htop : (1 + ((m : ℚ) + 1) / 2 ^ M) * 2 ^ e ≤ 2 ^ (e + 1) := by
    have hle : ((m : ℚ) + 1) / 2 ^ M ≤ 1 := (div_le_one hunit).2 (by exact_mod_cast hm)
    have hpow : (0 : ℚ) < 2 ^ e := by positivity
    rw [zpow_add_one₀ (by norm_num)]
    nlinarith
  obtain rfl : e = k := zpow_two_unique _ e k (hmpow.trans hlow) (hhigh.trans_le htop) hklow hkhigh
  have hpow : (0 : ℚ) < 2 ^ e := by positivity
  have hle : (m : ℚ) ≤ n := (div_le_div_iff_of_pos_right hunit).1 (by linarith [le_of_mul_le_mul_right hlow hpow])
  have hlt : (n : ℚ) < m + 1 :=
    (div_lt_div_iff_of_pos_right hunit).1 (by linarith [lt_of_mul_lt_mul_right hhigh hpow.le])
  have hle' : m ≤ n := by exact_mod_cast hle
  have hlt' : n < m + 1 := by exact_mod_cast hlt
  exact ⟨rfl, by omega⟩

/-- The magnitude of a normal pattern is one and its fraction field, at its unbiased exponent (43_float.md rule R202). -/
theorem magnitude64_normal (v : Word64) (h : expField64 v ≠ 0) :
    magnitude64 v = (1 + (fracField64 v : ℚ) / 2 ^ 52) * 2 ^ ((expField64 v : Int) - 1023) := by
  have hexp : (expField64 v : Int) - 1023 = ((expField64 v : Int) - 1075) + 52 := by ring
  have hpow : (2 : ℚ) ^ (52 : Int) = 2 ^ 52 := by norm_cast
  rw [magnitude64, if_neg h, hexp, zpow_add₀ (by norm_num), hpow]
  field_simp

theorem textMax_of_wf (P : Params) (h : P.wf = true) : 1153 ≤ P.textMax := by
  simp only [Params.wf, Params.textMaxOk, Bool.and_eq_true, decide_eq_true_eq] at h
  obtain ⟨⟨⟨htext, -⟩, -⟩, -⟩ := h
  exact htext

/-! ### The statements -/

/-- Settles O46: the fraction's digits are those the doubling loop emits, whose remainder is what the flag asks about. -/
theorem fbinfracExpandsTheFraction : Obligations.FbinfracExpandsTheFraction := by
  intro s hfin
  have hnonneg := magnitude64_nonneg s.port.v
  have hipLength := integerText_magnitude64_length s.port.v hfin
  have hresponse := (fbinfracCmd_finite s.port hfin).trans (congrArg _ (binfracPayload_eq _ _))
  generalize magnitude64 s.port.v = q at *
  have hfract0 : 0 ≤ q - ⌊q⌋ := Int.fract_nonneg q
  have hfract1 : q - ⌊q⌋ < 1 := Int.fract_lt_one q
  obtain ⟨-, -, hrest0, hrest1, -⟩ := fracLoop_spec Config.fracCap (q - ⌊q⌋) hfract0 hfract1
  obtain ⟨hbits, hvalue⟩ := fracText_fracLoop Config.fracCap (by decide) (q - ⌊q⌋) hfract0 hfract1
  obtain ⟨hlen1, hlen128, hcut, hend⟩ := fracText_fracLoop_digits Config.fracCap (by decide) (q - ⌊q⌋) hfract0 hfract1
  generalize (fracLoop Config.fracCap (q - ⌊q⌋)).2 = rest at *
  generalize fracText (fracLoop Config.fracCap (q - ⌊q⌋)).1 = fp at *
  obtain ⟨hipBits, hipValue, -, -⟩ := integerText_spec ⌊q⌋.toNat
  have hsum := pointValue_add_remainder q rest (integerText ⌊q⌋.toNat) fp hnonneg hipValue hvalue
  refine ⟨_, fp, _, exec_of_responseOf_ret .fbinfrac s _ rfl hresponse, (isBits_iff _).1 hipBits,
    (isBits_iff _).1 hbits, ?integer, integerText_head _, hlen1, hlen128, hipLength, ?fraction,
    fun hflag => hcut (of_decide_eq_true hflag), fun hflag => ?exact⟩
  case integer => rw [← bitval_eq_bitSum, hipValue, Int.toNat_of_nonneg (Int.floor_nonneg.2 hnonneg)]
  case fraction =>
    rw [hvalue, Int.floor_natCast_add, Int.floor_eq_zero_iff.2 ⟨hrest0, hrest1⟩, add_zero, bitval_eq_bitSum]
  case exact =>
    have hrest : rest = 0 := not_not.1 (of_decide_eq_false hflag)
    rw [hrest, zero_div, add_zero] at hsum
    exact ⟨hsum, hend hrest⟩

/-- Settles O48: the payload for digits that are all `'0'`, and for digits with a leading one. -/
theorem normbpFindsTheLeadingOne : Obligations.NormbpFindsTheLeadingOne := by
  intro s ip fp hpoint hlen hw0 hw1
  have hexec := exec_normbp_accepted s ip fp hpoint hlen hw0 hw1
  refine ⟨fun hzeros => ?_, fun zeros tail hdigits hzeros => ?_⟩
  · rw [hexec, normPayload_zero ip fp _ hzeros]
    rfl
  · rw [hexec, normPayload_one ip fp zeros tail _ hdigits hzeros, fitMantissa_eq]
    rfl

/-- Settles O49: without a `'1'` the value is 0; with one, it is one and the digits after it, at the leading one's
power of two, and the mantissa is those digits cut or padded. -/
theorem normbpBoundsTheValue : Obligations.NormbpBoundsTheValue := by
  intro s ip fp hpoint hlen hw0 hw1
  have hexec := exec_normbp_accepted s ip fp hpoint hlen hw0 hw1
  obtain ⟨-, hip, hfp, -⟩ := hpoint
  have hbits : isBits (ip ++ fp) = true := by
    rw [isBits_append, (isBits_iff ip).2 hip, (isBits_iff fp).2 hfp]
    rfl
  obtain hzeros | ⟨zeros, tail, hdigits, hzeros⟩ := leading_one (ip ++ fp) hbits
  · rw [normPayload_zero ip fp _ hzeros] at hexec
    refine ⟨true, 0, _, hexec, fun c hc => .inl (List.eq_of_mem_replicate hc), ?_, fun _ => ⟨rfl, ?_⟩,
      fun hfalse => nomatch hfalse⟩
    · rw [List.length_replicate, Int.toNat_of_nonneg hw0]
    · rw [pointValue_eq_bitval_div, (bitval_eq_zero_iff _).2 (chr1_not_mem_zeros _ hzeros), Nat.cast_zero, zero_div]
  · rw [normPayload_one ip fp zeros tail _ hdigits hzeros] at hexec
    have htail : isBits tail = true := by
      rw [hdigits, isBits_append, Bool.and_eq_true] at hbits
      exact hbits.2
    obtain ⟨hlow, hhigh, hexact⟩ :=
      norm_bounds s.port.b.toNat tail ((ip.length : Int) - 1 - zeros.length)
    rw [← pointValue_of_leading_one ip fp zeros tail hdigits hzeros, bitval_eq_bitSum] at hlow hhigh hexact
    have hdropped : chr1 ∉ tail.drop s.port.b.toNat ↔ ∀ zeros tail : Text, ip ++ fp = zeros ++ chr1 :: tail →
        (∀ c ∈ zeros, c = chr0) → chr1 ∉ tail.drop s.port.b.toNat := by
      refine ⟨fun hnot zeros' tail' hdigits' hzeros' => ?_, fun hall => hall zeros tail hdigits hzeros⟩
      rwa [← leading_one_unique zeros zeros' tail tail' hzeros hzeros' (hdigits.symm.trans hdigits')]
    refine ⟨false, _, _, hexec, (isBits_iff _).1 (isBits_fitMantissa _ _ htail), ?_,
      fun htrue => absurd htrue Bool.false_ne_true, fun _ => ⟨hlow, hhigh, hexact.trans hdropped⟩⟩
    rw [fitMantissa_length, Int.toNat_of_nonneg hw0]

/-- Settles O50: unflagged, the text has the value `(1 + fraction / 2^52) * 2^(exponent)`, whose exponent and 52-digit
mantissa NORMBP's bounds leave no choice of. -/
theorem normbpOfFbinfracGivesTheFields : Obligations.NormbpOfFbinfracGivesTheFields := by
  intro s t neg hwf hnormal hfin hexec
  obtain ⟨ip, fp, inexact, hexec', hip, hfp, -, hhead, -, hfpLen, hipLen, -, -, hexact⟩ :=
    fbinfracExpandsTheFraction s hfin
  rw [hexec, Host.Outcome.next.injEq, answered_inj, Payload.binfrac.injEq] at hexec'
  obtain ⟨-, -, htext, hflag⟩ := hexec'
  obtain ⟨hvalue, -⟩ := hexact hflag.symm
  have hcap := textMax_of_wf _ hwf
  have hlen : t.length ≤ s.params.textMax := by
    rw [htext, List.length_append, List.length_cons]
    omega
  have hpoint : IsBinaryPoint t ip fp := ⟨by rintro rfl; simp at hhead, hip, hfp, .inr htext⟩
  obtain ⟨zero, e, m, hnorm, hbits, hwidth, hzero, hbounds⟩ :=
    normbpBoundsTheValue ((s.onAB s.port.a 52).onTX t) ip fp hpoint hlen (by simp) (by simp; omega)
  have hb : ((s.onAB s.port.a 52).onTX t).port.b.toNat = 52 := rfl
  have hwidth : m.length = 52 := Int.ofNat.inj hwidth
  rw [hvalue, hb] at hbounds
  cases zero with
  | true =>
    obtain ⟨-, hpoint0⟩ := hzero rfl
    exact absurd ((magnitude64_eq_zero _).1 (hvalue.symm.trans hpoint0)).1 hnormal
  | false =>
    obtain ⟨hlow, hhigh, -⟩ := hbounds rfl
    have hm : bitSum m < 2 ^ 52 := by
      rw [← hwidth, ← bitval_eq_bitSum]
      exact bitval_lt m
    rw [magnitude64_normal _ hnormal] at hlow hhigh
    obtain ⟨rfl, hfields⟩ := norm_fields_unique 52 _ _ e _ hm (fracField64_lt _) hlow hhigh
    exact ⟨m, hnorm, hbits, hwidth, hfields⟩

end Sys2Proof.Machine
end

section
/-! SUPPORT. GUID2STR and STR2GUID pair by pair, and the operands they refuse (44_guid.md section 2). -/

namespace Sys2Proof.Machine

/-! ### The checks -/

theorem guid2strCmd_long (P : Params) (r : Request) (h : P.bytesMax < r.x.length ∨ r.x.length ≠ 16) :
    guid2strCmd P r = .raise .invalidLength := by
  by_cases hx : P.bytesMax < r.x.length
  · exact withX_long _ _ _ hx
  · rw [guid2strCmd, withX_eq _ _ _ (Nat.not_lt.1 hx), if_pos (h.resolve_left hx)]

/-- The three checks of rule R242 together are whether the text is a GUID text. -/
theorem str2guidCmd_badFormat (P : Params) (r : Request) (hlen : r.tx.length ≤ P.textMax) (h : ¬ IsGuidText r.tx) :
    str2guidCmd P r = .raise .invalidFormat := by
  rw [str2guidCmd, withTX_eq _ _ _ hlen]
  by_cases hlen36 : r.tx.length = 36
  · rw [if_neg (not_not.2 hlen36)]
    cases hhyphens : guidHyphensOk r.tx with
    | false => exact if_pos rfl
    | true =>
      have hdigits : guidDigitsOk r.tx = false :=
        Bool.eq_false_iff.2 fun hdigits => h ((guidText_ok_iff _).1 ⟨hlen36, hhyphens, hdigits⟩)
      rw [hdigits, if_neg (Ne.symm Bool.false_ne_true), if_pos rfl]
  · exact if_pos hlen36

/-- The byte of a pair of hex digits is the value of its two digits (44_guid.md rule R242). -/
theorem guidBytes_byte_value (t : Text) (hdigits : guidDigitsOk t = true) (j : Nat) (hj : j < 16) :
    ∃ hi lo : Nat, hexDigitValue (t.getD (guidOff j) 0#8) = some hi ∧
      hexDigitValue (t.getD (guidOff j + 1) 0#8) = some lo ∧
      ((guidBytes t).getD (guidByte j) 0#8).toNat = 16 * hi + lo := by
  obtain ⟨hhigh, hlow⟩ := (guidDigitsOk_iff t).1 hdigits j hj
  refine ⟨_, _, hexVal_eq _ hhigh, hexVal_eq _ hlow, ?_⟩
  rw [guidBytes_byte t j hj, toNat_ofNibbles _ _ (hexU_hexVal _ hhigh).1 (hexU_hexVal _ hlow).1]

/-! ### The statements -/

/-- Settles O52: the hyphens stand where the frame has them, and pair `j` holds the digits of byte `P[j]`. -/
theorem guid2StrWritesThePairs : Obligations.Guid2StrWritesThePairs := by
  intro s hx hcap
  refine ⟨_, exec_guid2str_onX s s.port.x hcap hx, guidText_length _, guidText_hyphen _, fun j hj => ?_⟩
  obtain ⟨hhigh, hlow⟩ := guidText_pair s.port.x j hj
  obtain ⟨hlt, hlt'⟩ := nibbles_lt (s.port.x.getD (guidByte j) 0#8)
  rw [← guidOff_table j hj, ← guidByte_table j hj, ← hexU_eq_upperHex _ hlt, ← hexU_eq_upperHex _ hlt']
  exact ⟨hhigh, hlow⟩

/-- Settles O53: a GUID text passes the three checks, and byte `P[j]` is read from the digits of pair `j`. -/
theorem str2GuidReadsThePairs : Obligations.Str2GuidReadsThePairs := by
  intro s hguid hcap
  obtain ⟨hlen, hhyphens, hdigits⟩ := (guidText_ok_iff _).2 hguid
  refine ⟨_, exec_str2guid_onTX s s.port.tx hcap hlen hhyphens hdigits, guidBytes_length _, fun j hj => ?_⟩
  rw [← guidOff_table j hj, ← guidByte_table j hj]
  exact guidBytes_byte_value s.port.tx hdigits j hj

/-- Settles O54: the capacity is checked first, then the length or the three checks of the text. -/
theorem guidErrors : Obligations.GuidErrors := by
  intro s
  have hlong (hlen : s.params.textMax < s.port.tx.length) : str2guidCmd s.params s.port = .raise .invalidLength :=
    withTX_long _ _ _ hlen
  exact ⟨fun hlen => exec_of_responseOf_raise .guid2str s _ (guid2strCmd_long _ _ hlen),
    fun hlen => exec_of_responseOf_raise .str2guid s _ (hlong hlen),
    fun hlen hformat => exec_of_responseOf_raise .str2guid s _ (str2guidCmd_badFormat _ _ hlen hformat)⟩

end Sys2Proof.Machine
end

section
/-! SUPPORT. The invariant of a safe state (10_state.md sections 4 and 5): each command returns only payloads of its own
shape, so the one write of the latch leaves a latch that a host may read. -/

namespace Sys2Proof.Machine

/-! ### What a result returns after a check it has passed -/

theorem returns_of_check_passed {Q : Payload → Prop} {c : Prop} [Decidable c] {e : Err} {res : Result}
    (h : ¬ c → res.Returns Q) : (if c then .raise e else res : Result).Returns Q := by
  split
  next => exact returns_raise Q e
  next hc => exact h hc

theorem withTX_returns_accepted {Q : Payload → Prop} {P : Params} {r : Request} {f : Text → Result}
    (h : r.tx.length ≤ P.textMax → (f r.tx).Returns Q) : (withTX P r f).Returns Q :=
  returns_of_check_passed fun hlen => h (Nat.not_lt.1 hlen)

theorem withBits_returns_accepted {Q : Payload → Prop} {P : Params} {r : Request} {f : Text → Result}
    (h : r.tx.length ≤ P.textMax → (f r.tx).Returns Q) : (withBits P r f).Returns Q := by
  refine withTX_returns_accepted fun hlen => ?_
  split
  · exact h hlen
  · exact returns_raise Q _

theorem withNumber_returns_accepted {Q : Payload → Prop} {P : Params} {r : Request} {f : Nat → Result}
    (h : r.a.toNat < 2 ^ P.textMax → (f r.a.toNat).Returns Q) : (withNumber P r f).Returns Q := by
  refine returns_of_check_passed fun hrange => h ?_
  obtain ⟨h0, h1⟩ := not_or.1 hrange
  exact toNat_lt_two_pow _ _ (Int.not_lt.1 h0) (Int.not_le.1 h1)

theorem withWidth_returns_accepted {Q : Payload → Prop} {P : Params} {r : Request} {f : Nat → Result}
    (h : r.b.toNat ≤ P.textMax → (f r.b.toNat).Returns Q) : (withWidth P r f).Returns Q :=
  returns_of_check_passed fun hrange => h (by omega)

/-! ### The shape of each command's payload -/

/-- A result that is an error or returns a payload of the shape that `OP` fixes. -/
def Result.Shaped (P : Params) (op : Opcode) (res : Result) : Prop :=
  res.Returns fun p => responseShape P op p = true

theorem shaped_ret {P : Params} {op : Opcode} {p : Payload} (h : responseShape P op p = true) :
    (Result.ret p).Shaped P op :=
  (returns_ret _ p).2 h

theorem arithCmd_shaped (f : (W : Nat) → BitVec W → BitVec W → BitVec W) (P : Params) (r : Request) (op : Opcode)
    (hop : op = 0x01#6 ∨ op = 0x02#6) (hW : 1 ≤ P.addBits) : (arithCmd f P r).Shaped P op := by
  refine returns_check <| returns_check <| shaped_ret ?_
  obtain rfl | rfl := hop <;> exact inAddRange_toInt hW _

theorem bin2decCmd_shaped (P : Params) (r : Request) : (bin2decCmd P r).Shaped P 0x03#6 :=
  withBits_returns fun t => shaped_ret (decide_eq_true (Int.natCast_nonneg (bitval t)))

theorem dec2binCmd_shaped (P : Params) (r : Request) (hcap : 1 ≤ P.textMax) : (dec2binCmd P r).Shaped P 0x04#6 := by
  refine withNumber_returns_accepted fun hlt => shaped_ret ?_
  obtain ⟨hbits, -, -, -⟩ := decimalText_spec r.a.toNat
  obtain ⟨hpos, hlen⟩ := decimalText_length r.a.toNat P.textMax hcap hlt
  simp [responseShape, hbits, hpos, hlen]

/-- The texts of DEC2BINP and DEC2BINP.T. -/
theorem responseShape_bits (P : Params) (w u : Nat) (hw : w ≤ P.textMax) :
    responseShape P 0x05#6 (.text (bits w u)) = true := by
  simp [responseShape, hw]

theorem dec2binpCmd_shaped (P : Params) (r : Request) : (dec2binpCmd P r).Shaped P 0x05#6 :=
  withNumber_returns fun u => withWidth_returns_accepted fun hw => returns_check <|
    shaped_ret (responseShape_bits P _ u hw)

theorem dec2binpTCmd_shaped (P : Params) (r : Request) : (dec2binpTCmd P r).Shaped P 0x05#6 :=
  withNumber_returns fun _ => withWidth_returns_accepted fun hw => shaped_ret (responseShape_bits P _ _ hw)

theorem bin2txtCmd_shaped (P : Params) (r : Request) : (bin2txtCmd P r).Shaped P 0x06#6 := by
  refine withBits_returns_accepted fun hlen => shaped_ret (decide_eq_true ?_)
  obtain ⟨hcount, -⟩ := chunkText_spec r.tx
  omega

theorem bytes2binCmd_shaped (P : Params) (r : Request) : (bytes2binCmd P r).Shaped P 0x07#6 := by
  refine withX_returns fun x => returns_of_check_passed fun hlen => shaped_ret ?_
  obtain ⟨hbits, hlength, -⟩ := bytesText_spec x
  simp [responseShape, hbits, hlength, Nat.not_lt.1 hlen]

theorem encint_shaped (E Y S : Bool) (P : Params) (r : Request) (hwf : P.wf = true) :
    (encint E Y S P r).Shaped P 0x08#6 := by
  obtain ⟨d, hd⟩ | ⟨e, he⟩ := encint_cases E Y S P r
  · obtain ⟨-, -, -, hlimit, hbytes⟩ := encint_bytes E Y S P r d hd
    have hlen : d.length = max (leastWidth Y S r.a) r.b.toNat := by rw [hbytes, inOrder_length, encBe_length]
    have hpos : 1 ≤ d.length := hlen ▸ le_max_of_le_left (one_le_leastWidth Y S r.a)
    have hcap : d.length ≤ P.bytesMax := hlen ▸ hlimit.trans (widthLimit_le_bytesMax P S hwf)
    rw [hd]
    refine shaped_ret ?_
    simp [responseShape, hpos, hcap]
  · rw [he]
    exact returns_raise _ e

theorem decint_shaped (E Y S : Bool) (P : Params) (r : Request) : (decint E Y S P r).Shaped P 0x09#6 :=
  returns_check <| withX_returns fun _ => returns_check <| shaped_ret rfl

/-- A fraction of 31 bits leaves the top bit of the last byte clear (43_float.md rule R191). -/
theorem responseShape_f6Pack (P : Params) (c : F6ExpCoding) (sgn : Bool) (e : Int) (frac : Nat) (h : frac ≤ f6K) :
    responseShape P 0x0A#6 (.bytes (f6Pack c sgn e frac)) = true := by
  have hlast : (f6Pack c sgn e frac).getD 5 0#8 = BitVec.ofNat 8 (frac / 2 ^ 24) := rfl
  have hmsb : (BitVec.ofNat 8 (frac / 2 ^ 24)).msb = false := by
    rw [BitVec.msb_eq_false_iff_two_mul_lt, BitVec.toNat_ofNat]
    unfold f6K at h
    omega
  simp only [responseShape, BitVec.toNat_ofNat, f6Pack_length, hlast, hmsb]
  rfl

theorem f6encCmd_shaped (P : Params) (r : Request) : (f6encCmd P r).Shaped P 0x0A#6 := by
  unfold f6encCmd
  cases binary64Decode r.v.toNat with
  | zero neg => exact shaped_ret (responseShape_f6Pack P _ _ 0 0 (Nat.zero_le _))
  | fin q => exact shaped_ret (responseShape_f6Pack P _ _ _ _ (f6Frac_le _ _))
  | inf neg => exact returns_raise _ _
  | nan => exact returns_raise _ _

theorem signFactor_ne_zero (neg : Bool) : signFactor neg ≠ 0 := signValue_ne_zero neg

theorem f6decCmd_shaped (P : Params) (r : Request) : (f6decCmd P r).Shaped P 0x0B#6 := by
  refine withX_returns fun x => returns_check ?_
  dsimp only
  split
  next => exact shaped_ret rfl
  next hfrac =>
    have hK : (f6K : ℚ) ≠ 0 := by norm_num [f6K]
    have hpow : ∀ e : Int, (10 : ℚ) ^ e ≠ 0 := fun e => zpow_ne_zero e (by norm_num)
    have hcast := Nat.cast_ne_zero (R := ℚ).2 hfrac
    exact shaped_ret (decide_eq_true (div_ne_zero (mul_ne_zero (mul_ne_zero (signFactor_ne_zero _) (hpow _)) hcast) hK))

/-- A value that the IEEE decoder answers as finite is not 0 (10_state.md rule R25). -/
theorem ieeeDecode_shape (P : Params) (u EB FB : Nat) : responseShape P 0x0C#6 (.val (ieeeDecode u EB FB)) = true := by
  have hpow : ∀ e : Int, (2 : ℚ) ^ e ≠ 0 := fun e => zpow_ne_zero e (by norm_num)
  unfold ieeeDecode
  dsimp only
  split
  · rfl
  split
  · rfl
  split
  · rfl
  next hzero =>
  split
  next hef =>
    have hfrac : binaryFraction (u % 2 ^ FB) FB ≠ 0 :=
      div_ne_zero (Nat.cast_ne_zero.2 fun hff => hzero ⟨hef, hff⟩) (by positivity)
    exact decide_eq_true (mul_ne_zero (mul_ne_zero (signFactor_ne_zero _) (hpow _)) hfrac)
  next =>
    have hfrac : (1 : ℚ) + binaryFraction (u % 2 ^ FB) FB ≠ 0 := by
      unfold binaryFraction
      positivity
    exact decide_eq_true (mul_ne_zero (mul_ne_zero (signFactor_ne_zero _) (hpow _)) hfrac)

theorem fdecCmd_shaped (P : Params) (r : Request) : (fdecCmd P r).Shaped P 0x0C#6 := by
  refine withX_returns fun x => ?_
  dsimp only
  split
  · exact shaped_ret (ieeeDecode_shape P _ 8 23)
  · split
    · exact shaped_ret (ieeeDecode_shape P _ 11 52)
    · exact returns_raise _ _

theorem binfracShape_of_digits (ip fp : Text) (hip : ip ≠ []) (hipBits : isBits ip = true) (hfp : fp ≠ [])
    (hfpBits : isBits fp = true) : binfracShape (ip ++ 0x2E#8 :: fp) = true := by
  have hpoint : splitPoint (ip ++ 0x2E#8 :: fp) = some (ip, fp) :=
    (splitPoint_iff _ _ _).2 ⟨hip, (isBits_iff ip).1 hipBits, (isBits_iff fp).1 hfpBits, .inr rfl⟩
  simp [binfracShape, hpoint, chrDot, hfp]

/-- FBINFRAC's text has 1024 digits before the point and 128 after it at most, which a legal build holds
(00_scope.md rule R5). -/
theorem fbinfracCmd_shaped (P : Params) (r : Request) (hcap : 1153 ≤ P.textMax) :
    (fbinfracCmd r).Shaped P 0x0D#6 := by
  by_cases hfin : expField64 r.v = 2047
  · rw [fbinfracCmd_not_finite r hfin]
    exact returns_raise _ _
  · rw [fbinfracCmd_finite r hfin, binfracPayload_eq]
    have hipLen := integerText_magnitude64_length r.v hfin
    generalize magnitude64 r.v = q at *
    have hfract0 : 0 ≤ q - ⌊q⌋ := Int.fract_nonneg q
    have hfract1 : q - ⌊q⌋ < 1 := Int.fract_lt_one q
    obtain ⟨hfpBits, -⟩ := fracText_fracLoop Config.fracCap (by decide) (q - ⌊q⌋) hfract0 hfract1
    obtain ⟨hfpPos, hfpLen, -, -⟩ := fracText_fracLoop_digits Config.fracCap (by decide) (q - ⌊q⌋) hfract0 hfract1
    obtain ⟨hipBits, -, -, -⟩ := integerText_spec ⌊q⌋.toNat
    have hshape := binfracShape_of_digits _ _ (integerText_ne_nil _) hipBits (List.length_pos_iff.1 hfpPos) hfpBits
    generalize fracText (fracLoop Config.fracCap (q - ⌊q⌋)).1 = fp at *
    have hfpLen : fp.length ≤ 128 := hfpLen
    refine shaped_ret (Bool.and_eq_true_iff.2 ⟨hshape, decide_eq_true ?_⟩)
    rw [List.length_append, List.length_cons]
    omega

theorem normPayload_shape (P : Params) (ip fp : Text) (M : Nat) (hbits : isBits (ip ++ fp) = true)
    (hM : M ≤ P.textMax) : responseShape P 0x0E#6 (normPayload ip fp M) = true := by
  obtain hzeros | ⟨zeros, tail, hdigits, hzeros⟩ := leading_one (ip ++ fp) hbits
  · rw [normPayload_zero ip fp M hzeros]
    simp [responseShape, isBits, isBit, hM]
  · have htail : isBits tail = true := by
      rw [hdigits, isBits_append, Bool.and_eq_true] at hbits
      exact hbits.2
    rw [normPayload_one ip fp zeros tail M hdigits hzeros]
    simp [responseShape, isBits_fitMantissa M tail htail, hM]

theorem normbpCmd_shaped (P : Params) (r : Request) : (normbpCmd P r).Shaped P 0x0E#6 := by
  refine withTX_returns fun t => ?_
  cases hsplit : splitPoint t with
  | none => exact returns_raise _ _
  | some parts =>
    obtain ⟨-, hip, hfp, -⟩ := (splitPoint_iff t parts.1 parts.2).1 hsplit
    have hbits : isBits (parts.1 ++ parts.2) = true := by
      rw [isBits_append, (isBits_iff _).2 hip, (isBits_iff _).2 hfp]
      rfl
    exact withWidth_returns_accepted fun hM => shaped_ret (normPayload_shape P _ _ _ hbits hM)

theorem upcase_hexU : ∀ n < 16, upcase (hexU n) = hexU n := by decide

/-- A GUID text is written in uppercase (44_guid.md rule R241). -/
theorem guidText_upcase (x : List Byte) : ∀ i < 36, upcase ((guidText x).getD i 0#8) = (guidText x).getD i 0#8 := by
  refine forall_guid_place (fun i hi => ?hyphen) fun j hj => ?pair
  case hyphen => rw [guidText_hyphen x i hi, upcase_dash]
  case pair =>
    obtain ⟨hhigh, hlow⟩ := guidText_pair x j hj
    obtain ⟨hlt, hlt'⟩ := nibbles_lt (x.getD (guidByte j) 0#8)
    rw [hhigh, hlow]
    exact ⟨upcase_hexU _ hlt, upcase_hexU _ hlt'⟩

theorem guid2strCmd_shaped (P : Params) (r : Request) : (guid2strCmd P r).Shaped P 0x0F#6 := by
  refine withX_returns fun x => returns_check <| shaped_ret ?_
  obtain ⟨hhyphens, hdigits⟩ := guidText_accepted x
  have hupper : (guidText x).all (fun c => upcase c == c) = true := by
    rw [List.all_eq_true]
    intro c hc
    obtain ⟨i, hi, rfl⟩ := List.getElem_of_mem hc
    rw [beq_iff_eq, ← List.getD_eq_getElem _ 0#8 hi]
    exact guidText_upcase x i (by rwa [guidText_length] at hi)
  simp only [responseShape, BitVec.toNat_ofNat, guidText_length, hhyphens, hdigits, hupper]
  rfl

theorem str2guidCmd_shaped (P : Params) (r : Request) : (str2guidCmd P r).Shaped P 0x10#6 := by
  refine withTX_returns fun t => returns_check <| returns_check <| returns_check <| shaped_ret ?_
  simp [responseShape]

theorem one_le_addBits_of_wf (P : Params) (h : P.wf = true) : 1 ≤ P.addBits := by
  simp only [Params.wf, Params.addBitsOk, Bool.and_eq_true, decide_eq_true_eq] at h
  exact h.2

/-- Every command that raises no error returns a payload of the shape its own `OP` fixes, in a legal build. -/
theorem responseOf_shaped (i : Instr) (P : Params) (r : Request) (hwf : P.wf = true) :
    (responseOf i P r).Shaped P (fieldsOf i).op :=
  match i with
  | .add => arithCmd_shaped _ P r _ (.inl rfl) (one_le_addBits_of_wf P hwf)
  | .sub => arithCmd_shaped _ P r _ (.inr rfl) (one_le_addBits_of_wf P hwf)
  | .bin2dec => bin2decCmd_shaped P r
  | .dec2bin => dec2binCmd_shaped P r (one_le_textMax_of_wf P hwf)
  | .dec2binp => dec2binpCmd_shaped P r
  | .dec2binpT => dec2binpTCmd_shaped P r
  | .bin2txt => bin2txtCmd_shaped P r
  | .bytes2bin => bytes2binCmd_shaped P r
  | .encintBeU | .encintLeU | .encintBeSs | .encintLeSs | .encintBeS | .encintLeS | .encintBeYs | .encintLeYs =>
    encint_shaped _ _ _ P r hwf
  | .decintBeU | .decintLeU | .decintBeSs | .decintLeSs | .decintBeS | .decintLeS | .decintBeYs | .decintLeYs =>
    decint_shaped _ _ _ P r
  | .f6enc => f6encCmd_shaped P r
  | .f6dec => f6decCmd_shaped P r
  | .fdec => fdecCmd_shaped P r
  | .fbinfrac => fbinfracCmd_shaped P r (textMax_of_wf P hwf)
  | .normbp => normbpCmd_shaped P r
  | .guid2str => guid2strCmd_shaped P r
  | .str2guid => str2guidCmd_shaped P r

/-! ### The latch a result leaves (10_state.md rule R27) -/

theorem ret_status_isError (p : Payload) : (Result.ret p).status.isError = false := by
  obtain h | h := ret_status p <;> rw [h] <;> rfl

theorem latchSafe_raise (P : Params) (op : Opcode) (e : Err) :
    latchSafe P ⟨true, op, (Result.raise e).status, (Result.raise e).payload⟩ = true := by
  simp [latchSafe, Result.status, Result.payload, err_status_isError]

theorem latchSafe_ret (P : Params) (op : Opcode) (p : Payload) (h : responseShape P op p = true) :
    latchSafe P ⟨true, op, (Result.ret p).status, (Result.ret p).payload⟩ = true := by
  simp [latchSafe, ret_status_isError, Result.payload, h, ret_status_eq_special_iff]

/-- The write of a result of the shape `OP` fixes leaves a safe state. -/
theorem respond_safe (s : State) (res : Result) (hwf : s.params.wf = true)
    (hshape : res.Shaped s.params (s.port.cmd.extractLsb' 0 6)) : (s.respond res).safe = true := by
  refine Bool.and_eq_true_iff.2 ⟨hwf, ?_⟩
  cases res with
  | ret p => exact latchSafe_ret _ _ p (hshape p rfl)
  | raise e => exact latchSafe_raise _ _ e

theorem takeReset_safe (s : State) (rest : List HostEvent) (hwf : s.params.wf = true) :
    (s.takeReset rest).safe = true :=
  Bool.and_eq_true_iff.2 ⟨hwf, rfl⟩

/-! ### The statement -/

/-- Settles O18: an idle step keeps the state, a reset leaves the reset latch, an illegal word an error, and a command
a result of the shape of the `OP` on the port. -/
theorem stepKeepsSafe : Obligations.StepKeepsSafe := by
  intro s t hsafe hstep
  obtain ⟨hwf, -⟩ := Bool.and_eq_true_iff.1 hsafe
  obtain ⟨-, rfl⟩ | ⟨during, rest, -, rfl⟩ | ⟨r, rest, e, -, -, rfl⟩ | ⟨r, rest, i, res, -, hdecode, hexec, rfl⟩ :=
    step_cases s t hstep
  · exact hsafe
  · exact takeReset_safe s rest hwf
  · exact respond_safe (s.acceptRequest r rest) (.raise .illegalCommand) hwf (returns_raise _ _)
  · rw [exec_eq_finish_responseOf] at hexec
    have hrespond := Host.Outcome.next.inj hexec
    rw [← respond_eq_answered, ← hrespond]
    refine respond_safe _ _ hwf ?_
    rw [acceptRequest_port, op_of_decode r.cmd i hdecode]
    exact responseOf_shaped i _ r hwf

end Sys2Proof.Machine
end
